-- ==== Sys2Proof/Word.lean ====
section
/-! DEFINITION. The word types of the block: the fields of the command word (spec/30_encoding.md R85, R87) and the registers of
fixed width. A register whose width is a parameter of spec/00_scope.md R13 is a number (log entry 3). -/

namespace Sys2Proof

/-- A command word or a response word (R85, R88). -/
abbrev Word64 := BitVec 64

/-- A byte of a tape frame, of the payload or of the name (R42, R43). -/
abbrev Byte := BitVec 8

/-- A 16-bit field of a tape frame: `base`, `end`, checksum (R42). -/
abbrev Word16 := BitVec 16

/-- The field of a command word that carries a signed sample (R87): it supposes SAMPLE_W at most 16. -/
abbrev Sample := BitVec 16

/-- The field of a command word that carries a duration (R87): it supposes DUR_W at most 32. -/
abbrev Duration := BitVec 32

/-- A register of the `RDREG`/`WRREG` interface, 32 bits (R49). -/
abbrev Reg32 := BitVec 32

end Sys2Proof
end

