-- ==== Sys2Proof/Config.lean ====
section
/-! DEFINITION. What an instance of the block fixes: the named parameters of spec/00_scope.md R13 with their defaults, and the
values the spec leaves open under other sizes (log entry 3); the OPEN parameter WORD_ORDER of R12 (log entry 1); the literal
constants of R11; the character codes of spec/93_implementation_defined.md K1 (log entry 6). -/

namespace Sys2Proof

/-- The OPEN parameter WORD_ORDER (R12): which byte of a 16-bit tape field is read first. -/
inductive WordOrder where
  /-- FIRST_LOW: the first byte read is bits 7 to 0. -/
  | firstLow
  /-- FIRST_HIGH: the first byte read is bits 15 to 8. -/
  | firstHigh
deriving DecidableEq, Repr

/-- The sizes of an instance (R13): named parameters, fixed for its life (spec/10_state.md R21). WMAX, which the command word
fixes, is `Config.wMax`. -/
structure Sizes where
  /-- SAMPLE_W, bits of one signed sample. -/
  sampleW : Nat
  /-- DUR_W, bits of a duration. -/
  durW : Nat
  /-- CNT_W, bits of a statistics count, of `SEG.n`, of `CFG.tone_len`. -/
  cntW : Nat
  /-- SUM_W, bits of a statistics sum. -/
  sumW : Nat
  /-- SQ_W, bits of a statistics sum of squares. -/
  sqW : Nat
  /-- SEG_SUM_W, bits of the signed sample sum. -/
  segSumW : Nat
  /-- HIST_BINS, bins of each histogram. -/
  histBins : Nat
  /-- BS_CAP, capacity of the bit memory in bits. -/
  bsCap : Nat
  /-- PAY_CAP, capacity of the payload memory in bytes. -/
  payCap : Nat
deriving DecidableEq, Repr

/-- The defaults of R13. -/
def Sizes.default : Sizes :=
  { sampleW := 16, durW := 32, cntW := 32, sumW := 64, sqW := 96, segSumW := 48, histBins := 1024, bsCap := 1048576,
    payCap := 131072 }

/-- A legal instance (R13): the least values, the sums that cannot overflow before their counts do, the payload
memory that never overflows (spec/43_parser.md R213), the widths the command word supposes (spec/30_encoding.md R87), and a
capacity whose cursor code stays apart from "before start" (spec/42_bitstream.md R174; DEDUCED, log entry 3). -/
structure Sizes.Legal (z : Sizes) : Prop where
  sample : 2 ≤ z.sampleW ∧ z.sampleW ≤ 16
  duration : 1 ≤ z.durW ∧ z.durW ≤ 32
  count : 1 ≤ z.cntW
  sum : (2 ^ z.durW - 1) * (2 ^ z.cntW - 1) < 2 ^ z.sumW
  square : (2 ^ z.durW - 1) ^ 2 * (2 ^ z.cntW - 1) < 2 ^ z.sqW
  segSum : 2 ^ (z.sampleW - 1) * (2 ^ z.cntW - 1) ≤ 2 ^ (z.segSumW - 1)
  bins : 2 ≤ z.histBins
  bits : 33 ≤ z.bsCap ∧ z.bsCap + 1 < 2 ^ 32 - 1
  bytes : 65536 ≤ z.payCap ∧ z.bsCap ≤ 8 * z.payCap

namespace Config

/-- WMAX, the largest window of `BS_HEX`, `BS_FIND`, `BS_APPEND` (R13: fixed by the command word). -/
def wMax : Nat := 16

/-- The duration an instance of width `durW` takes from an operand field that holds more (R138 gives the operand DUR_W bits and
no effect to the bits above): a free value, cut to `durW` bits where it is used (log entry 3). -/
opaque wideDuration (durW : Nat) (d : Duration) : Nat

/-- The sample an instance of width `sampleW` takes from an operand field that holds more (R111): a free value, cut to `sampleW`
bits where it is used (log entry 3). -/
opaque wideSample (sampleW : Nat) (x : Sample) : Int

/-- SYNC8 (R11): target, mask and width of the byte sync marker. -/
def sync8Target : Nat := 0xE6
def sync8Mask : Nat := 0xFF
def sync8Width : Nat := 8

/-- SYNCBIT (R11): target, mask and width of the single-bit-resolution marker. -/
def syncBitTarget : Nat := 0x0080
def syncBitMask : Nat := 0xFF80
def syncBitWidth : Nat := 16

/-- LEADIN_BITS (R11): zero bits synthesized at the end of the lead-in. -/
def leadinBits : Nat := 32

/-- HDR_BYTES (R11): header bytes read by the classification and by the orion decode. -/
def hdrBytes : Nat := 8

/-- ZERO_BYTES (R11): bytes expected zero after an orion header. -/
def zeroBytes : Nat := 8

/-- PRINT_LO and PRINT_HI (R11): the printable range, both ends included. -/
def printLo : Nat := 0x20
def printHi : Nat := 0x7F

/-- Smoothing weights 0.4 and 0.6 (R11, R116) as fifths. -/
def smoothPrev : Int := 2
def smoothNew : Int := 3
def smoothDen : Int := 5

/-- The character codes of the orion name rule (R217, K1; PRESUMED ASCII, log entry 6). -/
def chSlash : Byte := 0x2F
def chBackslash : Byte := 0x5C
def chQuestion : Byte := 0x3F

/-- OTP's defaults of `delta` (in percent) and `tone_length` (R10, R24, R25). -/
def deltaPctDefault : BitVec 7 := 40
def toneLenDefault : Nat := 32

end Config
end Sys2Proof
end

