-- ==== Sys2Proof/Syntax.lean ====
section
/-! DEFINITION. The 23 commands of OTP-CMD (spec/30_encoding.md R89, spec/opcode_table.json), one constructor per row, with
the operands of R86 and R87 at the widths of the command word's fields. -/

namespace Sys2Proof

inductive Instr where
  /-- `RESET` (R241). -/
  | reset
  /-- `RDREG reg` (R243). -/
  | rdreg (reg : BitVec 8)
  /-- `WRREG reg, value` (R245). -/
  | wrreg (reg : BitVec 8) (value : BitVec 32)
  /-- `RDHIST class, bin` (R248). -/
  | rdhist (cls : BitVec 8) (bin : BitVec 32)
  /-- `RDPAY index` (R250). -/
  | rdpay (index : BitVec 32)
  /-- `SEG_RESET` (R112). -/
  | segReset
  /-- `SEG_ACC l, r` (R113). -/
  | segAcc (l r : Sample)
  /-- `SEG_SAMPLE l, r` (R117). -/
  | segSample (l r : Sample)
  /-- `SEG_FLUSH` (R120). -/
  | segFlush
  /-- `DEM_REARM` (R137). -/
  | demRearm
  /-- `PUSH_DUR d` (R138). -/
  | pushDur (d : Duration)
  /-- `BS_RESET` (R173). -/
  | bsReset
  /-- `BS_OFFSET n` (R174). -/
  | bsOffset (n : BitVec 32)
  /-- `BS_HEX W` (R175). -/
  | bsHex (w : BitVec 8)
  /-- `BS_FIND target, mask, W` (R179). -/
  | bsFind (w : BitVec 8) (target mask : BitVec 16)
  /-- `BS_FIND_SYNC` (R180). -/
  | bsFindSync
  /-- `BS_TRIM` (R182). -/
  | bsTrim
  /-- `BS_APPEND W, v` (R183). -/
  | bsAppend (w : BitVec 8) (v : BitVec 16)
  /-- `PAR_CLASSIFY` (R204). -/
  | parClassify
  /-- `PAR_RADIO` (R206). -/
  | parRadio
  /-- `PAR_ORION` (R216). -/
  | parOrion
  /-- `PAR_RAW` (R221). -/
  | parRaw
  /-- `PAR_AUTO` (R224). -/
  | parAuto
deriving DecidableEq, Repr

end Sys2Proof
end

