-- ==== Sys2Proof/WellFormed.lean ====
section
/-! DEFINITION. Which operands are in range whatever the state holds: the cases of spec/30_encoding.md R92 that look at the
command alone. An ill-formed instruction still encodes and decodes (R92: it is no reserved encoding); its meaning refuses
it with F_ARG. The one F_ARG case that looks at the state (`RDPAY` at or above `DF.npay`) is not here. The sizes of the
instance (spec/00_scope.md R13) say how far two of the ranges go. -/

namespace Sys2Proof

/-- The 36 register numbers of spec/10_state.md R49. -/
def registerListed (n : BitVec 8) : Bool :=
  n.toNat ≤ 0x02 || (0x08 ≤ n.toNat && n.toNat ≤ 0x0A) || (0x10 ≤ n.toNat && n.toNat ≤ 0x24)
    || (0x30 ≤ n.toNat && n.toNat ≤ 0x38)

/-- A width of `BS_HEX`, `BS_FIND`, `BS_APPEND` (R69). -/
def widthInRange (w : BitVec 8) : Bool := 1 ≤ w.toNat && w.toNat ≤ Config.wMax

/-- A value with no bit at or above position `w` (R92). -/
def fitsIn (v : BitVec 16) (w : BitVec 8) : Bool := v.toNat < 2 ^ w.toNat

/-- The register and value pairs `WRREG` takes (R245, R246). -/
def writeInRange (z : Sizes) (reg : BitVec 8) (value : BitVec 32) : Bool :=
  if reg = 0x00 then value.toNat ≤ 2
  else if reg = 0x01 then 1 ≤ value.toNat && value.toNat ≤ 99
  else if reg = 0x02 then 1 ≤ value.toNat && value.toNat ≤ 2 ^ z.cntW - 1
  else false

/-- Operands in range (R92). -/
def Instr.wellFormed (z : Sizes) : Instr → Bool
  | .reset => true
  | .rdreg reg => registerListed reg
  | .wrreg reg value => writeInRange z reg value
  | .rdhist cls bin => cls.toNat ≤ 1 && bin.toNat < z.histBins
  | .rdpay _ => true
  | .segReset => true
  | .segAcc _ _ => true
  | .segSample _ _ => true
  | .segFlush => true
  | .demRearm => true
  | .pushDur _ => true
  | .bsReset => true
  | .bsOffset _ => true
  | .bsHex w => widthInRange w
  | .bsFind w target mask => widthInRange w && fitsIn target w && fitsIn mask w
  | .bsFindSync => true
  | .bsTrim => true
  | .bsAppend w v => widthInRange w && fitsIn v w
  | .parClassify => true
  | .parRadio => true
  | .parOrion => true
  | .parRaw => true
  | .parAuto => true

end Sys2Proof
end

