-- ==== Sys2Proof/Decode.lean ====
section
/-! DEFINITION. Decoding and encoding of the 64-bit command word (spec/30_encoding.md R85 to R91), total on every word, and the
opcode table of spec/opcode_table.json as (mnemonic, mask, match) rows (R90). -/

namespace Sys2Proof

/-- Why a word is a reserved encoding (R91). -/
inductive DecodeError where
  /-- `op` is no opcode of R89. -/
  | reservedOpcode
  /-- `op` is an opcode of R89 and a bit its format requires to be 0 is 1. -/
  | reservedField
deriving DecidableEq, Repr

/-- Result of decoding: an instruction, or a rejection by name. -/
inductive Decoded where
  | ok (i : Instr)
  | reserved (e : DecodeError)
deriving DecidableEq, Repr

/-! ### The fields of the command word (R85) -/

def fieldOp (cw : Word64) : BitVec 8 := cw.extractLsb' 56 8
def fieldW (cw : Word64) : BitVec 8 := cw.extractLsb' 48 8
def fieldZ (cw : Word64) : BitVec 16 := cw.extractLsb' 32 16
def fieldImm (cw : Word64) : BitVec 32 := cw.extractLsb' 0 32
def fieldImmHi (cw : Word64) : BitVec 16 := cw.extractLsb' 16 16
def fieldImmLo (cw : Word64) : BitVec 16 := cw.extractLsb' 0 16

/-! ### The formats (R86): each tests the bits it requires to be 0 and hands on its operands (R87) -/

def formatN (cw : Word64) (i : Instr) : Decoded :=
  if fieldW cw = 0 ∧ fieldZ cw = 0 ∧ fieldImm cw = 0 then .ok i else .reserved .reservedField

def formatI (cw : Word64) (f : BitVec 32 → Instr) : Decoded :=
  if fieldW cw = 0 ∧ fieldZ cw = 0 then .ok (f (fieldImm cw)) else .reserved .reservedField

def formatF (cw : Word64) (f : Sample → Sample → Instr) : Decoded :=
  if fieldW cw = 0 ∧ fieldZ cw = 0 then .ok (f (fieldImmHi cw) (fieldImmLo cw)) else .reserved .reservedField

def formatW (cw : Word64) (f : BitVec 8 → Instr) : Decoded :=
  if fieldZ cw = 0 ∧ fieldImm cw = 0 then .ok (f (fieldW cw)) else .reserved .reservedField

def formatWI (cw : Word64) (f : BitVec 8 → BitVec 32 → Instr) : Decoded :=
  if fieldZ cw = 0 then .ok (f (fieldW cw) (fieldImm cw)) else .reserved .reservedField

def formatWP (cw : Word64) (f : BitVec 8 → BitVec 16 → BitVec 16 → Instr) : Decoded :=
  if fieldZ cw = 0 then .ok (f (fieldW cw) (fieldImmHi cw) (fieldImmLo cw)) else .reserved .reservedField

def formatWV (cw : Word64) (f : BitVec 8 → BitVec 16 → Instr) : Decoded :=
  if fieldZ cw = 0 ∧ fieldImmHi cw = 0 then .ok (f (fieldW cw) (fieldImmLo cw)) else .reserved .reservedField

/-- Decoding of a command word (R89 to R91). -/
def decode (cw : Word64) : Decoded :=
  match (fieldOp cw).toNat with
  | 0x01 => formatN cw .reset
  | 0x02 => formatW cw .rdreg
  | 0x03 => formatWI cw .wrreg
  | 0x04 => formatWI cw .rdhist
  | 0x05 => formatI cw .rdpay
  | 0x10 => formatN cw .segReset
  | 0x11 => formatF cw .segAcc
  | 0x12 => formatF cw .segSample
  | 0x13 => formatN cw .segFlush
  | 0x20 => formatN cw .demRearm
  | 0x21 => formatI cw .pushDur
  | 0x30 => formatN cw .bsReset
  | 0x31 => formatI cw .bsOffset
  | 0x32 => formatW cw .bsHex
  | 0x33 => formatWP cw .bsFind
  | 0x34 => formatN cw .bsFindSync
  | 0x35 => formatN cw .bsTrim
  | 0x36 => formatWV cw .bsAppend
  | 0x40 => formatN cw .parClassify
  | 0x41 => formatN cw .parRadio
  | 0x42 => formatN cw .parOrion
  | 0x43 => formatN cw .parRaw
  | 0x44 => formatN cw .parAuto
  | _ => .reserved .reservedOpcode

/-! ### Encoding (R85 to R87) -/

/-- The command word of the fields `op`, `w`, `z` = 0 and `imm` (R85). -/
def commandWord (op w : BitVec 8) (imm : BitVec 32) : Word64 := op ++ w ++ (0 : BitVec 16) ++ imm

/-- The opcode of R89. -/
def Instr.opcode : Instr → BitVec 8
  | .reset => 0x01
  | .rdreg _ => 0x02
  | .wrreg _ _ => 0x03
  | .rdhist _ _ => 0x04
  | .rdpay _ => 0x05
  | .segReset => 0x10
  | .segAcc _ _ => 0x11
  | .segSample _ _ => 0x12
  | .segFlush => 0x13
  | .demRearm => 0x20
  | .pushDur _ => 0x21
  | .bsReset => 0x30
  | .bsOffset _ => 0x31
  | .bsHex _ => 0x32
  | .bsFind _ _ _ => 0x33
  | .bsFindSync => 0x34
  | .bsTrim => 0x35
  | .bsAppend _ _ => 0x36
  | .parClassify => 0x40
  | .parRadio => 0x41
  | .parOrion => 0x42
  | .parRaw => 0x43
  | .parAuto => 0x44

/-- The field `w` of an instruction's word (R86, R87). -/
def Instr.wField : Instr → BitVec 8
  | .reset => 0
  | .rdreg reg => reg
  | .wrreg reg _ => reg
  | .rdhist cls _ => cls
  | .rdpay _ => 0
  | .segReset => 0
  | .segAcc _ _ => 0
  | .segSample _ _ => 0
  | .segFlush => 0
  | .demRearm => 0
  | .pushDur _ => 0
  | .bsReset => 0
  | .bsOffset _ => 0
  | .bsHex w => w
  | .bsFind w _ _ => w
  | .bsFindSync => 0
  | .bsTrim => 0
  | .bsAppend w _ => w
  | .parClassify => 0
  | .parRadio => 0
  | .parOrion => 0
  | .parRaw => 0
  | .parAuto => 0

/-- The field `imm` of an instruction's word (R86, R87). -/
def Instr.immField : Instr → BitVec 32
  | .reset => 0
  | .rdreg _ => 0
  | .wrreg _ value => value
  | .rdhist _ bin => bin
  | .rdpay index => index
  | .segReset => 0
  | .segAcc l r => l ++ r
  | .segSample l r => l ++ r
  | .segFlush => 0
  | .demRearm => 0
  | .pushDur d => d
  | .bsReset => 0
  | .bsOffset n => n
  | .bsHex _ => 0
  | .bsFind _ target mask => target ++ mask
  | .bsFindSync => 0
  | .bsTrim => 0
  | .bsAppend _ v => (0 : BitVec 16) ++ v
  | .parClassify => 0
  | .parRadio => 0
  | .parOrion => 0
  | .parRaw => 0
  | .parAuto => 0

/-- The command word of an instruction (R85). -/
def encode (i : Instr) : Word64 := commandWord i.opcode i.wField i.immField

/-! ### The opcode table (R90, spec/opcode_table.json) -/

/-- One row of spec/opcode_table.json. -/
structure OpcodeRow where
  mnemonic : String
  pattern : Word64
  mask : Word64
deriving DecidableEq, Repr

/-- `CW & mask == match` (R90). -/
def OpcodeRow.selects (row : OpcodeRow) (cw : Word64) : Bool := (cw &&& row.mask) == row.pattern

/-- spec/opcode_table.json, row by row. -/
def opcodeRows : List OpcodeRow := [
  ⟨"RESET", 0x0100000000000000, 0xFFFFFFFFFFFFFFFF⟩,
  ⟨"RDREG", 0x0200000000000000, 0xFF00FFFFFFFFFFFF⟩,
  ⟨"WRREG", 0x0300000000000000, 0xFF00FFFF00000000⟩,
  ⟨"RDHIST", 0x0400000000000000, 0xFF00FFFF00000000⟩,
  ⟨"RDPAY", 0x0500000000000000, 0xFFFFFFFF00000000⟩,
  ⟨"SEG_RESET", 0x1000000000000000, 0xFFFFFFFFFFFFFFFF⟩,
  ⟨"SEG_ACC", 0x1100000000000000, 0xFFFFFFFF00000000⟩,
  ⟨"SEG_SAMPLE", 0x1200000000000000, 0xFFFFFFFF00000000⟩,
  ⟨"SEG_FLUSH", 0x1300000000000000, 0xFFFFFFFFFFFFFFFF⟩,
  ⟨"DEM_REARM", 0x2000000000000000, 0xFFFFFFFFFFFFFFFF⟩,
  ⟨"PUSH_DUR", 0x2100000000000000, 0xFFFFFFFF00000000⟩,
  ⟨"BS_RESET", 0x3000000000000000, 0xFFFFFFFFFFFFFFFF⟩] ++ [
  ⟨"BS_OFFSET", 0x3100000000000000, 0xFFFFFFFF00000000⟩,
  ⟨"BS_HEX", 0x3200000000000000, 0xFF00FFFFFFFFFFFF⟩,
  ⟨"BS_FIND", 0x3300000000000000, 0xFF00FFFF00000000⟩,
  ⟨"BS_FIND_SYNC", 0x3400000000000000, 0xFFFFFFFFFFFFFFFF⟩,
  ⟨"BS_TRIM", 0x3500000000000000, 0xFFFFFFFFFFFFFFFF⟩,
  ⟨"BS_APPEND", 0x3600000000000000, 0xFF00FFFFFFFF0000⟩,
  ⟨"PAR_CLASSIFY", 0x4000000000000000, 0xFFFFFFFFFFFFFFFF⟩,
  ⟨"PAR_RADIO", 0x4100000000000000, 0xFFFFFFFFFFFFFFFF⟩,
  ⟨"PAR_ORION", 0x4200000000000000, 0xFFFFFFFFFFFFFFFF⟩,
  ⟨"PAR_RAW", 0x4300000000000000, 0xFFFFFFFFFFFFFFFF⟩,
  ⟨"PAR_AUTO", 0x4400000000000000, 0xFFFFFFFFFFFFFFFF⟩]

/-- The table's mnemonic of an instruction (R89). -/
def Instr.mnemonic : Instr → String
  | .reset => "RESET"
  | .rdreg _ => "RDREG"
  | .wrreg _ _ => "WRREG"
  | .rdhist _ _ => "RDHIST"
  | .rdpay _ => "RDPAY"
  | .segReset => "SEG_RESET"
  | .segAcc _ _ => "SEG_ACC"
  | .segSample _ _ => "SEG_SAMPLE"
  | .segFlush => "SEG_FLUSH"
  | .demRearm => "DEM_REARM"
  | .pushDur _ => "PUSH_DUR"
  | .bsReset => "BS_RESET"
  | .bsOffset _ => "BS_OFFSET"
  | .bsHex _ => "BS_HEX"
  | .bsFind _ _ _ => "BS_FIND"
  | .bsFindSync => "BS_FIND_SYNC"
  | .bsTrim => "BS_TRIM"
  | .bsAppend _ _ => "BS_APPEND"
  | .parClassify => "PAR_CLASSIFY"
  | .parRadio => "PAR_RADIO"
  | .parOrion => "PAR_ORION"
  | .parRaw => "PAR_RAW"
  | .parAuto => "PAR_AUTO"

/-! ### The host's view of the decoder -/

/-- The command word whose low `nbits` bits are those of `w`, every other bit 0. -/
def wordOfBits (nbits w : Nat) : Word64 := BitVec.ofNat 64 (w % 2 ^ nbits)

/-- The instruction the decoder reads from the `nbits` bits of `w`. -/
def decodeTableWord (nbits w : Nat) : Option Instr :=
  match decode (wordOfBits nbits w) with
  | .ok i => some i
  | .reserved _ => none

end Sys2Proof
end

