-- ==== Sys2Proof/Machine/State.lean ====
section
/-! DEFINITION. The state of the block (spec/10_state.md R20), the reasons a step can stop, and the state after reset
(spec/70_reset_and_hazards.md R291). Plain data throughout. A register whose width is a parameter of spec/00_scope.md R13 is the
number it holds: no rule lets one pass its width (log entries 3 and 7). The fields of `State` that are the model's own are the
instance's parameters (`wordOrder`, log entry 1, and `sizes`, log entry 3) and the host's port (`cmds`, `resp`, log entry 2). -/

namespace Sys2Proof.Machine

/-! ### Closed sets of values -/

/-- `CFG.channel` (R23). The value 3 is reserved and never held. -/
inductive Channel where
  | left
  | right
  | both
deriving DecidableEq, Repr

/-- `DEM.phase` (R31). The value 3 never occurs. -/
inductive Phase where
  | calib
  | decode
  | lost
deriving DecidableEq, Repr

/-- `DEM.fsm` (R32). -/
inductive Fsm where
  | unknown
  | half
  | full
  | modulError
deriving DecidableEq, Repr

/-- The decode outcome codes (spec/30_encoding.md R96). -/
inductive DecodeCode where
  | none
  | ok
  | badCrc
  | raw
  | noSync
  | noBase
  | noLength
  | negativeLength
  | wrongLength
  | noSyncCrc
  | noCrc
  | noHeader
  | notOrion
  | radio
  | orion
deriving DecidableEq, Repr

/-- The demodulator outcome codes (spec/30_encoding.md R97). -/
inductive DemCode where
  | calibrating
  | calibrated
  | unknown
  | half
  | full
  | modulError
  | lostTone
deriving DecidableEq, Repr

/-- The block's own faults (spec/10_state.md R47, spec/60_exceptions.md R269). Raising one is a NEXT state, never a stop. -/
inductive CmdFault where
  /-- `F_OP`: reserved command encoding. -/
  | op
  /-- `F_ARG`: operand out of range. -/
  | arg
  /-- `F_STATE`: command not allowed in the present state. -/
  | state
  /-- `F_BS_FULL`: the bit memory cannot take the bits. -/
  | bsFull
  /-- `F_STAT_OVF`: a count cannot be incremented. -/
  | statOvf
deriving DecidableEq, Repr

/-- The `st` values a response can hold (R96 to R98). -/
inductive Status where
  | decode (c : DecodeCode)
  | dem (c : DemCode)
  | done
  | err (f : CmdFault)
deriving DecidableEq, Repr

/-- `DF.name_kind` (R42). -/
inductive NameKind where
  /-- 0: no name. -/
  | none
  /-- 1: name derived from `DF.ck_read`. -/
  | checksum
  /-- 2: name is `DF.name[0..7]`. -/
  | header
deriving DecidableEq, Repr

/-- `BS.cursor` (R39): -1 ("before start") or a natural number. -/
inductive Cursor where
  | beforeStart
  | onBit (pos : Nat)
deriving DecidableEq, Repr

/-! ### Memories -/

/-- The payload memory `PAY` (R43, R60): cells in rising order of address, an address not listed holding no value
(log entry 4). -/
abbrev Memory := List Host.Cell

/-- A histogram memory (R34, R35, R60): the non-zero bins in rising order, a bin not listed reading 0 (log entry 4). -/
abbrev Hist := List (Nat × Nat)

/-! ### Register groups -/

/-- The configuration registers (R23 to R25). -/
structure Cfg where
  channel : Channel
  deltaPct : BitVec 7
  /-- `CFG.tone_len`, CNT_W bits. -/
  toneLen : Nat
deriving DecidableEq, Repr

/-- The segmenter registers (R26 to R28). -/
structure Seg where
  /-- `SEG.n`, CNT_W bits. -/
  n : Nat
  /-- `SEG.sum`, SEG_SUM_W bits, signed. -/
  sum : Int
  /-- `SEG.cur`, SAMPLE_W bits, signed. -/
  cur : Int
  /-- `SEG.run`, DUR_W bits. -/
  run : Nat
  /-- `SEG.open`. -/
  isOpen : Bool
deriving DecidableEq, Repr

/-- The demodulator registers (R31 to R33). -/
structure Dem where
  phase : Phase
  fsm : Fsm
  curBit : Bool
deriving DecidableEq, Repr

/-- A ToneStatistics aggregate (R34 to R36). -/
structure Stats where
  /-- CNT_W bits. -/
  count : Nat
  /-- SUM_W bits. -/
  sum : Nat
  /-- SQ_W bits. -/
  sq : Nat
  /-- DUR_W bits; no value while `count` = 0 (R36, log entry 5). -/
  minVal : Option Nat
  /-- DUR_W bits; no value while `count` = 0 (R36, log entry 5). -/
  maxVal : Option Nat
  hist : Hist
deriving DecidableEq, Repr

/-- The Bitstream (R38 to R40). `BS.len` is `bits.length`; bit 0 is the oldest. -/
structure Bitstream where
  bits : List Bool
  cursor : Cursor
  inv : Bool
deriving DecidableEq, Repr

/-- The DataFile `DF` (R42). -/
structure DataFile where
  /-- `DF.class`. -/
  cls : DecodeCode
  attempt : DecodeCode
  ctype : DecodeCode
  base : Word16
  /-- `DF.end`, signed. -/
  endAddr : Reg32
  /-- `DF.len`, signed. -/
  len : Reg32
  ckRead : Word16
  ckCalc : Word16
  npay : Reg32
  name : Vector Byte 8
  nameKind : NameKind
  save : Bool
deriving DecidableEq, Repr

/-- A response before it is packed into the response word (R88). -/
structure Response where
  st : Status
  b : Bool
  inv : Bool
  aux : BitVec 16
  val : Reg32
deriving DecidableEq, Repr

/-- The state of the block (R20) and the model's own fields. -/
structure State where
  cfg : Cfg
  seg : Seg
  dem : Dem
  /-- `ST[S]`. -/
  stS : Stats
  /-- `ST[L]`. -/
  stL : Stats
  bs : Bitstream
  df : DataFile
  pay : Memory
  /-- `SYS.fault` (R47). -/
  sysFault : BitVec 8
  /-- The model's own: the parameter WORD_ORDER (R12), a free value no command changes (log entry 1). -/
  wordOrder : WordOrder
  /-- The model's own: the sizes of the instance (R13), which no command changes (log entry 3). -/
  sizes : Sizes
  /-- The model's own: the command words the host gives, first first (R16, log entry 2). -/
  cmds : List Word64
  /-- The model's own: the response word to the last command, none before the first (R16, R88, log entry 2). -/
  resp : Option Word64
deriving DecidableEq, Repr

/-! ### Stops -/

/-- Reasons a step stops. -/
inductive Fault where
  /-- Raised by `RDPAY` at an index below `DF.npay` where `PAY` holds no value (R43 gives such an entry none). No reachable
  state has one, so the fault is safe (log entry 4). -/
  | payloadUnwritten
deriving DecidableEq, Repr

/-- Reasons an instruction has no meaning. -/
inductive Refusal where
  /-- Raised by an arm of `exec` whose instruction has no meaning yet (safe). No arm does. -/
  | notModelled (mnemonic : String)
deriving DecidableEq, Repr

/-! ### Reset (R290, R291) -/

/-- `CFG` after reset (R23 to R25). -/
def Cfg.reset : Cfg := { channel := .left, deltaPct := Config.deltaPctDefault, toneLen := Config.toneLenDefault }

/-- `SEG` after reset and after `SEG_RESET` (R26 to R28, R112). -/
def Seg.reset : Seg := { n := 0, sum := 0, cur := 0, run := 0, isOpen := false }

/-- `DEM` after reset and after `DEM_REARM` (R31 to R33, R137). -/
def Dem.reset : Dem := { phase := .calib, fsm := .unknown, curBit := false }

/-- The empty aggregate (R34, R36). -/
def Stats.empty : Stats := { count := 0, sum := 0, sq := 0, minVal := none, maxVal := none, hist := [] }

/-- The empty Bitstream (R38 to R40). -/
def Bitstream.empty : Bitstream := { bits := [], cursor := .beforeStart, inv := false }

/-- `DF` after reset and after `ClearDF()` (R42, R203). -/
def DataFile.cleared : DataFile :=
  { cls := .none, attempt := .none, ctype := .none, base := 0, endAddr := 0, len := 0, ckRead := 0, ckCalc := 0, npay := 0,
    name := Vector.replicate 8 0, nameKind := .none, save := false }

/-- The block right after reset (R291). `wordOrder`, `cmds` and `resp` are the model's own (log entries 1 and 2); `sizes` are R13's
defaults (log entry 3). -/
def State.reset : State :=
  { cfg := Cfg.reset, seg := Seg.reset, dem := Dem.reset, stS := Stats.empty, stL := Stats.empty, bs := Bitstream.empty,
    df := DataFile.cleared, pay := [], sysFault := 0, wordOrder := .firstLow, sizes := Sizes.default,
    cmds := [], resp := none }

end Sys2Proof.Machine
end

