-- ==== Sys2Proof/Machine/Operands.lean ====
section
/-! DEFINITION. The operand forms of the commands (spec/30_encoding.md R87, R92): the selected sample of a frame, the width of a
window, a value that fits a width, the register numbers of spec/10_state.md R49, the class of a histogram. -/

namespace Sys2Proof.Machine

/-- The sample an operand field carries (R87, R111): the field read signed where SAMPLE_W bits hold it; where they do not, the
spec states no sample, and a free one of SAMPLE_W bits is taken (log entry 3). -/
def sampleOperand (z : Sizes) (x : Sample) : Int :=
  if -((2 ^ (z.sampleW - 1) : Nat) : Int) ≤ x.toInt ∧ x.toInt < ((2 ^ (z.sampleW - 1) : Nat) : Int) then x.toInt
  else (Config.wideSample z.sampleW x).bmod (2 ^ z.sampleW)

/-- The duration an operand field carries (R87, R138): the field where DUR_W bits hold it; where they do not, the spec states no
duration, and a free one of DUR_W bits is taken (log entry 3). -/
def durationOperand (z : Sizes) (d : Duration) : Nat :=
  if d.toNat < 2 ^ z.durW then d.toNat else Config.wideDuration z.durW d % 2 ^ z.durW

/-- `Sel(l, r)` (R111): the sample of a frame that `CFG.channel` selects; `floor` of the mean for `both`. -/
def selectSample (c : Channel) (l r : Int) : Int :=
  match c with
  | .left => l
  | .right => r
  | .both => (l + r).fdiv 2

/-- A width that `BS_HEX`, `BS_FIND` and `BS_APPEND` take (R69, R92): 1 to WMAX. -/
def widthLegal (w : BitVec 8) : Bool := decide (1 ≤ w.toNat) && decide (w.toNat ≤ Config.wMax)

/-- `v` has no bit at or above position `w` (R92). -/
def valueFits (v : BitVec 16) (w : BitVec 8) : Bool := decide (v.toNat < 2 ^ w.toNat)

/-- The registers of R49 by name. -/
inductive Reg where
  | cfgChannel
  | cfgDeltaPct
  | cfgToneLen
  | status
  | bsLen
  | bsCursor
  | sCount
  | sSum0
  | sSum1
  | sSq0
  | sSq1
  | sSq2
  | sMin
  | sMax
  | lCount
  | lSum0
  | lSum1
  | lSq0
  | lSq1
  | lSq2
  | lMin
  | lMax
  | segN
  | segSum0
  | segSum1
  | segCur
  | segRun
  | dfClass
  | dfBase
  | dfEnd
  | dfLen
  | dfNpay
  | dfCk
  | dfName0
  | dfName1
  | dfFlags
deriving DecidableEq, Repr

/-- The register a number names (R49); `none` for a number not in the map. -/
def regOfNumber (n : BitVec 8) : Option Reg :=
  match n.toNat with
  | 0x00 => some .cfgChannel
  | 0x01 => some .cfgDeltaPct
  | 0x02 => some .cfgToneLen
  | 0x08 => some .status
  | 0x09 => some .bsLen
  | 0x0A => some .bsCursor
  | 0x10 => some .sCount
  | 0x11 => some .sSum0
  | 0x12 => some .sSum1
  | 0x13 => some .sSq0
  | 0x14 => some .sSq1
  | 0x15 => some .sSq2
  | 0x16 => some .sMin
  | 0x17 => some .sMax
  | 0x18 => some .lCount
  | 0x19 => some .lSum0
  | 0x1A => some .lSum1
  | 0x1B => some .lSq0
  | 0x1C => some .lSq1
  | 0x1D => some .lSq2
  | 0x1E => some .lMin
  | 0x1F => some .lMax
  | 0x20 => some .segN
  | 0x21 => some .segSum0
  | 0x22 => some .segSum1
  | 0x23 => some .segCur
  | 0x24 => some .segRun
  | 0x30 => some .dfClass
  | 0x31 => some .dfBase
  | 0x32 => some .dfEnd
  | 0x33 => some .dfLen
  | 0x34 => some .dfNpay
  | 0x35 => some .dfCk
  | 0x36 => some .dfName0
  | 0x37 => some .dfName1
  | 0x38 => some .dfFlags
  | _ => none

/-- The channel a written value names (R23); 3 and above are refused. -/
def channelOfValue (value : BitVec 32) : Option Channel :=
  match value.toNat with
  | 0 => some .left
  | 1 => some .right
  | 2 => some .both
  | _ => none

/-- The aggregate a class operand names (R248): 0 short, 1 long; above 1 refused. -/
def statsOfClass (s : State) (cls : BitVec 8) : Option Stats :=
  match cls.toNat with
  | 0 => some s.stS
  | 1 => some s.stL
  | _ => none

end Sys2Proof.Machine
end

