-- ==== Sys2Proof/Machine/Flags.lean ====
section
/-! DEFINITION. Codes, fault bits, the STATUS view and the tests that set a flag or a Boolean result: the numbers of
spec/30_encoding.md R96 to R98, the bits of spec/10_state.md R47 and R48, the cursor code of spec/42_bitstream.md R174, the
side of the mean of spec/40_segmenter.md R114 and the tolerance test of spec/41_demodulator.md R132 to R134. -/

namespace Sys2Proof.Machine

/-! ### Codes -/

/-- The numbers of R96. -/
def DecodeCode.code : DecodeCode → BitVec 8
  | .none => 0x00
  | .ok => 0x01
  | .badCrc => 0x02
  | .raw => 0x03
  | .noSync => 0x10
  | .noBase => 0x11
  | .noLength => 0x12
  | .negativeLength => 0x13
  | .wrongLength => 0x14
  | .noSyncCrc => 0x15
  | .noCrc => 0x16
  | .noHeader => 0x17
  | .notOrion => 0x18
  | .radio => 0x20
  | .orion => 0x21

/-- The numbers of R97. -/
def DemCode.code : DemCode → BitVec 8
  | .calibrating => 0x30
  | .calibrated => 0x31
  | .unknown => 0x32
  | .half => 0x33
  | .full => 0x34
  | .modulError => 0x35
  | .lostTone => 0x36

/-- The `st` of a refused command (R98, R269). -/
def CmdFault.code : CmdFault → BitVec 8
  | .op => 0xE0
  | .arg => 0xE1
  | .state => 0xE2
  | .bsFull => 0xE3
  | .statOvf => 0xE4

/-- The bit of `SYS.fault` of a fault (R47, R269). -/
def CmdFault.bit : CmdFault → BitVec 8
  | .op => 0x01
  | .arg => 0x02
  | .state => 0x04
  | .bsFull => 0x08
  | .statOvf => 0x10

/-- The `st` byte of a response (R96 to R98). -/
def Status.code : Status → BitVec 8
  | .decode c => c.code
  | .dem c => c.code
  | .done => 0x80
  | .err f => f.code

/-- The numbers of `CFG.channel` (R23). -/
def Channel.code : Channel → BitVec 2
  | .left => 0
  | .right => 1
  | .both => 2

/-- The numbers of `DEM.phase` (R31). -/
def Phase.code : Phase → BitVec 2
  | .calib => 0
  | .decode => 1
  | .lost => 2

/-- The numbers of `DEM.fsm` (R32). -/
def Fsm.code : Fsm → BitVec 2
  | .unknown => 0
  | .half => 1
  | .full => 2
  | .modulError => 3

/-- The numbers of `DF.name_kind` (R42). -/
def NameKind.code : NameKind → BitVec 2
  | .none => 0
  | .checksum => 1
  | .header => 2

/-- The `PUSH_DUR` outcome that names a state of the machine (R97). -/
def Fsm.outcome : Fsm → DemCode
  | .unknown => .unknown
  | .half => .half
  | .full => .full
  | .modulError => .modulError

/-! ### Views -/

/-- `STATUS` (R48). -/
def statusWord (s : State) : Reg32 :=
  (0 : BitVec 16) ++ s.sysFault ++ (0 : BitVec 1) ++ BitVec.ofBool s.seg.isOpen ++ BitVec.ofBool s.bs.inv
    ++ BitVec.ofBool s.dem.curBit ++ s.dem.fsm.code ++ s.dem.phase.code

/-- `CursorCode()` (R174, R187) under BS_CAP = `cap`: -1 reads as all ones, a cursor above BS_CAP + 1 as BS_CAP + 1. -/
def Cursor.code (c : Cursor) (cap : Nat) : Reg32 :=
  match c with
  | .beforeStart => 0xFFFFFFFF
  | .onBit c => BitVec.ofNat 32 (min c (cap + 1))

/-- `BS.len` as a register. -/
def Bitstream.lenReg (b : Bitstream) : Reg32 := BitVec.ofNat 32 b.bits.length

/-- `InBounds()` (R172): the cursor is at most `BS.len`; "before start" is in bounds. -/
def Bitstream.inBounds (b : Bitstream) : Bool :=
  match b.cursor with
  | .beforeStart => true
  | .onBit c => decide (c ≤ b.bits.length)

/-! ### Tests -/

/-- `Above(v)` (R114): `v * SEG.n > SEG.sum`, the mean never rounded. -/
def Seg.above (g : Seg) (v : Int) : Bool := decide (v * (g.n : Int) > g.sum)

/-- `Check(d, width)` (R132), over the short aggregate `st` and `CFG.delta_pct` = `delta`, exact. -/
def check (st : Stats) (delta : BitVec 7) (d : Nat) (width : Int) : Bool :=
  decide ((100 * width - (delta.toNat : Int)) * (st.sum : Int) < 100 * (d : Int) * (st.count : Int))
    && decide (100 * (d : Int) * (st.count : Int) < (100 * width + (delta.toNat : Int)) * (st.sum : Int))

/-- The class of a duration in phase `DECODE` (R134). -/
inductive Pulse where
  | short
  | long
  | neither
deriving DecidableEq, Repr

/-- `Classify(d)` (R134): the short test first. -/
def classifyPulse (st : Stats) (delta : BitVec 7) (d : Nat) : Pulse :=
  if check st delta d 1 then .short else if check st delta d 2 then .long else .neither

/-- A register of `w` bits that cannot be incremented (R113, R117, R135). -/
def countFull (w c : Nat) : Bool := c == 2 ^ w - 1

end Sys2Proof.Machine
end

