-- ==== Sys2Proof/Machine/Ops.lean ====
section
/-! DEFINITION. The named operations over the memories and registers: the response (spec/30_encoding.md R88), the refusal of a
command (spec/60_exceptions.md R268, the one place a fault is raised), taking a command, the sparse memories, the statistics
(spec/41_demodulator.md R135, R136), and the Bitstream's functions (spec/42_bitstream.md R170 to R184).

A refusal has no return (R271): the block takes the next command as usual (R306), and only `RESET` clears `SYS.fault`. -/

namespace Sys2Proof.Machine

/-- What a meaning answers. -/
abbrev Result := Host.Outcome State Fault Refusal

/-! ### The response and the refusal -/

/-- The response word `RW` (R88): `st`, `b`, `inv`, six zero bits, `aux`, `val`. -/
def Response.word (r : Response) : Word64 :=
  r.st.code ++ BitVec.ofBool r.b ++ BitVec.ofBool r.inv ++ (0 : BitVec 6) ++ r.aux ++ r.val

/-- A command completes: its response is given with `inv` = `BS.inv` after the command (R88). -/
def complete (st : Status) (b : Bool) (aux : BitVec 16) (val : Reg32) (s : State) : Result :=
  .next { s with resp := some (Response.word { st := st, b := b, inv := s.bs.inv, aux := aux, val := val }) }

/-- `raise <Fault>` (R15, R268): the command is refused; nothing changes but the fault's sticky bit, and the response holds the
fault's code. -/
def refuse (f : CmdFault) (s : State) : Result :=
  .next { s with
    sysFault := s.sysFault ||| f.bit
    resp := some (Response.word { st := .err f, b := false, inv := s.bs.inv, aux := 0, val := 0 }) }

/-- The next command word the host gives, and the state once it is taken (R16; log entry 2). -/
def takeCommand (s : State) : Option (Word64 × State) :=
  match s.cmds with
  | [] => none
  | cw :: rest => some (cw, { s with cmds := rest })

/-! ### Sparse memories: lists of (address, value) in rising order of address -/

/-- The value listed at address `a`. -/
def cellsRead {α : Type} : List (Nat × α) → Nat → Option α
  | [], _ => none
  | (k, v) :: m, a => if k = a then some v else cellsRead m a

/-- Address `a` holds `v`, the order of addresses kept. -/
def cellsWrite {α : Type} : List (Nat × α) → Nat → α → List (Nat × α)
  | [], a, v => [(a, v)]
  | (k, w) :: m, a, v =>
    if a < k then (a, v) :: (k, w) :: m
    else if a = k then (a, v) :: m
    else (k, w) :: cellsWrite m a v

/-- Address `a` is no longer listed. -/
def cellsErase {α : Type} : List (Nat × α) → Nat → List (Nat × α)
  | [], _ => []
  | (k, w) :: m, a => if k = a then m else (k, w) :: cellsErase m a

/-- The addresses strictly rise. -/
abbrev cellsRising {α : Type} (m : List (Nat × α)) : Prop := m.Pairwise (fun x y => x.1 < y.1)

/-- The canonical form of the payload memory. An unlisted address holds no value, so no listed byte equals what it reads. -/
abbrev Memory.wf (m : Memory) : Prop := cellsRising m

/-- The byte at an address of `PAY`, if it holds one (R43). -/
def Memory.read (m : Memory) (a : Nat) : Option Byte := cellsRead m a

/-- `PAY[a] <- v`. -/
def Memory.write (m : Memory) (a : Nat) (v : Byte) : Memory := cellsWrite m a v

/-- The bytes `PAY[0 .. n-1]` in order of address. -/
def Memory.bytesBelow (m : Memory) (n : Nat) : List Byte := (m.filter (fun c => decide (c.1 < n))).map Prod.snd

/-- The canonical form of a histogram: bins strictly rising, no zero listed. -/
abbrev Hist.wf (h : Hist) : Prop := cellsRising h ∧ ∀ c ∈ h, c.2 ≠ 0

/-- `hist[v]` (R35): a bin not listed reads 0. -/
def Hist.read (h : Hist) (v : Nat) : Nat := (cellsRead h v).getD 0

/-- `hist[v] <- x`, the canonical form kept. -/
def Hist.write (h : Hist) (v : Nat) (x : Nat) : Hist := if x = 0 then cellsErase h v else cellsWrite h v x

/-! ### Statistics (R135, R136) -/

/-- `min` of an Option that holds no value while the aggregate is empty. -/
def minWith (m : Option Nat) (d : Nat) : Nat := m.elim d (fun x => min x d)

/-- `max` of an Option that holds no value while the aggregate is empty. -/
def maxWith (m : Option Nat) (d : Nat) : Nat := m.elim d (fun x => max x d)

/-- `Fold(c, d)` (R135) over `bins` = HIST_BINS where the count can be incremented; the callers test `countFull` first. -/
def Stats.fold (st : Stats) (bins d : Nat) : Stats :=
  let v := min d (bins - 1)
  { count := st.count + 1
    sum := st.sum + d
    sq := st.sq + d * d
    minVal := some (if st.count = 0 then d else minWith st.minVal d)
    maxVal := some (if st.count = 0 then d else maxWith st.maxVal d)
    hist := st.hist.write v (st.hist.read v + 1) }

/-! ### Windows over the bit memory (R62 to R65, R171) -/

/-- `B(i)` (R64): the bit at address `i`, 0 beyond the end. -/
def bitAt (bits : List Bool) (i : Nat) : Nat := (bits[i]?.getD false).toNat

/-- `MemRead(addr, n)` (R64): first bit most significant. -/
def memRead (bits : List Bool) (addr : Nat) : Nat → Nat
  | 0 => 0
  | n + 1 => 2 * memRead bits addr n + bitAt bits (addr + n)

/-- A position of a scan that has left "before start", and the inversion flag. -/
structure Scan where
  pos : Nat
  inv : Bool
deriving DecidableEq, Repr

/-- `Hex(W)` (R171) at a scan position: padding first, then the inversion mask. -/
def hex (bits : List Bool) (sc : Scan) (w : Nat) : Nat :=
  if sc.inv then memRead bits sc.pos w ^^^ (2 ^ w - 1) else memRead bits sc.pos w

/-- `InBounds()` (R172) at a scan position. -/
def Scan.inBounds (bits : List Bool) (sc : Scan) : Bool := decide (sc.pos ≤ bits.length)

/-- `Advance(n)` (R174) at a scan position; the flag is kept. -/
def Scan.advance (sc : Scan) (n : Nat) : Scan := { sc with pos := sc.pos + n }

/-- `Advance(n)` (R174) from any cursor: -1 + n is -1 for n = 0. -/
def Cursor.advance : Cursor → Nat → Cursor
  | .beforeStart, 0 => .beforeStart
  | .beforeStart, n + 1 => .onBit n
  | .onBit c, n => .onBit (c + n)

/-- The cursor plus one, the first position `Find` tests (R176 point (a)). -/
def Cursor.next : Cursor → Nat
  | .beforeStart => 0
  | .onBit c => c + 1

/-! ### The search (R176, R180, R181) -/

/-- `(Hex(W) & m) = t` at one position under one polarity (R176). -/
def windowMatches (bits : List Bool) (t m w : Nat) (sc : Scan) : Bool := (hex bits sc w &&& m) == t

/-- The loop of `Find` (R176) from position `pos`, `fuel` being the number of positions left to test. -/
def findLoop (bits : List Bool) (t m w : Nat) : Nat → Nat → Bool × Scan
  | 0, pos => (false, { pos := pos, inv := false })
  | fuel + 1, pos =>
    if windowMatches bits t m w { pos := pos, inv := false } then (true, { pos := pos, inv := false })
    else if windowMatches bits t m w { pos := pos, inv := true } then (true, { pos := pos, inv := true })
    else findLoop bits t m w fuel (pos + 1)

/-- `Find(t, m, W)` (R176) whose first tested position is `start`; positions up to `BS.len` are tested. -/
def find (bits : List Bool) (t m w start : Nat) : Bool × Scan := findLoop bits t m w (bits.length + 1 - start) start

/-- `FindSync()` (R180): on success the cursor steps over the marker; the result is that of the search. -/
def findSync (bits : List Bool) (start : Nat) : Bool × Scan :=
  let r := find bits Config.sync8Target Config.sync8Mask Config.sync8Width start
  if r.1 then (true, r.2.advance 8) else r

/-- `FindSyncBit()` (R181): no advance. -/
def findSyncBit (bits : List Bool) (start : Nat) : Bool × Scan :=
  find bits Config.syncBitTarget Config.syncBitMask Config.syncBitWidth start

/-- The scan's position and flag put into the Bitstream's registers. -/
def Bitstream.setScan (b : Bitstream) (sc : Scan) : Bitstream := { b with cursor := .onBit sc.pos, inv := sc.inv }

/-! ### Cursor reset, truncation and append (R173, R182 to R184) -/

/-- `ResetCursor()` (R173). -/
def Bitstream.resetCursor (b : Bitstream) : Bitstream := { b with cursor := .beforeStart, inv := false }

/-- The number of bits `Trim()` drops (R182): `min(max(BS.cursor, 0), BS.len)`. -/
def Bitstream.trimCount (b : Bitstream) : Nat :=
  match b.cursor with
  | .beforeStart => 0
  | .onBit c => min c b.bits.length

/-- `Trim()` (R182). -/
def Bitstream.trim (b : Bitstream) : Bitstream := { bits := b.bits.drop b.trimCount, cursor := .beforeStart, inv := false }

/-- The `n` low bits of `v`, bit `n-1` first (R66). -/
def bitsOf (v : Nat) : Nat → List Bool
  | 0 => []
  | n + 1 => v.testBit n :: bitsOf v n

/-- Whether `n` more bits fit under BS_CAP = `cap` (R151, R184). -/
def Bitstream.fits (b : Bitstream) (cap n : Nat) : Bool := decide (b.bits.length + n ≤ cap)

/-- `MemWrite(BS.len, n, v)` and `Append` (R66, R184), the bits given first first; cursor and flag are kept. -/
def Bitstream.append (b : Bitstream) (new : List Bool) : Bitstream := { b with bits := b.bits ++ new }

/-! ### Bytes and words of a tape frame (R200 to R202) -/

/-- What `ReadByte()` and `ReadWord()` give: a value, the in-bounds result and the scan after the read. -/
structure ReadOf (w : Nat) where
  value : BitVec w
  ok : Bool
  scan : Scan
deriving DecidableEq, Repr

/-- `ReadByte()` (R200). -/
def readByte (bits : List Bool) (sc : Scan) : ReadOf 8 :=
  let next := sc.advance 8
  { value := BitVec.ofNat 8 (hex bits sc 8), ok := next.inBounds bits, scan := next }

/-- `ReadWord()` (R201) under a WORD_ORDER. -/
def readWord (wo : WordOrder) (bits : List Bool) (sc : Scan) : ReadOf 16 :=
  let a := readByte bits sc
  let b := readByte bits a.scan
  { value := match wo with
      | .firstLow => b.value ++ a.value
      | .firstHigh => a.value ++ b.value
    ok := b.ok
    scan := b.scan }

/-- The loop of `Checksum` (R202) over the bytes left, from the accumulators `low` and `high`. -/
def checksumLoop : List Byte → Byte → Byte → Word16
  | [], low, high => high ++ low
  | b :: rest, low, high =>
    let t := low.toNat + b.toNat
    let carry := BitVec.ofNat 8 (t / 256)
    checksumLoop rest (BitVec.ofNat 8 t) (if rest.isEmpty then high else high + b + carry)

/-- `Checksum(p)` (R202). -/
def checksum (p : List Byte) : Word16 := checksumLoop p 0 0

end Sys2Proof.Machine
end

