-- ==== Sys2Proof/Machine/BitMemory.lean ====
section
/-! DEFINITION. Unit BS (spec/42_bitstream.md): `BS_RESET`, `BS_OFFSET`, `BS_HEX`, `BS_FIND`, `BS_FIND_SYNC`, `BS_TRIM`,
`BS_APPEND`. -/

namespace Sys2Proof.Machine

/-- `BS_RESET` (R173). -/
def execBsReset (s : State) : Result := complete .done false 0 0xFFFFFFFF { s with bs := s.bs.resetCursor }

/-- `BS_OFFSET n` (R174). -/
def execBsOffset (n : BitVec 32) (s : State) : Result :=
  let b := { s.bs with cursor := s.bs.cursor.advance n.toNat }
  complete .done b.inBounds 0 (b.cursor.code s.sizes.bsCap) { s with bs := b }

/-- `BS_HEX W` (R175). -/
def execBsHex (w : BitVec 8) (s : State) : Result :=
  if !widthLegal w then refuse .arg s
  else
    match s.bs.cursor with
    | .beforeStart => refuse .state s
    | .onBit c => complete .done false 0 (BitVec.ofNat 32 (hex s.bs.bits { pos := c, inv := s.bs.inv } w.toNat)) s

/-- The end of a search: cursor and flag take the scan's, and the response tells whether it succeeded (R179, R180). -/
def completeSearch (r : Bool × Scan) (s : State) : Result :=
  let b := s.bs.setScan r.2
  complete .done r.1 0 (b.cursor.code s.sizes.bsCap) { s with bs := b }

/-- `BS_FIND target, mask, W` (R179). -/
def execBsFind (w : BitVec 8) (target mask : BitVec 16) (s : State) : Result :=
  if !(widthLegal w && valueFits target w && valueFits mask w) then refuse .arg s
  else completeSearch (find s.bs.bits target.toNat mask.toNat w.toNat s.bs.cursor.next) s

/-- `BS_FIND_SYNC` (R180). -/
def execBsFindSync (s : State) : Result := completeSearch (findSync s.bs.bits s.bs.cursor.next) s

/-- `BS_TRIM` (R182). -/
def execBsTrim (s : State) : Result :=
  let b := s.bs.trim
  complete .done false 0 b.lenReg { s with bs := b }

/-- `BS_APPEND W, v` (R183). -/
def execBsAppend (w : BitVec 8) (v : BitVec 16) (s : State) : Result :=
  if !(widthLegal w && valueFits v w) then refuse .arg s
  else if !s.bs.fits s.sizes.bsCap w.toNat then refuse .bsFull s
  else
    let b := s.bs.append (bitsOf v.toNat w.toNat)
    complete .done false 0 b.lenReg { s with bs := b }

end Sys2Proof.Machine
end

