-- ==== Sys2Proof/Machine/Demodulator.lean ====
section
/-! DEFINITION. Unit DEM (spec/41_demodulator.md): `DEM_REARM`, `PUSH_DUR`. -/

namespace Sys2Proof.Machine

/-- `DEM_REARM` (R137): DEM, the statistics and the Bitstream take their reset values, everything else stays. -/
def execDemRearm (s : State) : Result :=
  complete .done false 0 0 { s with dem := Dem.reset, stS := Stats.empty, stL := Stats.empty, bs := Bitstream.empty }

/-- The response of `PUSH_DUR` (R138): `b` = 1 if `BS.len` grew from `before`, `val` = `BS.len`. -/
def completePush (c : DemCode) (before : Nat) (s : State) : Result :=
  complete (.dem c) (decide (before < s.bs.bits.length)) 0 s.bs.lenReg s

/-- The end of every `AddTone` (R140): calibration completes once the count exceeds `CFG.tone_len`. -/
def finishTone (s : State) : Result :=
  if s.cfg.toneLen < s.stS.count then
    completePush .calibrated s.bs.bits.length { s with dem := { s.dem with phase := .decode, fsm := .unknown } }
  else completePush .calibrating s.bs.bits.length s

/-- `AddTone(d)` (R139): fold a duration inside the band, restart the calibration (R136) with any other. -/
def addTone (d : Nat) (s : State) : Result :=
  if check s.stS s.cfg.deltaPct d 1 then
    if countFull s.sizes.cntW s.stS.count then refuse .statOvf s
    else finishTone { s with stS := s.stS.fold s.sizes.histBins d }
  else finishTone { s with stS := Stats.empty.fold s.sizes.histBins d, stL := Stats.empty }

/-- `modul_error` is folded back to `full` before the duration is taken (R141, R150). -/
def Fsm.absorb : Fsm → Fsm
  | .unknown => .unknown
  | .half => .half
  | .full => .full
  | .modulError => .full

/-- One transition of the bit machine: the new state, the new current bit and the bits appended, oldest first. -/
structure Transition where
  fsm : Fsm
  curBit : Bool
  new : List Bool
deriving DecidableEq, Repr

/-- The transition on a short pulse (R145, R146, R148, R150). -/
def shortTransition (f : Fsm) (cur : Bool) : Transition :=
  match f.absorb with
  | .unknown => { fsm := .unknown, curBit := cur, new := [] }
  | .half => { fsm := .full, curBit := cur, new := [cur] }
  | .full => { fsm := .half, curBit := cur, new := [] }
  | .modulError => { fsm := .half, curBit := cur, new := [] }

/-- The transition on a long pulse (R144, R147, R149, R150). -/
def longTransition (f : Fsm) (cur : Bool) : Transition :=
  match f.absorb with
  | .unknown => { fsm := .full, curBit := !cur, new := List.replicate Config.leadinBits false ++ [!cur] }
  | .half => { fsm := .modulError, curBit := cur, new := [cur] }
  | .full => { fsm := .full, curBit := !cur, new := [!cur] }
  | .modulError => { fsm := .full, curBit := !cur, new := [!cur] }

/-- A transition taken, the fold already made in `s` (R141). -/
def takeTransition (t : Transition) (s : State) : Result :=
  completePush t.fsm.outcome s.bs.bits.length
    { s with dem := { s.dem with fsm := t.fsm, curBit := t.curBit }, bs := s.bs.append t.new }

/-- `AddDuration(d)` (R141 to R151): the faults first, a full count before a full bit memory (R270). -/
def addDuration (d : Nat) (s : State) : Result :=
  match classifyPulse s.stS s.cfg.deltaPct d with
  | .neither =>
    completePush .lostTone s.bs.bits.length { s with dem := { s.dem with phase := .lost, fsm := s.dem.fsm.absorb } }
  | .short =>
    let t := shortTransition s.dem.fsm s.dem.curBit
    if countFull s.sizes.cntW s.stS.count then refuse .statOvf s
    else if !s.bs.fits s.sizes.bsCap t.new.length then refuse .bsFull s
    else takeTransition t { s with stS := s.stS.fold s.sizes.histBins d }
  | .long =>
    let t := longTransition s.dem.fsm s.dem.curBit
    if countFull s.sizes.cntW s.stL.count then refuse .statOvf s
    else if !s.bs.fits s.sizes.bsCap t.new.length then refuse .bsFull s
    else takeTransition t { s with stL := s.stL.fold s.sizes.histBins d }

/-- `PUSH_DUR d` (R138, R152). -/
def execPushDur (d : Duration) (s : State) : Result :=
  match s.dem.phase with
  | .lost => refuse .state s
  | .calib => addTone (durationOperand s.sizes d) s
  | .decode => addDuration (durationOperand s.sizes d) s

end Sys2Proof.Machine
end

