-- ==== Sys2Proof/Machine/Parser.lean ====
section
/-! DEFINITION. Unit PAR (spec/43_parser.md): `PAR_CLASSIFY`, `PAR_RADIO`, `PAR_ORION`, `PAR_RAW`, `PAR_AUTO`. The bits are an
argument that no function here returns: PAR never changes bit content (R22). Every command begins with `ClearDF()` and
`ResetCursor()` (R203), so every scan begins with a `Find` from position 0. -/

namespace Sys2Proof.Machine

/-- What a parse command works on: the scan, `DF` and `PAY`. -/
structure ParState where
  scan : Scan
  df : DataFile
  pay : Memory
deriving DecidableEq, Repr

/-- `ClearDF()` (R203) with the scan where it stands. -/
def ParState.cleared (sc : Scan) : ParState := { scan := sc, df := DataFile.cleared, pay := [] }

/-- The result put into the block's registers. -/
def storePar (p : ParState) (s : State) : State := { s with bs := s.bs.setScan p.scan, df := p.df, pay := p.pay }

/-! ### Classification (R204, R205) -/

/-- `n` times `ReadByte()`, the in-bounds results not used. -/
def readBytes (bits : List Bool) : Nat → Scan → List Byte × Scan
  | 0, sc => ([], sc)
  | n + 1, sc =>
    let r := readByte bits sc
    let rest := readBytes bits n r.scan
    (r.value :: rest.1, rest.2)

/-- Inside the printable range, both ends included (R205). -/
def printable (v : Byte) : Bool := decide (Config.printLo ≤ v.toNat) && decide (v.toNat ≤ Config.printHi)

/-- `Classify()` (R204). -/
def classify (bits : List Bool) : DecodeCode × Scan :=
  let f := findSync bits 0
  if !f.1 then (.noSync, f.2)
  else
    let h := readBytes bits Config.hdrBytes f.2
    if h.1.any (fun v => !printable v) then (.radio, h.2)
    else
      let z := readBytes bits Config.zeroBytes h.2
      if z.1.all (fun v => v == 0) then (.orion, z.2) else (.noHeader, z.2)

/-- `PAR_CLASSIFY` (R204): `DF.class` and `DF.attempt` stay 0. -/
def execParClassify (s : State) : Result :=
  let c := classify s.bs.bits
  let p := ParState.cleared c.2
  complete (.decode c.1) false 0 0 (storePar { p with df := { p.df with ctype := c.1 } } s)

/-! ### The body common to both families (R206, R208 to R215) -/

/-- Steps 7 and 8 (R215): the name, then the comparison. -/
def bodyVerdict (p : ParState) : DecodeCode × ParState :=
  let kind := if p.df.nameKind = .none then .checksum else p.df.nameKind
  let computed := checksum (p.pay.bytesBelow p.df.npay.toNat)
  (if p.df.ckRead = computed then .ok else .badCrc, { p with df := { p.df with nameKind := kind, ckCalc := computed } })

/-- Steps 5 and 6 (R214): the second marker and the checksum as recorded. -/
def bodyChecksum (wo : WordOrder) (bits : List Bool) (p : ParState) : DecodeCode × ParState :=
  let f := findSync bits (p.scan.pos + 1)
  if !f.1 then (.noSyncCrc, { p with scan := f.2 })
  else
    let r := readWord wo bits f.2
    if !r.ok then (.noCrc, { p with scan := r.scan })
    else bodyVerdict { p with scan := r.scan, df := { p.df with ckRead := r.value } }

/-- `PAY[DF.npay] <- v ; DF.npay <- DF.npay + 1` (R206, R221). -/
def ParState.storeByte (p : ParState) (v : Byte) : ParState :=
  { p with pay := p.pay.write p.df.npay.toNat v, df := { p.df with npay := p.df.npay + 1 } }

/-- Step 4 (R212, R213): `n` payload bytes, stopping at the first that is out of bounds. -/
def payloadLoop (bits : List Bool) : Nat → ParState → Bool × ParState
  | 0, p => (true, p)
  | n + 1, p =>
    let r := readByte bits p.scan
    let q := { p with scan := r.scan }
    if r.ok then payloadLoop bits n (q.storeByte r.value) else (false, q)

/-- Step 4, then the rest. -/
def bodyPayload (wo : WordOrder) (bits : List Bool) (len : Nat) (p : ParState) : DecodeCode × ParState :=
  let r := payloadLoop bits len p
  if !r.1 then (.wrongLength, r.2) else bodyChecksum wo bits r.2

/-- Step 3 (R209, R210), then the rest. -/
def bodyEnd (wo : WordOrder) (bits : List Bool) (p : ParState) : DecodeCode × ParState :=
  let r := readWord wo bits p.scan
  if !r.ok then (.noLength, { p with scan := r.scan })
  else
    let len : Int := (r.value.toNat : Int) - (p.df.base.toNat : Int) + 1
    let q := { p with
      scan := r.scan
      df := { p.df with endAddr := r.value.setWidth 32, len := BitVec.ofInt 32 len } }
    if len < 0 then (.negativeLength, q) else bodyPayload wo bits len.toNat q

/-- `Body()` (R206): step 2 (R208), then the rest. -/
def body (wo : WordOrder) (bits : List Bool) (p : ParState) : DecodeCode × ParState :=
  let r := readWord wo bits p.scan
  if !r.ok then (.noBase, { p with scan := r.scan })
  else bodyEnd wo bits { p with scan := r.scan, df := { p.df with base := r.value } }

/-! ### The attempts -/

/-- The radio attempt (R206, R207). -/
def radioAttempt (wo : WordOrder) (bits : List Bool) : DecodeCode × ParState :=
  let f := findSync bits 0
  if !f.1 then (.noSync, ParState.cleared f.2) else body wo bits (ParState.cleared f.2)

/-- `Sanitize(v)` (R217). -/
def sanitize (v : Byte) : Byte :=
  if !printable v || v == Config.chSlash || v == Config.chBackslash then Config.chQuestion else v

/-- Step 2 of the orion attempt (R217): `n` name bytes are left, stopping at the first that is out of bounds. -/
def nameLoop (bits : List Bool) : Nat → ParState → Bool × ParState
  | 0, p => (true, p)
  | n + 1, p =>
    let r := readByte bits p.scan
    let q := { p with scan := r.scan }
    if r.ok then
      nameLoop bits n { q with df := { q.df with name := q.df.name.setIfInBounds (Config.hdrBytes - (n + 1)) (sanitize r.value) } }
    else (false, q)

/-- Steps 3 and 4 of the orion attempt (R218, R219), then the body. -/
def orionZeros (wo : WordOrder) (bits : List Bool) (p : ParState) : DecodeCode × ParState :=
  let z := readBytes bits Config.zeroBytes p.scan
  if z.1.any (fun v => v != 0) then (.notOrion, { p with scan := z.2 })
  else body wo bits { p with scan := z.2.advance 8 }

/-- `OrionAttempt()` (R216). -/
def orionAttempt (wo : WordOrder) (bits : List Bool) : DecodeCode × ParState :=
  let f := findSync bits 0
  if !f.1 then (.noSync, ParState.cleared f.2)
  else
    let r := nameLoop bits Config.hdrBytes (ParState.cleared f.2)
    if !r.1 then (.noHeader, r.2)
    else orionZeros wo bits { r.2 with df := { r.2.df with nameKind := .header } }

/-- The byte loop of the raw capture (R221), `fuel` bounding the number of bytes. -/
def rawLoop (bits : List Bool) : Nat → ParState → ParState
  | 0, p => p
  | fuel + 1, p =>
    if p.scan.pos < bits.length then
      rawLoop bits fuel { p.storeByte (readByte bits p.scan).value with scan := p.scan.advance 8 }
    else p

/-- `RawAttempt()` (R221, R222) on a cleared `DF`. -/
def rawAttempt (bits : List Bool) : ParState :=
  let f := findSyncBit bits 0
  let p := if f.1 then rawLoop bits bits.length (ParState.cleared f.2) else ParState.cleared f.2
  { p with df := { p.df with base := 0, len := p.df.npay, endAddr := p.df.npay - 1 } }

/-! ### The commands -/

/-- `DF.class <- code ; DF.attempt <- code ; DF.save <- (code = ok)` (R206, R216, R226). -/
def ParState.conclude (p : ParState) (code : DecodeCode) : ParState :=
  { p with df := { p.df with cls := code, attempt := code, save := code == .ok } }

/-- The response of `PAR_RADIO` and `PAR_ORION` (R206, R216). -/
def completeAttempt (r : DecodeCode × ParState) (s : State) : Result :=
  let p := r.2.conclude r.1
  complete (.decode p.df.cls) p.df.save 0 p.df.npay (storePar p s)

/-- `PAR_RADIO` (R206). -/
def execParRadio (s : State) : Result := completeAttempt (radioAttempt s.wordOrder s.bs.bits) s

/-- `PAR_ORION` (R216). -/
def execParOrion (s : State) : Result := completeAttempt (orionAttempt s.wordOrder s.bs.bits) s

/-- `PAR_RAW` (R221). -/
def execParRaw (s : State) : Result := completeAttempt (.raw, rawAttempt s.bs.bits) s

/-- The structured attempt the policy makes for a classification, or the classification's own code (R224). -/
def structuredAttempt (wo : WordOrder) (bits : List Bool) (c : DecodeCode × Scan) : DecodeCode × ParState :=
  match c.1 with
  | .radio => radioAttempt wo bits
  | .orion => orionAttempt wo bits
  | code => (code, ParState.cleared c.2)

/-- The policy (R224, R225): `ok` and `bad_crc` stand, every other code falls back to the raw capture. -/
def autoAttempt (wo : WordOrder) (bits : List Bool) : ParState :=
  let c := classify bits
  let a := structuredAttempt wo bits c
  let r := if a.1 = .ok ∨ a.1 = .badCrc then a else (.raw, rawAttempt bits)
  { r.2 with df := { r.2.df with cls := r.1, attempt := a.1, ctype := c.1, save := r.1 == .ok } }

/-- `PAR_AUTO` (R224): `aux` holds `DF.ctype` and `DF.attempt`. -/
def execParAuto (s : State) : Result :=
  let p := autoAttempt s.wordOrder s.bs.bits
  complete (.decode p.df.cls) p.df.save (p.df.ctype.code ++ p.df.attempt.code) p.df.npay (storePar p s)

end Sys2Proof.Machine
end

