-- ==== Sys2Proof/Machine/Segmenter.lean ====
section
/-! DEFINITION. Unit SEG (spec/40_segmenter.md): `SEG_RESET`, `SEG_ACC`, `SEG_SAMPLE`, `SEG_FLUSH`. -/

namespace Sys2Proof.Machine

/-- `Smooth(cur_prev, x)` (R116): exact weighted sum, truncated toward zero once. R29 keeps the result in a sample. -/
def smooth (curPrev x : Int) : Int := (Config.smoothPrev * curPrev + Config.smoothNew * x).tdiv Config.smoothDen

/-- The sample of a frame that the configuration selects (R111). -/
def State.frameSample (s : State) (l r : Sample) : Int :=
  selectSample s.cfg.channel (sampleOperand s.sizes l) (sampleOperand s.sizes r)

/-- A response that gives a duration when one is emitted (R117, R120). -/
def completeEmit (emit : Option Nat) (s : State) : Result :=
  match emit with
  | none => complete .done false 0 0 s
  | some d => complete .done true 0 (BitVec.ofNat 32 d) s

/-- `SEG_RESET` (R112). -/
def execSegReset (s : State) : Result := complete .done false 0 0 { s with seg := Seg.reset }

/-- `SEG_ACC l, r` (R113, R115). -/
def execSegAcc (l r : Sample) (s : State) : Result :=
  if s.seg.isOpen then refuse .state s
  else if countFull s.sizes.cntW s.seg.n then refuse .statOvf s
  else
    let g : Seg := { s.seg with
      n := s.seg.n + 1
      sum := s.seg.sum + s.frameSample l r }
    complete .done false 0 (BitVec.ofNat 32 g.n) { s with seg := g }

/-- `SEG_SAMPLE l, r` (R117, R118). -/
def execSegSample (l r : Sample) (s : State) : Result :=
  if s.seg.n = 0 then refuse .state s
  else
    let new := smooth s.seg.cur (s.frameSample l r)
    if !s.seg.isOpen then
      completeEmit none { s with seg := { s.seg with isOpen := true, run := 1, cur := new } }
    else if s.seg.above new != s.seg.above s.seg.cur then
      completeEmit (some s.seg.run) { s with seg := { s.seg with run := 1, cur := new } }
    else if countFull s.sizes.durW s.seg.run then refuse .statOvf s
    else completeEmit none { s with seg := { s.seg with run := s.seg.run + 1, cur := new } }

/-- `SEG_FLUSH` (R120): `SEG.n` and `SEG.sum` are kept. -/
def execSegFlush (s : State) : Result :=
  let emit := if s.seg.isOpen then some s.seg.run else none
  completeEmit emit { s with seg := { s.seg with isOpen := false, run := 0, cur := 0 } }

end Sys2Proof.Machine
end

