-- ==== Sys2Proof/Machine/System.lean ====
section
/-! DEFINITION. Unit SYS (spec/44_system.md): `RESET`, `RDREG`, `WRREG`, `RDHIST`, `RDPAY`. -/

namespace Sys2Proof.Machine

/-- `RESET` (R241): every register takes its reset value (R291). The parameters are no state and stay (R21, R291; log entries 1
and 3); so do the host's later commands (log entry 2). -/
def execReset (s : State) : Result :=
  complete .done false 0 0 { State.reset with wordOrder := s.wordOrder, sizes := s.sizes, cmds := s.cmds }

/-- Part `k` of a value split into 32-bit parts, part 0 the least significant (R49); a signed value in two's complement. -/
def part (v : Int) (k : Nat) : Reg32 := BitVec.ofInt 32 (v / 2 ^ (32 * k))

/-- The content of a register (R48, R49). The parts are those R49 numbers; the spec leaves the numbering of further parts, which
sizes above the defaults would need, to the model, and the model adds none (log entry 3). -/
def regValue (s : State) : Reg → Reg32
  | .cfgChannel => s.cfg.channel.code.setWidth 32
  | .cfgDeltaPct => s.cfg.deltaPct.setWidth 32
  | .cfgToneLen => part s.cfg.toneLen 0
  | .status => statusWord s
  | .bsLen => s.bs.lenReg
  | .bsCursor => s.bs.cursor.code s.sizes.bsCap
  | .sCount => part s.stS.count 0
  | .sSum0 => part s.stS.sum 0
  | .sSum1 => part s.stS.sum 1
  | .sSq0 => part s.stS.sq 0
  | .sSq1 => part s.stS.sq 1
  | .sSq2 => part s.stS.sq 2
  | .sMin => part (if s.stS.count = 0 then 0 else s.stS.minVal.getD 0 : Nat) 0
  | .sMax => part (if s.stS.count = 0 then 0 else s.stS.maxVal.getD 0 : Nat) 0
  | .lCount => part s.stL.count 0
  | .lSum0 => part s.stL.sum 0
  | .lSum1 => part s.stL.sum 1
  | .lSq0 => part s.stL.sq 0
  | .lSq1 => part s.stL.sq 1
  | .lSq2 => part s.stL.sq 2
  | .lMin => part (if s.stL.count = 0 then 0 else s.stL.minVal.getD 0 : Nat) 0
  | .lMax => part (if s.stL.count = 0 then 0 else s.stL.maxVal.getD 0 : Nat) 0
  | .segN => part s.seg.n 0
  | .segSum0 => part s.seg.sum 0
  | .segSum1 => part s.seg.sum 1
  | .segCur => part s.seg.cur 0
  | .segRun => part s.seg.run 0
  | .dfClass => (0 : BitVec 8) ++ s.df.ctype.code ++ s.df.attempt.code ++ s.df.cls.code
  | .dfBase => s.df.base.setWidth 32
  | .dfEnd => s.df.endAddr
  | .dfLen => s.df.len
  | .dfNpay => s.df.npay
  | .dfCk => s.df.ckRead ++ s.df.ckCalc
  | .dfName0 => s.df.name[0] ++ s.df.name[1] ++ s.df.name[2] ++ s.df.name[3]
  | .dfName1 => s.df.name[4] ++ s.df.name[5] ++ s.df.name[6] ++ s.df.name[7]
  | .dfFlags => (0 : BitVec 29) ++ s.df.nameKind.code ++ BitVec.ofBool s.df.save

/-- `RDREG reg` (R243). -/
def execRdreg (reg : BitVec 8) (s : State) : Result :=
  match regOfNumber reg with
  | none => refuse .arg s
  | some r => complete .done false 0 (regValue s r) s

/-- The configuration after a write of `value` to register `reg` (R245); `none` where the write is refused (R246). -/
def writeCfg (z : Sizes) (c : Cfg) (reg : BitVec 8) (value : BitVec 32) : Option Cfg :=
  match reg.toNat with
  | 0x00 => (channelOfValue value).map (fun ch => { c with channel := ch })
  | 0x01 => if 1 ≤ value.toNat ∧ value.toNat ≤ 99 then some { c with deltaPct := value.setWidth 7 } else none
  | 0x02 => if 1 ≤ value.toNat ∧ value.toNat ≤ 2 ^ z.cntW - 1 then some { c with toneLen := value.toNat } else none
  | _ => none

/-- `WRREG reg, value` (R245, R246). -/
def execWrreg (reg : BitVec 8) (value : BitVec 32) (s : State) : Result :=
  match writeCfg s.sizes s.cfg reg value with
  | none => refuse .arg s
  | some c => complete .done false 0 value { s with cfg := c }

/-- `RDHIST class, bin` (R248). -/
def execRdhist (cls : BitVec 8) (bin : BitVec 32) (s : State) : Result :=
  match statsOfClass s cls with
  | none => refuse .arg s
  | some st =>
    if bin.toNat < s.sizes.histBins then complete .done false 0 (part (st.hist.read bin.toNat) 0) s else refuse .arg s

/-- `RDPAY index` (R250). Where `PAY` holds no value below `DF.npay` (no reachable state) the read stops (log entry 4). -/
def execRdpay (index : BitVec 32) (s : State) : Result :=
  if s.df.npay.toNat ≤ index.toNat then refuse .arg s
  else
    match s.pay.read index.toNat with
    | none => .fault .payloadUnwritten
    | some v => complete .done false 0 (v.setWidth 32) s

end Sys2Proof.Machine
end

