-- ==== Sys2Proof/Machine/Dispatch.lean ====
section
/-! DEFINITION. One arm per constructor of `Instr`, each one direct call of its meaning. -/

namespace Sys2Proof.Machine

def exec (i : Instr) (s : State) : Host.Outcome State Fault Refusal :=
  match i with
  | .reset => Sys2Proof.Machine.execReset s
  | .rdreg reg => Sys2Proof.Machine.execRdreg reg s
  | .wrreg reg value => Sys2Proof.Machine.execWrreg reg value s
  | .rdhist cls bin => Sys2Proof.Machine.execRdhist cls bin s
  | .rdpay index => Sys2Proof.Machine.execRdpay index s
  | .segReset => Sys2Proof.Machine.execSegReset s
  | .segAcc l r => Sys2Proof.Machine.execSegAcc l r s
  | .segSample l r => Sys2Proof.Machine.execSegSample l r s
  | .segFlush => Sys2Proof.Machine.execSegFlush s
  | .demRearm => Sys2Proof.Machine.execDemRearm s
  | .pushDur d => Sys2Proof.Machine.execPushDur d s
  | .bsReset => Sys2Proof.Machine.execBsReset s
  | .bsOffset n => Sys2Proof.Machine.execBsOffset n s
  | .bsHex w => Sys2Proof.Machine.execBsHex w s
  | .bsFind w target mask => Sys2Proof.Machine.execBsFind w target mask s
  | .bsFindSync => Sys2Proof.Machine.execBsFindSync s
  | .bsTrim => Sys2Proof.Machine.execBsTrim s
  | .bsAppend w v => Sys2Proof.Machine.execBsAppend w v s
  | .parClassify => Sys2Proof.Machine.execParClassify s
  | .parRadio => Sys2Proof.Machine.execParRadio s
  | .parOrion => Sys2Proof.Machine.execParOrion s
  | .parRaw => Sys2Proof.Machine.execParRaw s
  | .parAuto => Sys2Proof.Machine.execParAuto s

end Sys2Proof.Machine
end

