-- ==== Sys2Proof/Machine/Step.lean ====
section
/-! DEFINITION. One step: the block takes the next command the host gives and carries it out (spec/00_scope.md R16). Without a
command it waits (spec/60_exceptions.md R278, spec/70_reset_and_hazards.md R292; log entry 2). -/

namespace Sys2Proof.Machine

/-- One step. A reserved encoding is refused with `F_OP` (R91). -/
def step (s : State) : Host.Outcome State Fault Refusal :=
  match takeCommand s with
  | none => .next s
  | some (cw, s') =>
    match decode cw with
    | .ok i => exec i s'
    | .reserved _ => refuse .op s'

/-- `s` with the command word of the `nbits` bits of `w` as the next command the host gives (log entry 2). -/
def State.withFetchWord (s : State) (nbits w : Nat) : State := { s with cmds := wordOfBits nbits w :: s.cmds }

end Sys2Proof.Machine
end

