-- ==== Sys2Proof/Safety.lean ====
section
/-! DEFINITION. What counts as a legal state and a safe run, in the terms claims use. `State.Inv` says of a state what the spec says
of every state a run reaches; the statements about every state use it as a premise where a state no run reaches would
break them. -/

namespace Sys2Proof.Machine

/-! ### The legal state -/

/-- `x` is a signed value of `w` bits. -/
abbrev fitsSigned (w : Nat) (x : Int) : Prop := -(2 ^ (w - 1) : Int) ≤ x ∧ x < (2 ^ (w - 1) : Int)

/-- The configuration registers hold legal values (spec/10_state.md R24, R25; R23 is in the type). The reset value 32 of
`CFG.tone_len` stands under every CNT_W (R25, log entry 3). -/
structure Cfg.Inv (z : Sizes) (c : Cfg) : Prop where
  delta : 1 ≤ c.deltaPct.toNat ∧ c.deltaPct.toNat ≤ 99
  tone : 1 ≤ c.toneLen ∧ (c.toneLen < 2 ^ z.cntW ∨ c.toneLen = 32)

/-- The segmenter registers fit their widths; a run is open only over a mean and holds a sample, no run leaves nothing behind, and
the sum is that of `n` samples (R26 to R29, spec/40_segmenter.md R115, R117, R120). -/
structure Seg.Inv (z : Sizes) (g : Seg) : Prop where
  opened : g.isOpen = true → g.n ≠ 0 ∧ g.run ≠ 0
  closed : g.isOpen = false → g.run = 0 ∧ g.cur = 0
  n : g.n < 2 ^ z.cntW
  run : g.run < 2 ^ z.durW
  cur : fitsSigned z.sampleW g.cur
  sumLow : -(2 ^ (z.sampleW - 1) * (g.n : Int)) ≤ g.sum
  sumHigh : g.sum ≤ (2 ^ (z.sampleW - 1) - 1) * (g.n : Int)

/-- The sum of all bins of a histogram. -/
def Hist.total (h : Hist) : Nat := (h.map Prod.snd).sum

/-- A statistics aggregate: the count fits its width, the histogram is in canonical form, its bins in range and summing to the
count (R35), `min` and `max` hold a value, of DUR_W bits, exactly while the count is not 0 (R36), and the sums are those of
`count` durations between them (R34). -/
structure Stats.Inv (z : Sizes) (st : Stats) : Prop where
  count : st.count < 2 ^ z.cntW
  hist : Hist.wf st.hist
  bins : ∀ c ∈ st.hist, c.1 < z.histBins
  total : st.hist.total = st.count
  empty : st.count = 0 → st = Stats.empty
  range : st.count ≠ 0 → ∃ lo hi, st.minVal = some lo ∧ st.maxVal = some hi ∧ lo ≤ hi ∧ hi < 2 ^ z.durW ∧
    lo * st.count ≤ st.sum ∧ st.sum ≤ hi * st.count ∧ st.sq ≤ hi * hi * st.count

/-- The demodulator: the machine and the current bit stand at their start values while the tone is calibrated, nothing is
long before calibration completes, and calibration completes only over short pulses (R31 to R33, R136, R140). -/
structure State.DemInv (s : State) : Prop where
  calib : s.dem.phase = .calib → s.dem.fsm = .unknown ∧ s.dem.curBit = false ∧ s.stL = Stats.empty
  tone : s.dem.phase ≠ .calib → s.stS.count ≠ 0

/-- The decode result: `PAY` holds a value exactly below `DF.npay`, within its capacity, and `DF.save` says `ok`
(R42, R43, spec/43_parser.md R226). -/
structure State.ParInv (s : State) : Prop where
  addresses : s.pay.map Prod.fst = List.range s.df.npay.toNat
  capacity : s.df.npay.toNat ≤ s.sizes.payCap
  save : s.df.save = true ↔ s.df.cls = .ok

/-- The legal states. -/
structure State.Inv (s : State) : Prop where
  sizes : s.sizes.Legal
  cfg : s.cfg.Inv s.sizes
  seg : s.seg.Inv s.sizes
  dem : s.DemInv
  short : s.stS.Inv s.sizes
  long : s.stL.Inv s.sizes
  bits : s.bs.bits.length ≤ s.sizes.bsCap
  payload : Memory.wf s.pay
  par : s.ParInv
  fault : s.sysFault.toNat < 32

/-- A run of `k` steps ends in a state, by no fault and no refusal. -/
def State.RunsSafely (s : State) (k : Nat) : Prop := ∃ t, Sys2Proof.core.run k s = .next t

/-! ### Terms of the statements -/

/-- The response word of spec/30_encoding.md R88, field by field: `st`, `b`, `inv`, six zero bits, `aux`, `val`. -/
def answer (st : BitVec 8) (b inv : Bool) (aux : BitVec 16) (val : BitVec 32) : Option Word64 :=
  some (BitVec.ofNat 64 (st.toNat * 2 ^ 56 + b.toNat * 2 ^ 55 + inv.toNat * 2 ^ 54 + aux.toNat * 2 ^ 32 + val.toNat))

/-- The `st` byte of the response given last; 0, which no response holds, where none was given. -/
def State.statusByte (s : State) : BitVec 8 := (s.resp.getD 0).extractLsb' 56 8

/-- The Boolean result of the response given last. -/
def State.resultBit (s : State) : Bool := (s.resp.getD 0).getLsbD 55

/-- The value result of the response given last. -/
def State.resultVal (s : State) : Nat := ((s.resp.getD 0).extractLsb' 0 32).toNat

/-- `s` after a command is refused with the fault of bit `bit` and code `code` (spec/60_exceptions.md R268). -/
def State.refusedWith (s : State) (bit code : BitVec 8) : State :=
  { s with sysFault := s.sysFault ||| bit, resp := answer code false s.bs.inv 0 0 }

/-- `BS.cursor` as the integer of spec/10_state.md R39. -/
def Cursor.toInt : Cursor → Int
  | .beforeStart => -1
  | .onBit c => c

/-- The bits of a byte, most significant first (spec/20_memory.md R62). -/
def byteBits (b : Byte) : List Bool := bitsOf b.toNat 8

/-- A stream written as its bytes, first byte first, each most significant bit first (spec/20_memory.md R62). -/
def streamOf (bytes : List Byte) : List Bool := bytes.flatMap byteBits

/-- The two bytes of a 16-bit tape field in the order they are recorded under a WORD_ORDER (spec/43_parser.md R201). -/
def wordBytes (wo : WordOrder) (v : Word16) : List Byte :=
  match wo with
  | .firstLow => [v.extractLsb' 0 8, v.extractLsb' 8 8]
  | .firstHigh => [v.extractLsb' 8 8, v.extractLsb' 0 8]

/-- The payload memory that holds a sequence of bytes from address `a` on and nothing else. -/
def payloadFrom (a : Nat) : List Byte → Memory
  | [] => []
  | b :: bytes => (a, b) :: payloadFrom (a + 1) bytes

end Sys2Proof.Machine
end

