-- ==== Sys2Proof/Certificates/Slice0/Obligations.lean ====
section
/-! DEFINITION. The statements for the provers. A result statement is an equation `exec i s = .next t`, so it says the new
value, the frame (every field not named keeps its value), the response word and that the command completes. -/

open Sys2Proof Sys2Proof.Machine

/-! ## Encoding -/

/-- Decoding an encoded instruction gives it back, every operand at every value of its field (R85 to R90). -/
def Obligations.DecodeOfEncode : Prop := ∀ i : Instr, decode (encode i) = .ok i

/-- A word that decodes is the encoding of what it decodes to: no bit of it is dropped (R85 to R90). -/
def Obligations.EncodeOfDecode : Prop := ∀ (cw : Word64) (i : Instr), decode cw = .ok i → encode i = cw

/-- R90: a word decodes exactly when a row of the opcode table selects it, to an instruction of that row's mnemonic, and the
rows do not overlap. -/
def Obligations.DecodeFollowsOpcodeTable : Prop :=
  ∀ cw : Word64,
    ((∃ i, decode cw = .ok i) ↔ ∃ row ∈ opcodeRows, cw &&& row.mask = row.pattern)
    ∧ (∀ i, decode cw = .ok i → ∃ row ∈ opcodeRows, cw &&& row.mask = row.pattern ∧ row.mnemonic = i.mnemonic)
    ∧ ∀ row ∈ opcodeRows, ∀ row' ∈ opcodeRows,
        cw &&& row.mask = row.pattern → cw &&& row'.mask = row'.pattern → row = row'

/-- The opcodes of format N, of formats I and F, of format W, of formats WI and WP, of format WV (R86). -/
def opcodesN : List Nat := [0x01, 0x10, 0x13, 0x20, 0x30, 0x34, 0x35, 0x40, 0x41, 0x42, 0x43, 0x44]
def opcodesIF : List Nat := [0x05, 0x21, 0x31, 0x11, 0x12]
def opcodesW : List Nat := [0x02, 0x32]
def opcodesWIWP : List Nat := [0x03, 0x04, 0x33]
def opcodesWV : List Nat := [0x36]

/-- R91 in arithmetic: the opcode is not in the map, or a bit the format requires to be 0 is 1. -/
def reservedWord (cw : Word64) : Prop :=
  let op := cw.toNat / 2 ^ 56
  let w := cw.toNat / 2 ^ 48 % 2 ^ 8
  let z := cw.toNat / 2 ^ 32 % 2 ^ 16
  let imm := cw.toNat % 2 ^ 32
  op ∉ opcodesN ++ opcodesIF ++ opcodesW ++ opcodesWIWP ++ opcodesWV
  ∨ z ≠ 0
  ∨ (op ∈ opcodesN ++ opcodesIF ∧ w ≠ 0)
  ∨ (op ∈ opcodesN ++ opcodesW ∧ imm ≠ 0)
  ∨ (op ∈ opcodesWV ∧ imm / 2 ^ 16 ≠ 0)

/-- R91: a reserved encoding is refused with `F_OP` and changes nothing else; every other word is carried out. -/
def Obligations.ReservedEncodingsRefused : Prop :=
  ∀ (s : State) (cw : Word64) (rest : List Word64), s.cmds = cw :: rest →
    (reservedWord cw → step s = .next (State.refusedWith { s with cmds := rest } 0x01 0xE0))
    ∧ (¬ reservedWord cw → ∃ i, decode cw = .ok i ∧ step s = exec i { s with cmds := rest })

/-- R101: the worked encodings, in both directions. -/
def Obligations.WorkedEncodings : Prop :=
  ∀ p ∈ [((0x0100000000000000 : Word64), Instr.reset),
      (0x0301000000000028, .wrreg 0x01 40),
      (0x0208000000000000, .rdreg 0x08),
      (0x12000000FC1800FA, .segSample (BitVec.ofInt 16 (-1000)) 250),
      (0x210000000000000A, .pushDur 10),
      (0x3100000000000008, .bsOffset 8),
      (0x3210000000000000, .bsHex 16),
      (0x3308000000E600FF, .bsFind 8 0xE6 0xFF),
      (0x331000000080FF80, .bsFind 16 0x0080 0xFF80),
      (0x36080000000000E6, .bsAppend 8 0xE6),
      (0x4400000000000000, .parAuto)],
    decode p.1 = .ok p.2 ∧ encode p.2 = p.1

/-- The word of an instruction by its fields (R85): `op`, `w`, the 16 zero bits of `z`, `imm`. -/
def encodesAs (i : Instr) (op w imm : Nat) : Prop := (encode i).toNat = op * 2 ^ 56 + w * 2 ^ 48 + imm

/-! ## The step -/

/-- When the next command word decodes, one step takes that word and carries the instruction out (R16, R90). Without a command
the block waits and holds its whole state (R278, R292; that waiting is a step is log entry 2). -/
def Obligations.StepRunsDecoded : Prop :=
  (∀ (s : State) (cw : Word64) (rest : List Word64) (i : Instr),
    s.cmds = cw :: rest → decode cw = .ok i → step s = exec i { s with cmds := rest })
  ∧ ∀ s : State, s.cmds = [] → step s = .next s

/-! ## The whole machine -/

/-- Every step keeps the legal states. -/
def Obligations.EveryStepKeepsInvariant : Prop := ∀ s t : State, s.Inv → step s = .next t → t.Inv

/-- The state after reset is legal. -/
def Obligations.ResetStateIsLegal : Prop := State.reset.Inv

/-- From a legal state every step answers a next state: no fault and no refusal stops the machine. The model's one stop, in
states no run reaches, is `RDPAY` where `PAY` holds no value below `DF.npay` (the model's choice, log entry 4). -/
def Obligations.LegalStatesNeverStop : Prop :=
  (∀ s : State, s.Inv → ∃ t, step s = .next t)
  ∧ ∀ (s : State) (i : Instr), (¬ ∃ t, exec i s = .next t) ↔
      ∃ index, i = .rdpay index ∧ index.toNat < s.df.npay.toNat ∧ s.pay.read index.toNat = none

/-- The commands no fault can refuse (R269). -/
def alwaysCompletes : Instr → Bool
  | .reset | .segReset | .segFlush | .demRearm | .bsReset | .bsOffset _ | .bsFindSync | .bsTrim
  | .parClassify | .parRadio | .parOrion | .parRaw | .parAuto => true
  | _ => false

/-- R269: these commands complete from every state, with a response that is no fault code, and leave `SYS.fault` as it was, `RESET`
at 0. -/
def Obligations.UnrefusableCommandsComplete : Prop :=
  ∀ (i : Instr) (s : State), alwaysCompletes i = true →
    ∃ t, exec i s = .next t ∧ t.statusByte.toNat < 0xE0 ∧ t.sysFault = if i = .reset then 0 else s.sysFault

/-- Bit of `SYS.fault` and code of each fault (R269). -/
def faultTable : List (BitVec 8 × BitVec 8) :=
  [(0x01, 0xE0), (0x02, 0xE1), (0x04, 0xE2), (0x08, 0xE3), (0x10, 0xE4)]

/-- R76, R268: a step whose response is a fault code changed nothing but that fault's sticky bit and the response. -/
def Obligations.RefusalChangesOnlyItsBit : Prop :=
  ∀ (s t : State) (cw : Word64) (rest : List Word64), s.cmds = cw :: rest → step s = .next t →
    ∀ p ∈ faultTable, t.statusByte = p.2 → t = State.refusedWith { s with cmds := rest } p.1 p.2

/-- R47: `SYS.fault` is sticky. A step sets the bit of the fault it answers, sets no other, and only `RESET` clears one. -/
def Obligations.FaultBitsAreSticky : Prop :=
  ∀ (s t : State) (cw : Word64) (rest : List Word64), s.cmds = cw :: rest → step s = .next t →
    (decode cw = .ok .reset ∧ t.sysFault = 0)
    ∨ (decode cw ≠ .ok .reset ∧ t.statusByte.toNat < 0xE0 ∧ t.sysFault = s.sysFault)
    ∨ (decode cw ≠ .ok .reset ∧ ∃ p ∈ faultTable, t.statusByte = p.2 ∧ t.sysFault = s.sysFault ||| p.1)

/-- The `st` values of each command (R280). -/
def statusValues : Instr → List (BitVec 8)
  | .reset | .segReset | .segFlush | .demRearm | .bsReset | .bsOffset _ | .bsFindSync | .bsTrim => [0x80]
  | .rdreg _ | .wrreg _ _ | .rdhist _ _ | .rdpay _ | .bsFind _ _ _ => [0x80, 0xE1]
  | .bsHex _ => [0x80, 0xE1, 0xE2]
  | .bsAppend _ _ => [0x80, 0xE1, 0xE3]
  | .segAcc _ _ | .segSample _ _ => [0x80, 0xE2, 0xE4]
  | .pushDur _ => [0x30, 0x31, 0x32, 0x33, 0x34, 0x35, 0x36, 0xE2, 0xE3, 0xE4]
  | .parClassify => [0x10, 0x17, 0x20, 0x21]
  | .parRadio => [0x01, 0x02, 0x10, 0x11, 0x12, 0x13, 0x14, 0x15, 0x16]
  | .parOrion => [0x01, 0x02, 0x10, 0x11, 0x12, 0x13, 0x14, 0x15, 0x16, 0x17, 0x18]
  | .parRaw => [0x03]
  | .parAuto => [0x01, 0x02, 0x03]

/-- R280: the `st` of every response is one the command can give, and 0xE0 for a word that decodes to no command. -/
def Obligations.StatusValuesOfCommands : Prop :=
  ∀ (s t : State) (cw : Word64) (rest : List Word64), s.cmds = cw :: rest → step s = .next t →
    match decode cw with
    | .ok i => t.statusByte ∈ statusValues i
    | .reserved _ => t.statusByte = 0xE0

/-- R70: `RDREG`, `RDHIST`, `RDPAY` and `BS_HEX` change nothing but the response, and a refused one its fault bit. -/
def Obligations.ReadsChangeNothing : Prop :=
  ∀ (s t : State) (i : Instr),
    ((∃ r, i = .rdreg r) ∨ (∃ c b, i = .rdhist c b) ∨ (∃ k, i = .rdpay k) ∨ ∃ w, i = .bsHex w) →
    exec i s = .next t →
    t = { s with resp := t.resp, sysFault := t.sysFault } ∧ (t.statusByte = 0x80 → t.sysFault = s.sysFault)

/-- R66: the Bitstream is append-only. No command but `RESET`, `DEM_REARM` and `BS_TRIM` changes or drops a bit already held,
and no command but `PUSH_DUR` and `BS_APPEND` adds one. -/
def Obligations.BitMemoryIsAppendOnly : Prop :=
  ∀ (s t : State) (i : Instr), exec i s = .next t →
    (i ≠ .reset → i ≠ .demRearm → i ≠ .bsTrim → s.bs.bits <+: t.bs.bits)
    ∧ (i = .bsTrim → t.bs.bits <:+ s.bs.bits)
    ∧ (i = .reset ∨ i = .demRearm → t.bs.bits = [])
    ∧ ((∀ d, i ≠ .pushDur d) → (∀ w v, i ≠ .bsAppend w v) → t.bs.bits.length ≤ s.bs.bits.length)

/-- The commands that begin a new scan (R41): reset, a new Bitstream, `ResetCursor` and `Trim`. -/
def beginsScan : Instr → Bool
  | .reset | .demRearm | .bsReset | .bsTrim | .parClassify | .parRadio | .parOrion | .parRaw | .parAuto => true
  | _ => false

/-- R41, R188: within one scan the cursor only grows. -/
def Obligations.CursorOnlyGrowsWithinScan : Prop :=
  ∀ (s t : State) (i : Instr), beginsScan i = false → exec i s = .next t →
    s.bs.cursor.toInt ≤ t.bs.cursor.toInt

/-- The units (R19). -/
inductive BlockUnit where
  | sys
  | seg
  | dem
  | bs
  | par
deriving DecidableEq, Repr

/-- The unit of a command (R89). -/
def unitOf : Instr → BlockUnit
  | .reset | .rdreg _ | .wrreg _ _ | .rdhist _ _ | .rdpay _ => .sys
  | .segReset | .segAcc _ _ | .segSample _ _ | .segFlush => .seg
  | .demRearm | .pushDur _ => .dem
  | .bsReset | .bsOffset _ | .bsHex _ | .bsFind _ _ _ | .bsFindSync | .bsTrim | .bsAppend _ _ => .bs
  | .parClassify | .parRadio | .parOrion | .parRaw | .parAuto => .par

/-- R22, R60, R293: each piece of state is written only by the commands of the unit that owns it (and `RESET`). No command changes
the instance's parameters (R291; that they stand in State is the model's choice, log entries 1 and 3). That every command,
`RESET` included, keeps the words the host has still to give is the model's choice (log entry 2), no rule of the spec. -/
def Obligations.OnlyOwnersWrite : Prop :=
  ∀ (s t : State) (i : Instr), exec i s = .next t →
    (i ≠ .reset → (∀ r v, i ≠ .wrreg r v) → t.cfg = s.cfg)
    ∧ (i ≠ .reset → unitOf i ≠ .seg → t.seg = s.seg)
    ∧ (i ≠ .reset → unitOf i ≠ .dem → t.dem = s.dem ∧ t.stS = s.stS ∧ t.stL = s.stL)
    ∧ (i ≠ .reset → unitOf i ≠ .par → t.df = s.df ∧ t.pay = s.pay)
    ∧ (i ≠ .reset → unitOf i = .sys ∨ unitOf i = .seg → t.bs = s.bs)
    ∧ (i ≠ .reset → unitOf i = .par → t.bs.bits = s.bs.bits)
    ∧ ((∃ d, i = .pushDur d) → t.bs.cursor = s.bs.cursor ∧ t.bs.inv = s.bs.inv)
    ∧ t.wordOrder = s.wordOrder ∧ t.sizes = s.sizes ∧ t.cmds = s.cmds

/-! ## SYS -/

/-- R241, R291: `RESET` gives every register its reset value from any state and answers `DONE`; the parameters stay (R291; log
entries 1 and 3). That the host's later commands stay too is the model's choice (log entry 2), no rule of the spec. -/
def Obligations.ResetRestoresEveryRegister : Prop :=
  encode .reset = 0x0100000000000000 ∧
  ∀ s : State, ∃ t, exec .reset s = .next t
    ∧ t.cfg.channel = .left ∧ t.cfg.deltaPct.toNat = 40 ∧ t.cfg.toneLen = 32
    ∧ t.seg.n = 0 ∧ t.seg.sum = 0 ∧ t.seg.cur = 0 ∧ t.seg.run = 0 ∧ t.seg.isOpen = false
    ∧ t.dem.phase = .calib ∧ t.dem.fsm = .unknown ∧ t.dem.curBit = false
    ∧ (∀ st ∈ [t.stS, t.stL], st.count = 0 ∧ st.sum = 0 ∧ st.sq = 0 ∧ st.minVal = none ∧ st.maxVal = none
        ∧ ∀ v, st.hist.read v = 0)
    ∧ t.bs.bits = [] ∧ t.bs.cursor = .beforeStart ∧ t.bs.inv = false
    ∧ t.df.cls = .none ∧ t.df.attempt = .none ∧ t.df.ctype = .none
    ∧ t.df.base = 0 ∧ t.df.endAddr = 0 ∧ t.df.len = 0 ∧ t.df.ckRead = 0 ∧ t.df.ckCalc = 0 ∧ t.df.npay = 0
    ∧ (∀ k : Fin 8, t.df.name[k] = 0) ∧ t.df.nameKind = .none ∧ t.df.save = false
    ∧ (∀ a, t.pay.read a = none) ∧ t.sysFault = 0
    ∧ t.resp = answer 0x80 false false 0 0 ∧ t.wordOrder = s.wordOrder ∧ t.sizes = s.sizes ∧ t.cmds = s.cmds

/-- `STATUS` bit by bit (R48). -/
def statusOf (s : State) : Nat :=
  (match s.dem.phase with | .calib => 0 | .decode => 1 | .lost => 2)
  + 4 * (match s.dem.fsm with | .unknown => 0 | .half => 1 | .full => 2 | .modulError => 3)
  + 16 * s.dem.curBit.toNat + 32 * s.bs.inv.toNat + 64 * s.seg.isOpen.toNat + 256 * s.sysFault.toNat

/-- The registers of an aggregate from its first number on (R49). -/
def statsRegisters (first : Nat) (st : Stats) : List (Nat × Int) :=
  [(first, st.count), (first + 1, st.sum), (first + 2, st.sum / 2 ^ 32),
   (first + 3, st.sq), (first + 4, st.sq / 2 ^ 32), (first + 5, st.sq / 2 ^ 64),
   (first + 6, if st.count = 0 then 0 else (st.minVal.getD 0 : Nat)),
   (first + 7, if st.count = 0 then 0 else (st.maxVal.getD 0 : Nat))]

/-- The configuration, `STATUS` and Bitstream registers (R49). -/
def systemRegisters (s : State) : List (Nat × Int) :=
  [(0x00, match s.cfg.channel with | .left => 0 | .right => 1 | .both => 2),
   (0x01, s.cfg.deltaPct.toNat), (0x02, s.cfg.toneLen),
   (0x08, statusOf s), (0x09, s.bs.bits.length),
   (0x0A, match s.bs.cursor with | .beforeStart => 0xFFFFFFFF | .onBit c => min c (s.sizes.bsCap + 1))]

/-- The segmenter registers (R49). -/
def segmenterRegisters (g : Seg) : List (Nat × Int) :=
  [(0x20, g.n), (0x21, g.sum), (0x22, g.sum / 2 ^ 32), (0x23, g.cur), (0x24, g.run)]

/-- The numbers of the decode outcome codes (R96). -/
def outcomeNumber : DecodeCode → BitVec 8
  | .none => 0x00
  | .ok => 0x01
  | .badCrc => 0x02
  | .raw => 0x03
  | .noSync => 0x10
  | .noBase => 0x11
  | .noLength => 0x12
  | .negativeLength => 0x13
  | .wrongLength => 0x14
  | .noSyncCrc => 0x15
  | .noCrc => 0x16
  | .noHeader => 0x17
  | .notOrion => 0x18
  | .radio => 0x20
  | .orion => 0x21

/-- The decode result registers (R49). -/
def resultRegisters (f : DataFile) : List (Nat × Int) :=
  [(0x30, (outcomeNumber f.cls).toNat + 2 ^ 8 * (outcomeNumber f.attempt).toNat + 2 ^ 16 * (outcomeNumber f.ctype).toNat),
   (0x31, f.base.toNat), (0x32, f.endAddr.toInt), (0x33, f.len.toInt), (0x34, f.npay.toNat),
   (0x35, 2 ^ 16 * f.ckRead.toNat + f.ckCalc.toNat),
   (0x36, 2 ^ 24 * f.name[0].toNat + 2 ^ 16 * f.name[1].toNat + 2 ^ 8 * f.name[2].toNat + f.name[3].toNat),
   (0x37, 2 ^ 24 * f.name[4].toNat + 2 ^ 16 * f.name[5].toNat + 2 ^ 8 * f.name[6].toNat + f.name[7].toNat),
   (0x38, f.save.toNat + 2 * (match f.nameKind with | .none => 0 | .checksum => 1 | .header => 2))]

/-- The register map of R49: number and content, the content as an integer (the command gives its 32 low bits, a signed one in two's
complement). -/
def registerMap (s : State) : List (Nat × Int) :=
  systemRegisters s ++ statsRegisters 0x10 s.stS ++ statsRegisters 0x18 s.stL ++ segmenterRegisters s.seg ++ resultRegisters s.df

/-- R243 with R48, R49 and the numbers of R96: `RDREG` answers the content of each of the 36 registers and changes
nothing; every other number is refused. Under sizes wider than the defaults R49 leaves the part count and the numbering to the model:
that only the parts R49 numbers are shown, and every further number is refused, is the model's choice (log entry 3). -/
def Obligations.RdregReadsRegisterMap : Prop :=
  (∀ reg : BitVec 8, encodesAs (.rdreg reg) 0x02 reg.toNat 0) ∧
  ∀ s : State,
    (∀ p ∈ registerMap s,
      exec (.rdreg (BitVec.ofNat 8 p.1)) s =
        .next { s with resp := answer 0x80 false s.bs.inv 0 (BitVec.ofInt 32 p.2) })
    ∧ ∀ reg : BitVec 8, reg.toNat ∉ (registerMap s).map Prod.fst → exec (.rdreg reg) s = .next (s.refusedWith 0x02 0xE1)

/-- R245, R246: `WRREG` writes each of the three configuration registers at every legal value, and refuses everything else. -/
def Obligations.WrregWritesConfiguration : Prop :=
  ∀ (s : State) (reg : BitVec 8) (v : BitVec 32),
    encodesAs (.wrreg reg v) 0x03 reg.toNat v.toNat ∧
    exec (.wrreg reg v) s = .next (
      if reg.toNat = 0 ∧ v.toNat ≤ 2 then
        { s with
          cfg := { s.cfg with channel := if v.toNat = 0 then .left else if v.toNat = 1 then .right else .both }
          resp := answer 0x80 false s.bs.inv 0 v }
      else if reg.toNat = 1 ∧ 1 ≤ v.toNat ∧ v.toNat ≤ 99 then
        { s with cfg := { s.cfg with deltaPct := BitVec.ofNat 7 v.toNat }, resp := answer 0x80 false s.bs.inv 0 v }
      else if reg.toNat = 2 ∧ 1 ≤ v.toNat ∧ v.toNat ≤ 2 ^ s.sizes.cntW - 1 then
        { s with cfg := { s.cfg with toneLen := v.toNat }, resp := answer 0x80 false s.bs.inv 0 v }
      else s.refusedWith 0x02 0xE1)

/-- R248: `RDHIST` answers the bin of the class; a class above 1 or a bin at or above HIST_BINS is refused. That `val` is
the low 32 bits of a bin where CNT_W is above 32 is the model's choice (log entry 3). -/
def Obligations.RdhistReadsBin : Prop :=
  ∀ (s : State) (cls : BitVec 8) (bin : BitVec 32),
    encodesAs (.rdhist cls bin) 0x04 cls.toNat bin.toNat ∧
    exec (.rdhist cls bin) s = .next (
      if cls.toNat ≤ 1 ∧ bin.toNat < s.sizes.histBins then
        { s with
          resp := answer 0x80 false s.bs.inv 0 (BitVec.ofNat 32 ((if cls.toNat = 0 then s.stS else s.stL).hist.read bin.toNat)) }
      else s.refusedWith 0x02 0xE1)

/-- R250: in a legal state `RDPAY` answers the payload byte below `DF.npay` and refuses every other index. -/
def Obligations.RdpayReadsPayload : Prop :=
  (∀ index : BitVec 32, encodesAs (.rdpay index) 0x05 0 index.toNat) ∧
  ∀ (s : State) (index : BitVec 32), s.Inv →
    (index.toNat < s.df.npay.toNat → ∃ v, s.pay.read index.toNat = some v ∧
      exec (.rdpay index) s = .next { s with resp := answer 0x80 false s.bs.inv 0 (BitVec.ofNat 32 v.toNat) })
    ∧ (s.df.npay.toNat ≤ index.toNat → exec (.rdpay index) s = .next (s.refusedWith 0x02 0xE1))

/-! ## SEG -/

/-- R112: `SEG_RESET` clears the segmenter in any state and touches no other unit. -/
def Obligations.SegResetClearsSegmenter : Prop :=
  encode .segReset = 0x1000000000000000 ∧
  ∀ s : State, exec .segReset s =
    .next { s with seg := { n := 0, sum := 0, cur := 0, run := 0, isOpen := false }, resp := answer 0x80 false s.bs.inv 0 0 }

/-- The sample `x` an operand field carries under SAMPLE_W = `w`: the field, signed, where `w` bits hold it; else some value of `w`
bits, which the spec does not state (log entry 3). -/
def IsSample (w : Nat) (field : Sample) (x : Int) : Prop := fitsSigned w x ∧ (fitsSigned w field.toInt → x = field.toInt)

/-- `Sel(l, r)` (R111): `/` of the integers rounds toward minus infinity here. -/
def selected (c : Channel) (l r : Int) : Int :=
  match c with
  | .left => l
  | .right => r
  | .both => (l + r) / 2

/-- R111, R113, R115: `SEG_ACC` adds the selected sample to an exact sum and counts it; it is refused while a run is open, and
at a full count. The sum keeps within SEG_SUM_W (R13). What sample a field of more than SAMPLE_W bits gives is the model's free
value, and that `val` is the low 32 bits of SEG.n where CNT_W is above 32 is its choice (log entry 3). -/
def Obligations.SegAccAddsSelectedSample : Prop :=
  ∀ (s : State) (l r : Sample), s.sizes.Legal →
    encodesAs (.segAcc l r) 0x11 0 (l.toNat * 2 ^ 16 + r.toNat)
    ∧ (s.seg.isOpen = true → exec (.segAcc l r) s = .next (s.refusedWith 0x04 0xE2))
    ∧ (s.seg.isOpen = false → s.seg.n = 2 ^ s.sizes.cntW - 1 → exec (.segAcc l r) s = .next (s.refusedWith 0x10 0xE4))
    ∧ (s.seg.isOpen = false → s.seg.n ≠ 2 ^ s.sizes.cntW - 1 → ∃ a b : Int,
        IsSample s.sizes.sampleW l a ∧ IsSample s.sizes.sampleW r b
        ∧ exec (.segAcc l r) s = .next { s with
            seg := { s.seg with n := s.seg.n + 1, sum := s.seg.sum + selected s.cfg.channel a b }
            resp := answer 0x80 false s.bs.inv 0 (BitVec.ofNat 32 (s.seg.n + 1)) }
        ∧ (s.seg.Inv s.sizes → fitsSigned s.sizes.segSumW (s.seg.sum + selected s.cfg.channel a b)))

/-- R116: the filter is the exact weighted sum truncated toward zero once, and the worked values hold. -/
def Obligations.SmoothTruncatesTowardZero : Prop :=
  (∀ cur x : Int, (0 ≤ 2 * cur + 3 * x → 5 * smooth cur x ≤ 2 * cur + 3 * x ∧ 2 * cur + 3 * x < 5 * smooth cur x + 5)
    ∧ (2 * cur + 3 * x ≤ 0 → 5 * smooth cur x - 5 < 2 * cur + 3 * x ∧ 2 * cur + 3 * x ≤ 5 * smooth cur x))
  ∧ ∀ p ∈ [((0 : Int), (-1 : Int), (0 : Int)), (0, -3, -1), (-4, -1, -2), (7, -2, 1), (5, 0, 2), (-5, 0, -2),
      (-1000, 1000, 200)], smooth p.1 p.2.1 = p.2.2

/-- The smoothed value after a sample (R116, R117). -/
def smoothed (s : State) (x : Int) : Int := (2 * s.seg.cur + 3 * x).tdiv 5

/-- A crossing (R114, R118): the new and the old smoothed value lie on different sides of the mean. -/
def crosses (s : State) (x : Int) : Prop :=
  ¬ (smoothed s x * s.seg.n > s.seg.sum ↔ s.seg.cur * s.seg.n > s.seg.sum)

/-- R117, R118: `SEG_SAMPLE` opens the first run without a duration, closes a run at a crossing and gives its length, lengthens
it otherwise; it is refused without a mean, and where the run cannot grow. What sample a field of more than SAMPLE_W bits gives is
the model's free value (log entry 3). -/
def Obligations.SegSampleEmitsAtCrossings : Prop :=
  ∀ (s : State) (l r : Sample), s.sizes.Legal →
    encodesAs (.segSample l r) 0x12 0 (l.toNat * 2 ^ 16 + r.toNat)
    ∧ (s.seg.n = 0 → exec (.segSample l r) s = .next (s.refusedWith 0x04 0xE2))
    ∧ (s.seg.n ≠ 0 → ∃ a b x : Int,
        IsSample s.sizes.sampleW l a ∧ IsSample s.sizes.sampleW r b ∧ x = selected s.cfg.channel a b
        ∧ (s.seg.isOpen = false → exec (.segSample l r) s = .next { s with
            seg := { s.seg with isOpen := true, run := 1, cur := smoothed s x }
            resp := answer 0x80 false s.bs.inv 0 0 })
        ∧ (s.seg.isOpen = true → crosses s x → exec (.segSample l r) s = .next { s with
            seg := { s.seg with run := 1, cur := smoothed s x }
            resp := answer 0x80 true s.bs.inv 0 (BitVec.ofNat 32 s.seg.run) })
        ∧ (s.seg.isOpen = true → ¬ crosses s x → s.seg.run ≠ 2 ^ s.sizes.durW - 1 →
            exec (.segSample l r) s = .next { s with
              seg := { s.seg with run := s.seg.run + 1, cur := smoothed s x }
              resp := answer 0x80 false s.bs.inv 0 0 })
        ∧ (s.seg.isOpen = true → ¬ crosses s x → s.seg.run = 2 ^ s.sizes.durW - 1 →
            exec (.segSample l r) s = .next (s.refusedWith 0x10 0xE4)))

/-- R120: `SEG_FLUSH` gives the open run's length, if a run is open, and keeps the mean. -/
def Obligations.SegFlushEmitsOpenRun : Prop :=
  encode .segFlush = 0x1300000000000000 ∧
  ∀ s : State, exec .segFlush s = .next { s with
    seg := { n := s.seg.n, sum := s.seg.sum, cur := 0, run := 0, isOpen := false }
    resp := answer 0x80 s.seg.isOpen s.bs.inv 0 (BitVec.ofNat 32 (if s.seg.isOpen then s.seg.run else 0)) }

/-- The duration a response gives, 0 for none (R117, R120). -/
def emitted (s : State) : Nat := if s.resultBit then s.resultVal else 0

/-- `SEG_SAMPLE` for every frame of a list, and the sum of the durations given. -/
def samplePass : List (Sample × Sample) → State → State × Nat
  | [], s => (s, 0)
  | (l, r) :: frames, s =>
    match exec (.segSample l r) s with
    | .next t => ((samplePass frames t).1, emitted t + (samplePass frames t).2)
    | _ => (s, 0)

/-- R119: the durations of a pass, the final flush included, sum to the number of its samples, and none of its commands is
refused. -/
def Obligations.DurationsSumToSamples : Prop :=
  ∀ (frames : List (Sample × Sample)) (s : State),
    s.sizes.durW ≤ 32 → s.seg.isOpen = false → s.seg.n ≠ 0 → frames.length < 2 ^ s.sizes.durW →
    ∃ t, exec .segFlush (samplePass frames s).1 = .next t
      ∧ (samplePass frames s).2 + emitted t = frames.length
      ∧ t.sysFault = s.sysFault

/-! ## DEM -/

/-- R137: `DEM_REARM` gives DEM, the statistics and the Bitstream their reset values in every phase and touches nothing else. -/
def Obligations.DemRearmBeginsCycle : Prop :=
  encode .demRearm = 0x2000000000000000 ∧
  ∀ s : State, exec .demRearm s = .next { s with
    dem := { phase := .calib, fsm := .unknown, curBit := false }
    stS := { count := 0, sum := 0, sq := 0, minVal := none, maxVal := none, hist := [] }
    stL := { count := 0, sum := 0, sq := 0, minVal := none, maxVal := none, hist := [] }
    bs := { bits := [], cursor := .beforeStart, inv := false }
    resp := answer 0x80 false false 0 0 }

/-- R152: in phase `LOST` every `PUSH_DUR` is refused with `F_STATE`, and after `DEM_REARM` a duration is taken again. -/
def Obligations.LostToneRefusesUntilRearm : Prop :=
  ∀ (s : State) (d : Duration), s.dem.phase = .lost →
    exec (.pushDur d) s = .next (s.refusedWith 0x04 0xE2)
    ∧ (s.cfg.Inv s.sizes → ∃ t u, exec .demRearm s = .next t ∧ exec (.pushDur d) t = .next u ∧ u.statusByte = 0x30)

/-- R131, R132, R133: the tolerance test is the open band around the exact mean, and false for every duration where the sum of
the short aggregate is 0. -/
def Obligations.ToleranceBandIsOpenAndExact : Prop :=
  ∀ (st : Stats) (delta : BitVec 7) (d : Nat) (width : Int), width = 1 ∨ width = 2 →
    (st.count ≠ 0 →
      (check st delta d width = true ↔
        ((width : ℚ) - delta.toNat / 100) * (st.sum / st.count) < d ∧
        (d : ℚ) < (width + delta.toNat / 100) * (st.sum / st.count)))
    ∧ (st.sum = 0 → check st delta d width = false)

/-- R135: `Fold` below a full count, for every legal size; the sums keep within SUM_W and SQ_W (R13). -/
def Obligations.FoldAddsOneDuration : Prop :=
  ∀ (z : Sizes) (st : Stats) (d : Nat), z.Legal → st.Inv z → st.count ≠ 2 ^ z.cntW - 1 → d < 2 ^ z.durW →
    (st.fold z.histBins d).count = st.count + 1
    ∧ (st.fold z.histBins d).sum = st.sum + d ∧ st.sum + d < 2 ^ z.sumW
    ∧ (st.fold z.histBins d).sq = st.sq + d * d ∧ st.sq + d * d < 2 ^ z.sqW
    ∧ (st.count = 0 → (st.fold z.histBins d).minVal = some d ∧ (st.fold z.histBins d).maxVal = some d)
    ∧ (∀ lo hi, st.count ≠ 0 → st.minVal = some lo → st.maxVal = some hi →
        (st.fold z.histBins d).minVal = some (min lo d) ∧ (st.fold z.histBins d).maxVal = some (max hi d))
    ∧ ∀ v, (st.fold z.histBins d).hist.read v = st.hist.read v + (if v = min d (z.histBins - 1) then 1 else 0)

/-- The duration `x` an operand field carries under DUR_W = `w`: the field where `w` bits hold it; else some value of `w` bits,
which the spec does not state (log entry 3). -/
def IsDuration (w : Nat) (field : Duration) (x : Nat) : Prop := x < 2 ^ w ∧ (field.toNat < 2 ^ w → x = field.toNat)

/-- R139, R140: in phase `CALIB` a duration inside the band is folded and any other restarts the calibration with it; calibration
completes when the count exceeds `CFG.tone_len`; only a fold into a full count is refused. What duration a field of more than
DUR_W bits gives is the model's free value (log entry 3). -/
def Obligations.CalibrationFoldsOrRestarts : Prop :=
  ∀ (s : State) (field : Duration), s.dem.phase = .calib → ∃ d, IsDuration s.sizes.durW field d ∧
    let inBand := check s.stS s.cfg.deltaPct d 1
    let st := (if inBand then s.stS else Stats.empty).fold s.sizes.histBins d
    let complete := s.cfg.toneLen < st.count
    (inBand = true → s.stS.count = 2 ^ s.sizes.cntW - 1 → exec (.pushDur field) s = .next (s.refusedWith 0x10 0xE4))
    ∧ (inBand = false ∨ s.stS.count ≠ 2 ^ s.sizes.cntW - 1 → exec (.pushDur field) s = .next { s with
        stS := st
        stL := if inBand then s.stL else Stats.empty
        dem := if complete then { phase := .decode, fsm := .unknown, curBit := s.dem.curBit } else s.dem
        resp := answer (if complete then 0x31 else 0x30) false s.bs.inv 0 (BitVec.ofNat 32 s.bs.bits.length) })

/-- `PUSH_DUR` for every duration of a list; a stop leaves the state where it stood. -/
def pushAll : List Duration → State → State
  | [], s => s
  | d :: ds, s =>
    match exec (.pushDur d) s with
    | .next t => pushAll ds t
    | _ => s

/-- R140's property: from empty statistics, identical non-zero durations complete calibration exactly when their count exceeds
`CFG.tone_len`, and durations each outside the band of the one before never complete it. -/
def Obligations.CalibrationConvergesExactly : Prop :=
  ∀ s : State, s.sizes.Legal → s.cfg.Inv s.sizes → s.dem.phase = .calib → s.stS = Stats.empty →
    (∀ (d : Duration) (k : Nat), d ≠ 0 → d.toNat < 2 ^ s.sizes.durW → k ≤ s.cfg.toneLen → k < 2 ^ s.sizes.cntW →
      (pushAll (List.replicate k d) s).dem.phase = .calib
      ∧ (pushAll (List.replicate k d) s).stS.count = k)
    ∧ (∀ d : Duration, d ≠ 0 → d.toNat < 2 ^ s.sizes.durW → s.cfg.toneLen < 2 ^ s.sizes.cntW - 1 →
      (pushAll (List.replicate (s.cfg.toneLen + 1) d) s).dem.phase = .decode
      ∧ (pushAll (List.replicate (s.cfg.toneLen + 1) d) s).dem.fsm = .unknown
      ∧ (pushAll (List.replicate (s.cfg.toneLen + 1) d) s).statusByte = 0x31)
    ∧ ∀ ds : List Duration, (∀ d ∈ ds, d.toNat < 2 ^ s.sizes.durW) →
        ds.IsChain (fun a b => check (Stats.empty.fold s.sizes.histBins a.toNat) s.cfg.deltaPct b.toNat 1 = false) →
        (pushAll ds s).dem.phase = .calib ∧ (pushAll ds s).stS.count ≤ 1

/-- The summary table of spec/41_demodulator.md section 3 (R144 to R150): state before and current bit to new state, new current
bit and bits appended. -/
def bitMachine (f : Fsm) (cur long : Bool) : Fsm × Bool × List Bool :=
  match f, long with
  | .unknown, false => (.unknown, cur, [])
  | .unknown, true => (.full, !cur, List.replicate 32 false ++ [!cur])
  | .full, false => (.half, cur, [])
  | .full, true => (.full, !cur, [!cur])
  | .half, false => (.full, cur, [cur])
  | .half, true => (.modulError, cur, [cur])
  | .modulError, false => (.half, cur, [])
  | .modulError, true => (.full, !cur, [!cur])

/-- The `st` of a state of the machine (R97). -/
def machineCode : Fsm → BitVec 8
  | .unknown => 0x32
  | .half => 0x33
  | .full => 0x34
  | .modulError => 0x35

/-- `d` is short or, where `long` holds, long under the open bands, the short test first (R134). -/
def ClassifiedAs (s : State) (d : Nat) (long : Bool) : Prop :=
  if long then check s.stS s.cfg.deltaPct d 1 = false ∧ check s.stS s.cfg.deltaPct d 2 = true
  else check s.stS s.cfg.deltaPct d 1 = true

/-- In phase `DECODE` the duration `d` that an operand field carries, of class short or long, is folded into its aggregate and
takes the machine through the table, where neither the count nor the bit memory is full. What duration a field of more than DUR_W
bits gives is the model's free value (log entry 3). -/
def FollowsBitMachine (s : State) (field : Duration) (long : Bool) : Prop :=
  s.dem.phase = .decode → ∃ d, IsDuration s.sizes.durW field d ∧ (ClassifiedAs s d long →
    (if long then s.stL else s.stS).count ≠ 2 ^ s.sizes.cntW - 1 →
    s.bs.bits.length + (bitMachine s.dem.fsm s.dem.curBit long).2.2.length ≤ s.sizes.bsCap →
    exec (.pushDur field) s = .next { s with
      stS := if long then s.stS else s.stS.fold s.sizes.histBins d
      stL := if long then s.stL.fold s.sizes.histBins d else s.stL
      dem := { phase := .decode, fsm := (bitMachine s.dem.fsm s.dem.curBit long).1,
               curBit := (bitMachine s.dem.fsm s.dem.curBit long).2.1 }
      bs := { s.bs with bits := s.bs.bits ++ (bitMachine s.dem.fsm s.dem.curBit long).2.2 }
      resp := answer (machineCode (bitMachine s.dem.fsm s.dem.curBit long).1)
        (decide ((bitMachine s.dem.fsm s.dem.curBit long).2.2 ≠ [])) s.bs.inv 0
        (BitVec.ofNat 32 (s.bs.bits.length + (bitMachine s.dem.fsm s.dem.curBit long).2.2.length)) })

/-- R143, R144, R146 to R149: the transitions the source states, with the fold of R143 (a field of more than DUR_W bits: log
entry 3). -/
def Obligations.DecodePhaseFollowsTable : Prop :=
  ∀ (s : State) (d : Duration) (long : Bool),
    s.dem.fsm = .full ∨ s.dem.fsm = .half ∨ (s.dem.fsm = .unknown ∧ long = true) → FollowsBitMachine s d long

/-- R145, R150, the spec's own inferences: a short pulse before the lead-in ends goes on with it, and a duration after a broken
pairing is taken as from `full` (a field of more than DUR_W bits: log entry 3). -/
def Obligations.LeadInGoesOnAndErrorResyncs : Prop :=
  ∀ (s : State) (d : Duration) (long : Bool),
    s.dem.fsm = .modulError ∨ (s.dem.fsm = .unknown ∧ long = false) → FollowsBitMachine s d long

/-- R142: a duration in neither band loses the tone in every state of the machine, folds nothing and appends nothing (a field of
more than DUR_W bits: the model's free value, log entry 3). -/
def Obligations.NeitherBandLosesTone : Prop :=
  ∀ (s : State) (field : Duration), s.dem.phase = .decode → ∃ d, IsDuration s.sizes.durW field d ∧
    (check s.stS s.cfg.deltaPct d 1 = false → check s.stS s.cfg.deltaPct d 2 = false →
      exec (.pushDur field) s = .next { s with
        dem := { phase := .lost, fsm := if s.dem.fsm = .modulError then .full else s.dem.fsm, curBit := s.dem.curBit }
        resp := answer 0x36 false s.bs.inv 0 (BitVec.ofNat 32 s.bs.bits.length) })

/-- R151, R270: in phase `DECODE` a full count is reported before a full bit memory, and a refused duration changes nothing else (a
field of more than DUR_W bits: the model's free value, log entry 3). -/
def Obligations.DecodePhaseRefusals : Prop :=
  ∀ (s : State) (field : Duration) (long : Bool), s.dem.phase = .decode → ∃ d, IsDuration s.sizes.durW field d ∧
    (ClassifiedAs s d long →
      ((if long then s.stL else s.stS).count = 2 ^ s.sizes.cntW - 1 →
        exec (.pushDur field) s = .next (s.refusedWith 0x10 0xE4))
      ∧ ((if long then s.stL else s.stS).count ≠ 2 ^ s.sizes.cntW - 1 →
        s.sizes.bsCap < s.bs.bits.length + (bitMachine s.dem.fsm s.dem.curBit long).2.2.length →
        exec (.pushDur field) s = .next (s.refusedWith 0x08 0xE3)))

/-- R153: five durations classified long, short, short, long, long from state `unknown` with current bit 0 append 32 zeros and
then 1, 1, 0, 1, through the states `full`, `half`, `full`, `full`, `full`. -/
def Obligations.CraftedSequenceDecodes : Prop :=
  ∀ (s0 s1 s2 s3 s4 s5 : State) (d1 d2 d3 d4 d5 : Duration),
    s0.dem = { phase := .decode, fsm := .unknown, curBit := false } →
    (∀ d ∈ [d1, d2, d3, d4, d5], d.toNat < 2 ^ s0.sizes.durW) →
    ClassifiedAs s0 d1.toNat true → ClassifiedAs s1 d2.toNat false → ClassifiedAs s2 d3.toNat false →
    ClassifiedAs s3 d4.toNat true → ClassifiedAs s4 d5.toNat true →
    exec (.pushDur d1) s0 = .next s1 → exec (.pushDur d2) s1 = .next s2 → exec (.pushDur d3) s2 = .next s3 →
    exec (.pushDur d4) s3 = .next s4 → exec (.pushDur d5) s4 = .next s5 →
    (∀ t ∈ [s1, s2, s3, s4, s5], t.statusByte.toNat < 0xE0) →
    s5.bs.bits = s0.bs.bits ++ List.replicate 32 false ++ [true, true, false, true]
    ∧ s1.dem.fsm = .full ∧ s2.dem.fsm = .half ∧ s3.dem.fsm = .full ∧ s4.dem.fsm = .full ∧ s5.dem.fsm = .full

/-! ## BS -/

/-- `MemRead(addr, n)` as the sum of R64. -/
def windowSum (bits : List Bool) (addr n : Nat) : Nat :=
  ∑ k ∈ Finset.range n, (if bits[addr + k]? = some true then 2 ^ (n - 1 - k) else 0)

/-- `Hex(W)` (R171): the window, every bit flipped where the flag is set. -/
def windowValue (bits : List Bool) (addr : Nat) (inv : Bool) (w : Nat) : Nat :=
  if inv then 2 ^ w - 1 - windowSum bits addr w else windowSum bits addr w

/-- R64, R171, R175: `BS_HEX` answers the window at the cursor, first bit most significant, zero beyond the end, flipped under the
inversion flag, and changes nothing; widths outside 1 to 16 and the cursor before start are refused. -/
def Obligations.BsHexReadsWindow : Prop :=
  ∀ (s : State) (w : BitVec 8),
    encodesAs (.bsHex w) 0x32 w.toNat 0
    ∧ (w.toNat = 0 ∨ 16 < w.toNat → exec (.bsHex w) s = .next (s.refusedWith 0x02 0xE1))
    ∧ (1 ≤ w.toNat → w.toNat ≤ 16 → s.bs.cursor = .beforeStart → exec (.bsHex w) s = .next (s.refusedWith 0x04 0xE2))
    ∧ ∀ c, 1 ≤ w.toNat → w.toNat ≤ 16 → s.bs.cursor = .onBit c →
        exec (.bsHex w) s = .next { s with
          resp := answer 0x80 false s.bs.inv 0 (BitVec.ofNat 32 (windowValue s.bs.bits c s.bs.inv w.toNat)) }

/-- R173: `BS_RESET` puts the cursor before start and clears the flag; the bits are kept. -/
def Obligations.BsResetRewinds : Prop :=
  encode .bsReset = 0x3000000000000000 ∧
  ∀ s : State, exec .bsReset s = .next { s with
    bs := { bits := s.bs.bits, cursor := .beforeStart, inv := false }, resp := answer 0x80 false false 0 0xFFFFFFFF }

/-- `CursorCode()` (R174) under BS_CAP = `cap`. -/
def cursorWord (cap : Nat) (c : Cursor) : BitVec 32 :=
  match c with
  | .beforeStart => 0xFFFFFFFF
  | .onBit c => BitVec.ofNat 32 (min c (cap + 1))

/-- R172, R174: `BS_OFFSET` moves the cursor by `n`, not clamped, and tells whether it is at most `BS.len`. -/
def Obligations.BsOffsetMovesCursor : Prop :=
  ∀ (s : State) (n : BitVec 32), encodesAs (.bsOffset n) 0x31 0 n.toNat ∧ ∃ c : Cursor,
    c.toInt = s.bs.cursor.toInt + n.toNat ∧
    exec (.bsOffset n) s = .next { s with
      bs := { s.bs with cursor := c }
      resp := answer 0x80 (decide (c.toInt ≤ s.bs.bits.length)) s.bs.inv 0 (cursorWord s.sizes.bsCap c) }

/-- The test of R176 at one position under one polarity. -/
def hits (bits : List Bool) (t m w pos : Nat) (inv : Bool) : Prop := windowValue bits pos inv w &&& m = t

/-- R176, R179: `BS_FIND` stands on the lowest position above the old cursor and at most `BS.len` that matches, the non-inverted
test first; where none matches the cursor is `max(c + 1, BS.len + 1)` and the flag 0. Operands out of range are refused. -/
def Obligations.BsFindStandsOnLowestMatch : Prop :=
  ∀ (s : State) (w : BitVec 8) (target mask : BitVec 16),
    encodesAs (.bsFind w target mask) 0x33 w.toNat (target.toNat * 2 ^ 16 + mask.toNat)
    ∧ (w.toNat = 0 ∨ 16 < w.toNat ∨ 2 ^ w.toNat ≤ target.toNat ∨ 2 ^ w.toNat ≤ mask.toNat →
      exec (.bsFind w target mask) s = .next (s.refusedWith 0x02 0xE1))
    ∧ (1 ≤ w.toNat → w.toNat ≤ 16 → target.toNat < 2 ^ w.toNat → mask.toNat < 2 ^ w.toNat →
      ∃ (found inv : Bool) (pos : Nat),
        exec (.bsFind w target mask) s = .next { s with
          bs := { bits := s.bs.bits, cursor := .onBit pos, inv := inv }
          resp := answer 0x80 found inv 0 (cursorWord s.sizes.bsCap (.onBit pos)) }
        ∧ (found = true →
            s.bs.cursor.toInt < pos ∧ pos ≤ s.bs.bits.length
            ∧ hits s.bs.bits target.toNat mask.toNat w.toNat pos inv
            ∧ (inv = true → ¬ hits s.bs.bits target.toNat mask.toNat w.toNat pos false))
        ∧ (∀ p : Nat, s.bs.cursor.toInt < p → p ≤ s.bs.bits.length → (found = true → p < pos) →
            ∀ v, ¬ hits s.bs.bits target.toNat mask.toNat w.toNat p v)
        ∧ (found = false → (pos : Int) = max (s.bs.cursor.toInt + 1) (s.bs.bits.length + 1) ∧ inv = false))

/-- R180, R100: `BS_FIND_SYNC` is `BS_FIND 0xE6, 0xFF, 8` followed, only when the search succeeded, by a move of 8 bits whose
bounds result is not used. -/
def Obligations.BsFindSyncIsFindThenStep : Prop :=
  encode .bsFindSync = 0x3400000000000000 ∧
  ∀ s : State, ∃ u p, exec (.bsFind 8 0xE6 0xFF) s = .next u ∧ u.bs.cursor = .onBit p ∧
    exec .bsFindSync s = .next (
      if u.resultBit then
        { u with
          bs := { u.bs with cursor := .onBit (p + 8) }
          resp := answer 0x80 true u.bs.inv 0 (cursorWord s.sizes.bsCap (.onBit (p + 8))) }
      else u)

/-- R177: after a successful `BS_FIND_SYNC` the cursor is in bounds, or the Bitstream ends in `1110011`, the match took one padded
bit, and the cursor is one past the end. -/
def Obligations.OnlyPaddedSyncMatch : Prop :=
  ∀ s t : State, exec .bsFindSync s = .next t → t.resultBit = true → ∃ c, t.bs.cursor = .onBit c ∧
    (c ≤ s.bs.bits.length
      ∨ (c = s.bs.bits.length + 1 ∧ t.bs.inv = false
        ∧ [true, true, true, false, false, true, true] <:+ s.bs.bits))

/-- R182: `BS_TRIM` drops the bits before the cursor, and a kept window reads the same at its new address. -/
def Obligations.BsTrimDropsPrefix : Prop :=
  encode .bsTrim = 0x3500000000000000 ∧
  ∀ s : State, ∃ kept : List Bool,
    let k := (min (max s.bs.cursor.toInt 0) s.bs.bits.length).toNat
    exec .bsTrim s = .next { s with
      bs := { bits := kept, cursor := .beforeStart, inv := false }
      resp := answer 0x80 false false 0 (BitVec.ofNat 32 kept.length) }
    ∧ kept.length = s.bs.bits.length - k
    ∧ ∀ (a w : Nat) (inv : Bool), k ≤ a → windowValue kept (a - k) inv w = windowValue s.bs.bits a inv w

/-- R183: `BS_APPEND` adds the `W` low bits of `v`, which then read back as `v`; the bits held, the cursor and the flag are kept. A
width, a value or a capacity out of range is refused, in the order of R270. -/
def Obligations.BsAppendReadsBack : Prop :=
  ∀ (s : State) (w : BitVec 8) (v : BitVec 16),
    encodesAs (.bsAppend w v) 0x36 w.toNat v.toNat
    ∧ (w.toNat = 0 ∨ 16 < w.toNat ∨ 2 ^ w.toNat ≤ v.toNat → exec (.bsAppend w v) s = .next (s.refusedWith 0x02 0xE1))
    ∧ (1 ≤ w.toNat → w.toNat ≤ 16 → v.toNat < 2 ^ w.toNat → s.sizes.bsCap < s.bs.bits.length + w.toNat →
      exec (.bsAppend w v) s = .next (s.refusedWith 0x08 0xE3))
    ∧ (1 ≤ w.toNat → w.toNat ≤ 16 → v.toNat < 2 ^ w.toNat → s.bs.bits.length + w.toNat ≤ s.sizes.bsCap →
      ∃ new : List Bool, exec (.bsAppend w v) s = .next { s with
          bs := { s.bs with bits := s.bs.bits ++ new }
          resp := answer 0x80 false s.bs.inv 0 (BitVec.ofNat 32 (s.bs.bits.length + w.toNat)) }
        ∧ new.length = w.toNat
        ∧ (∀ k, k < w.toNat → new[k]? = some (v.toNat.testBit (w.toNat - 1 - k)))
        ∧ windowValue (s.bs.bits ++ new) s.bs.bits.length false w.toNat = v.toNat)

/-- `BS.cursor` as a hardware register holds it (R187). -/
def saturated (s : State) : State :=
  match s.bs.cursor with
  | .beforeStart => s
  | .onBit c => { s with bs := { s.bs with cursor := .onBit (min c (s.sizes.bsCap + 1)) } }

/-- R187: a register that saturates at BS_CAP + 1 cannot be told from the unbounded cursor: every command answers the same response
and leaves the same state, cursors above BS_CAP + 1 taken as equal. -/
def Obligations.CursorSaturationIsInvisible : Prop :=
  ∀ (i : Instr) (s t : State), s.bs.bits.length ≤ s.sizes.bsCap → exec i s = .next t →
    ∃ t', exec i (saturated s) = .next t' ∧ saturated t' = saturated t ∧ t'.resp = t.resp

/-- R298: SEG and DEM share no state, so a segmenter command and a `PUSH_DUR` give the same state and the same responses in either
order. -/
def Obligations.SegAndDemCommute : Prop :=
  ∀ (i : Instr) (d : Duration) (s a b : State), unitOf i = .seg →
    exec i s = .next a → exec (.pushDur d) a = .next b →
    ∃ a' b', exec (.pushDur d) s = .next a' ∧ exec i a' = .next b'
      ∧ { b' with resp := none } = { b with resp := none } ∧ a'.resp = b.resp ∧ b'.resp = a.resp

/-! ## PAR -/

/-- R201: a 16-bit field is two bytes in the order of WORD_ORDER, for both orders; it is good when both bytes were in bounds, and
the cursor always moves 16 bits. -/
def Obligations.ReadWordOrdersBytes : Prop :=
  ∀ (wo : WordOrder) (bits : List Bool) (sc : Scan),
    (readWord wo bits sc).value.toNat =
      (match wo with
      | .firstLow => 256 * windowValue bits (sc.pos + 8) sc.inv 8 + windowValue bits sc.pos sc.inv 8
      | .firstHigh => 256 * windowValue bits sc.pos sc.inv 8 + windowValue bits (sc.pos + 8) sc.inv 8)
    ∧ ((readWord wo bits sc).ok = true ↔ sc.pos + 16 ≤ bits.length)
    ∧ (readWord wo bits sc).scan = { pos := sc.pos + 16, inv := sc.inv }

/-- R202: `low` is the sum of all bytes modulo 256; `high` is the sum of all bytes but the last plus the carries out of `low` from
all additions but the last, modulo 256 (those carries number the sum of those bytes divided by 256). The worked values hold. -/
def Obligations.ChecksumClosedForm : Prop :=
  (∀ p : List Byte,
    let all := (p.map (fun b => b.toNat)).sum
    let front := (p.dropLast.map (fun b => b.toNat)).sum
    (checksum p).toNat = (front + front / 256) % 256 * 256 + all % 256)
  ∧ checksum [] = 0 ∧ (∀ b : Byte, (checksum [b]).toNat = b.toNat)
  ∧ checksum [0x01, 0x02, 0x03] = 0x0306 ∧ checksum [0x10, 0x20, 0x30] = 0x3060 ∧ checksum [0xFF, 0xFF] = 0xFFFE
  ∧ checksum [0xFF, 0x01, 0x00] = 0x0100

/-- A byte of the tape at a bit address under the flag of a scan. -/
def tapeByte (bits : List Bool) (inv : Bool) (addr : Nat) : Nat := windowValue bits addr inv 8

/-- R204, R205: the classification by the 8 bytes after the first marker and the 8 after those, read as padding beyond the end. -/
def Obligations.ClassifyByHeader : Prop :=
  encode .parClassify = 0x4000000000000000 ∧
  ∀ s : State, ∃ (code : DecodeCode) (st : BitVec 8) (pos : Nat) (inv : Bool),
    exec .parClassify s = .next { s with
      bs := { bits := s.bs.bits, cursor := .onBit pos, inv := inv }
      df := { DataFile.cleared with ctype := code }
      pay := []
      resp := answer st false inv 0 0 }
    ∧ ((findSync s.bs.bits 0).1 = false →
        code = .noSync ∧ st = 0x10 ∧ pos = s.bs.bits.length + 1 ∧ inv = false)
    ∧ ((findSync s.bs.bits 0).1 = true → ∃ m, (findSync s.bs.bits 0).2 = { pos := m, inv := inv } ∧
        ((∃ k, k < 8 ∧ (tapeByte s.bs.bits inv (m + 8 * k) < 0x20 ∨ 0x7F < tapeByte s.bs.bits inv (m + 8 * k))) →
          code = .radio ∧ st = 0x20 ∧ pos = m + 64)
        ∧ ((∀ k, k < 8 → 0x20 ≤ tapeByte s.bs.bits inv (m + 8 * k) ∧ tapeByte s.bs.bits inv (m + 8 * k) ≤ 0x7F) →
          ((∀ k, k < 8 → tapeByte s.bs.bits inv (m + 64 + 8 * k) = 0) → code = .orion ∧ st = 0x21 ∧ pos = m + 128)
          ∧ ((∃ k, k < 8 ∧ tapeByte s.bs.bits inv (m + 64 + 8 * k) ≠ 0) →
            code = .noHeader ∧ st = 0x17 ∧ pos = m + 128)))

/-- The part of a tape frame from `base` on, with one `00` byte before the second marker (R206, R214). -/
def frameBody (wo : WordOrder) (base endAddr ck : Word16) (payload : List Byte) : List Byte :=
  wordBytes wo base ++ wordBytes wo endAddr ++ payload ++ [0x00, 0xE6] ++ wordBytes wo ck

/-- R206, R215, R227: a radio-family frame, in either polarity and either WORD_ORDER, decodes to its addresses, its payload and its
checksum; the outcome is `ok` exactly when the recorded checksum is that of the payload. -/
def Obligations.RadioFrameDecodes : Prop :=
  ∀ (s : State) (inv : Bool) (base endAddr ck : Word16) (payload : List Byte),
    (payload.length : Int) = (endAddr.toNat : Int) - base.toNat + 1 →
    s.bs.bits = (streamOf ([0x00, 0xE6] ++ frameBody s.wordOrder base endAddr ck payload)).map (fun b => b ^^ inv) →
    exec .parRadio s = .next { s with
      bs := { bits := s.bs.bits, cursor := .onBit s.bs.bits.length, inv := inv }
      df := { DataFile.cleared with
        cls := if ck = checksum payload then .ok else .badCrc
        attempt := if ck = checksum payload then .ok else .badCrc
        base := base
        endAddr := BitVec.ofNat 32 endAddr.toNat
        len := BitVec.ofNat 32 payload.length
        ckRead := ck
        ckCalc := checksum payload
        npay := BitVec.ofNat 32 payload.length
        nameKind := .checksum
        save := decide (ck = checksum payload) }
      pay := payloadFrom 0 payload
      resp := answer (if ck = checksum payload then 0x01 else 0x02) (decide (ck = checksum payload)) inv 0
        (BitVec.ofNat 32 payload.length) }

/-- `Sanitize(v)` (R217). -/
def sanitized (v : Byte) : Byte :=
  if v.toNat < 0x20 ∨ 0x7F < v.toNat ∨ v = 0x2F ∨ v = 0x5C then 0x3F else v

/-- R216 to R219: an orion-family frame, in either polarity and either WORD_ORDER, decodes to its sanitized name and to the same
fields as a radio frame; the byte before `base` has no effect. -/
def Obligations.OrionFrameDecodes : Prop :=
  ∀ (s : State) (inv : Bool) (name : Vector Byte 8) (skipped : Byte) (base endAddr ck : Word16) (payload : List Byte),
    (payload.length : Int) = (endAddr.toNat : Int) - base.toNat + 1 →
    s.bs.bits = (streamOf ([0x00, 0xE6] ++ name.toList ++ List.replicate 8 0x00 ++ [skipped]
      ++ frameBody s.wordOrder base endAddr ck payload)).map (fun b => b ^^ inv) →
    exec .parOrion s = .next { s with
      bs := { bits := s.bs.bits, cursor := .onBit s.bs.bits.length, inv := inv }
      df := { DataFile.cleared with
        cls := if ck = checksum payload then .ok else .badCrc
        attempt := if ck = checksum payload then .ok else .badCrc
        base := base
        endAddr := BitVec.ofNat 32 endAddr.toNat
        len := BitVec.ofNat 32 payload.length
        ckRead := ck
        ckCalc := checksum payload
        npay := BitVec.ofNat 32 payload.length
        name := name.map sanitized
        nameKind := .header
        save := decide (ck = checksum payload) }
      pay := payloadFrom 0 payload
      resp := answer (if ck = checksum payload then 0x01 else 0x02) (decide (ck = checksum payload)) inv 0
        (BitVec.ofNat 32 payload.length) }

/-- What the body of a decode that begins at bit address `m` under the flag `inv` ends with (R208 to R215, R228), the steps tried in
order: the code, the cursor and the fields of `DF` and `PAY` it wrote, every other field as `before` holds it. -/
def BodyEnds (wo : WordOrder) (bits : List Bool) (m : Nat) (inv : Bool) (before : DataFile) (t : State) : Prop :=
  let n := bits.length
  let base := (readWord wo bits { pos := m, inv := inv }).value
  let last := (readWord wo bits { pos := m + 16, inv := inv }).value
  let len : Int := (last.toNat : Int) - base.toNat + 1
  let stored := min len.toNat ((n - (m + 32)) / 8)
  let addressed : DataFile := { before with base := base, endAddr := BitVec.ofNat 32 last.toNat, len := BitVec.ofInt 32 len }
  let read : DataFile := { addressed with npay := BitVec.ofNat 32 stored }
  let second := findSync bits (m + 32 + 8 * len.toNat + 1)
  let recorded := (readWord wo bits second.2).value
  let computed := checksum (t.pay.bytesBelow stored)
  let ends (code : DecodeCode) (pos : Nat) (f : DataFile) : Prop :=
    t.bs.cursor = .onBit pos ∧ t.df = { f with cls := code, attempt := code, save := decide (code = .ok) }
  let holds : Prop := ∀ i, (t.pay.read i).map (fun b => b.toNat) =
    if i < stored then some (tapeByte bits inv (m + 32 + 8 * i)) else none
  if n < m + 16 then ends .noBase (m + 16) before ∧ t.pay = [] ∧ t.bs.inv = inv
  else if n < m + 32 then ends .noLength (m + 32) { before with base := base } ∧ t.pay = [] ∧ t.bs.inv = inv
  else if len < 0 then ends .negativeLength (m + 32) addressed ∧ t.pay = [] ∧ t.bs.inv = inv
  else if n < m + 32 + 8 * len.toNat then
    ends .wrongLength (m + 32 + 8 * (stored + 1)) read ∧ holds ∧ t.bs.inv = inv
  else if second.1 = false then ends .noSyncCrc (n + 1) read ∧ holds ∧ t.bs.inv = false
  else if n < second.2.pos + 16 then ends .noCrc (second.2.pos + 16) read ∧ holds ∧ t.bs.inv = second.2.inv
  else
    ends (if recorded = computed then .ok else .badCrc) (second.2.pos + 16)
      { read with
        ckRead := recorded
        ckCalc := computed
        nameKind := if before.nameKind = .none then .checksum else before.nameKind }
    ∧ holds ∧ t.bs.inv = second.2.inv

/-- R207 to R210, R212 to R215, R228 (R213 and R228 by the spec's own inference), the codes by the numbers of R96: on every Bitstream
`PAR_RADIO` completes with the first step that fails, the cursor where that step leaves it, the fields the steps before wrote, and a
response that holds the class, `DF.save` and `DF.npay`. -/
def Obligations.RadioOutcomes : Prop :=
  encode .parRadio = 0x4100000000000000 ∧
  ∀ s : State, ∃ t, exec .parRadio s = .next t
    ∧ t = { s with
        bs := { s.bs with cursor := t.bs.cursor, inv := t.bs.inv }
        df := t.df
        pay := t.pay
        resp := answer (outcomeNumber t.df.cls) t.df.save t.bs.inv 0 t.df.npay }
    ∧ ((findSync s.bs.bits 0).1 = false →
        t.df = { DataFile.cleared with cls := .noSync, attempt := .noSync } ∧ t.pay = []
        ∧ t.bs.cursor = .onBit (s.bs.bits.length + 1) ∧ t.bs.inv = false)
    ∧ ((findSync s.bs.bits 0).1 = true →
        BodyEnds s.wordOrder s.bs.bits (findSync s.bs.bits 0).2.pos (findSync s.bs.bits 0).2.inv DataFile.cleared t)

/-- R216 to R219, R228: on every Bitstream `PAR_ORION` completes: with `no_sync`, with `no_header` after `j` good name bytes, with
`not_orion`, or with the body that begins 136 bits beyond the marker. -/
def Obligations.OrionOutcomes : Prop :=
  encode .parOrion = 0x4200000000000000 ∧
  ∀ s : State, ∃ t, exec .parOrion s = .next t
    ∧ t = { s with
        bs := { s.bs with cursor := t.bs.cursor, inv := t.bs.inv }
        df := t.df
        pay := t.pay
        resp := answer (outcomeNumber t.df.cls) t.df.save t.bs.inv 0 t.df.npay }
    ∧ ((findSync s.bs.bits 0).1 = false →
        t.df = { DataFile.cleared with cls := .noSync, attempt := .noSync } ∧ t.pay = []
        ∧ t.bs.cursor = .onBit (s.bs.bits.length + 1) ∧ t.bs.inv = false)
    ∧ ((findSync s.bs.bits 0).1 = true → ∀ m inv, (findSync s.bs.bits 0).2 = { pos := m, inv := inv } →
        let good := min 8 ((s.bs.bits.length - m) / 8)
        let name : Vector Byte 8 := Vector.ofFn (fun k : Fin 8 =>
          if k.val < good then sanitized (BitVec.ofNat 8 (tapeByte s.bs.bits inv (m + 8 * k.val))) else 0)
        if s.bs.bits.length < m + 64 then
          t.df = { DataFile.cleared with cls := .noHeader, attempt := .noHeader, name := name } ∧ t.pay = []
          ∧ t.bs.cursor = .onBit (m + 8 * (good + 1)) ∧ t.bs.inv = inv
        else if ∃ k, k < 8 ∧ tapeByte s.bs.bits inv (m + 64 + 8 * k) ≠ 0 then
          t.df = { DataFile.cleared with cls := .notOrion, attempt := .notOrion, name := name, nameKind := .header }
          ∧ t.pay = [] ∧ t.bs.cursor = .onBit (m + 128) ∧ t.bs.inv = inv
        else BodyEnds s.wordOrder s.bs.bits (m + 136) inv { DataFile.cleared with name := name, nameKind := .header } t)

/-- R221, R222: the raw capture is the bytes from the marker to the end, the last one padded; without a marker it is empty and
`DF.end` is -1. The marker is where `BS_FIND` of target 0x0080, mask 0xFF80 and width 16 stands from "before start" (R11, R181). -/
def Obligations.RawCaptureReadsToEnd : Prop :=
  encode .parRaw = 0x4300000000000000 ∧
  ∀ s : State, s.bs.bits.length < 2 ^ 32 → ∃ (u : State) (m n pos : Nat) (inv : Bool) (pay : Memory),
    exec (.bsFind 16 0x0080 0xFF80) { s with bs := { s.bs with cursor := .beforeStart, inv := false } } = .next u
    ∧ u.bs.cursor = .onBit m ∧ u.statusByte = 0x80
    ∧ exec .parRaw s = .next { s with
      bs := { bits := s.bs.bits, cursor := .onBit pos, inv := inv }
      df := { DataFile.cleared with
        cls := .raw, attempt := .raw, len := BitVec.ofNat 32 n, endAddr := BitVec.ofInt 32 (n - 1), npay := BitVec.ofNat 32 n }
      pay := pay
      resp := answer 0x03 false inv 0 (BitVec.ofNat 32 n) }
    ∧ (u.resultBit = false → n = 0 ∧ pay = [] ∧ pos = s.bs.bits.length + 1 ∧ inv = false)
    ∧ (u.resultBit = true →
        inv = u.bs.inv ∧ n = (s.bs.bits.length - m + 7) / 8 ∧ pos = m + 8 * n
        ∧ s.bs.bits.length ≤ pos ∧ pos ≤ s.bs.bits.length + 7
        ∧ ∀ i, (pay.read i).map (fun b => b.toNat) = if i < n then some (tapeByte s.bs.bits inv (m + 8 * i)) else none)

/-- R224, R225: `PAR_AUTO` classifies as `PAR_CLASSIFY` does, attempts as `PAR_RADIO` or `PAR_ORION` does, keeps the attempt that ends
`ok` or `bad_crc`, and otherwise ends as `PAR_RAW` does, with the code of the attempt kept. -/
def Obligations.AutoPolicyFallsBackToRaw : Prop :=
  encode .parAuto = 0x4400000000000000 ∧
  ∀ s : State, ∃ c r o w t, exec .parClassify s = .next c ∧ exec .parRadio s = .next r ∧ exec .parOrion s = .next o
    ∧ exec .parRaw s = .next w ∧ exec .parAuto s = .next t
    ∧ let code := if c.df.ctype = .radio then r.df.cls else if c.df.ctype = .orion then o.df.cls else c.df.ctype
      let kept := if c.df.ctype = .radio then r else o
      let u := if code = .ok ∨ code = .badCrc then kept else w
      t = { u with
        df := { u.df with attempt := code, ctype := c.df.ctype }
        resp := answer (outcomeNumber u.df.cls) u.df.save u.bs.inv
          (BitVec.ofNat 16 (256 * (outcomeNumber c.df.ctype).toNat + (outcomeNumber code).toNat)) u.df.npay }

/-- R226: `DF.save` is 1 exactly when `DF.class` is `ok`: after reset, after every parse command from any state, and after every
other command where it was so before. -/
def Obligations.SaveExactlyWhenOk : Prop :=
  (State.reset.df.save = true ↔ State.reset.df.cls = .ok)
  ∧ ∀ (i : Instr) (s t : State), exec i s = .next t →
      unitOf i = .par ∨ i = .reset ∨ (s.df.save = true ↔ s.df.cls = .ok) →
      (t.df.save = true ↔ t.df.cls = .ok)

/-- R186: `PAR_AUTO` then `BS_TRIM` drops at least one bit of a Bitstream that is not empty, so the host's loop ends, and empties it
after a raw capture. -/
def Obligations.HostLoopShrinksStream : Prop :=
  ∀ s : State, ∃ t u, exec .parAuto s = .next t ∧ exec .bsTrim t = .next u
    ∧ (s.bs.bits ≠ [] → u.bs.bits.length < s.bs.bits.length)
    ∧ (t.df.cls = .raw → u.bs.bits = [])
end

