-- ==== Sys2Proof/Laws/State.lean ====
section
/-! SUPPORT. One lemma per field per update of the state records, each true by `rfl`: later proofs read a field of an updated
record without unfolding the update. -/

namespace Sys2Proof.Machine

/-! ### The Bitstream: `setScan`, `resetCursor`, `trim`, `append` -/

@[simp] theorem Bitstream.setScan_bits (b : Bitstream) (sc : Scan) : (b.setScan sc).bits = b.bits := rfl
@[simp] theorem Bitstream.setScan_cursor (b : Bitstream) (sc : Scan) : (b.setScan sc).cursor = .onBit sc.pos := rfl
@[simp] theorem Bitstream.setScan_inv (b : Bitstream) (sc : Scan) : (b.setScan sc).inv = sc.inv := rfl

@[simp] theorem Bitstream.resetCursor_bits (b : Bitstream) : b.resetCursor.bits = b.bits := rfl
@[simp] theorem Bitstream.resetCursor_cursor (b : Bitstream) : b.resetCursor.cursor = .beforeStart := rfl
@[simp] theorem Bitstream.resetCursor_inv (b : Bitstream) : b.resetCursor.inv = false := rfl

@[simp] theorem Bitstream.trim_bits (b : Bitstream) : b.trim.bits = b.bits.drop b.trimCount := rfl
@[simp] theorem Bitstream.trim_cursor (b : Bitstream) : b.trim.cursor = .beforeStart := rfl
@[simp] theorem Bitstream.trim_inv (b : Bitstream) : b.trim.inv = false := rfl

@[simp] theorem Bitstream.append_bits (b : Bitstream) (new : List Bool) : (b.append new).bits = b.bits ++ new := rfl
@[simp] theorem Bitstream.append_cursor (b : Bitstream) (new : List Bool) : (b.append new).cursor = b.cursor := rfl
@[simp] theorem Bitstream.append_inv (b : Bitstream) (new : List Bool) : (b.append new).inv = b.inv := rfl

/-! ### Scans and what a read leaves -/

@[simp] theorem Scan.advance_pos (sc : Scan) (n : Nat) : (sc.advance n).pos = sc.pos + n := rfl
@[simp] theorem Scan.advance_inv (sc : Scan) (n : Nat) : (sc.advance n).inv = sc.inv := rfl

@[simp] theorem readByte_value (bits : List Bool) (sc : Scan) :
    (readByte bits sc).value = BitVec.ofNat 8 (hex bits sc 8) := rfl
@[simp] theorem readByte_scan (bits : List Bool) (sc : Scan) : (readByte bits sc).scan = sc.advance 8 := rfl
@[simp] theorem readWord_scan (wo : WordOrder) (bits : List Bool) (sc : Scan) :
    (readWord wo bits sc).scan = (sc.advance 8).advance 8 := rfl

/-! ### Statistics: `fold` -/

@[simp] theorem Stats.fold_count (st : Stats) (bins d : Nat) : (st.fold bins d).count = st.count + 1 := rfl
@[simp] theorem Stats.fold_sum (st : Stats) (bins d : Nat) : (st.fold bins d).sum = st.sum + d := rfl
@[simp] theorem Stats.fold_sq (st : Stats) (bins d : Nat) : (st.fold bins d).sq = st.sq + d * d := rfl
@[simp] theorem Stats.fold_minVal (st : Stats) (bins d : Nat) :
    (st.fold bins d).minVal = some (if st.count = 0 then d else minWith st.minVal d) := rfl
@[simp] theorem Stats.fold_maxVal (st : Stats) (bins d : Nat) :
    (st.fold bins d).maxVal = some (if st.count = 0 then d else maxWith st.maxVal d) := rfl
@[simp] theorem Stats.fold_hist (st : Stats) (bins d : Nat) :
    (st.fold bins d).hist = st.hist.write (min d (bins - 1)) (st.hist.read (min d (bins - 1)) + 1) := rfl

/-! ### The parser's state: `cleared`, `storeByte`, `conclude` -/

@[simp] theorem ParState.cleared_scan (sc : Scan) : (ParState.cleared sc).scan = sc := rfl
@[simp] theorem ParState.cleared_df (sc : Scan) : (ParState.cleared sc).df = DataFile.cleared := rfl
@[simp] theorem ParState.cleared_pay (sc : Scan) : (ParState.cleared sc).pay = [] := rfl

@[simp] theorem ParState.storeByte_scan (p : ParState) (v : Byte) : (p.storeByte v).scan = p.scan := rfl
@[simp] theorem ParState.storeByte_df (p : ParState) (v : Byte) :
    (p.storeByte v).df = { p.df with npay := p.df.npay + 1 } := rfl
@[simp] theorem ParState.storeByte_pay (p : ParState) (v : Byte) :
    (p.storeByte v).pay = p.pay.write p.df.npay.toNat v := rfl

@[simp] theorem ParState.conclude_scan (p : ParState) (c : DecodeCode) : (p.conclude c).scan = p.scan := rfl
@[simp] theorem ParState.conclude_df (p : ParState) (c : DecodeCode) :
    (p.conclude c).df = { p.df with cls := c, attempt := c, save := c == .ok } := rfl
@[simp] theorem ParState.conclude_pay (p : ParState) (c : DecodeCode) : (p.conclude c).pay = p.pay := rfl

/-! ### The block's state: `storePar`, `refusedWith`, `withFetchWord` -/

@[simp] theorem storePar_cfg (p : ParState) (s : State) : (storePar p s).cfg = s.cfg := rfl
@[simp] theorem storePar_seg (p : ParState) (s : State) : (storePar p s).seg = s.seg := rfl
@[simp] theorem storePar_dem (p : ParState) (s : State) : (storePar p s).dem = s.dem := rfl
@[simp] theorem storePar_stS (p : ParState) (s : State) : (storePar p s).stS = s.stS := rfl
@[simp] theorem storePar_stL (p : ParState) (s : State) : (storePar p s).stL = s.stL := rfl
@[simp] theorem storePar_bs (p : ParState) (s : State) : (storePar p s).bs = s.bs.setScan p.scan := rfl
@[simp] theorem storePar_df (p : ParState) (s : State) : (storePar p s).df = p.df := rfl
@[simp] theorem storePar_pay (p : ParState) (s : State) : (storePar p s).pay = p.pay := rfl
@[simp] theorem storePar_sysFault (p : ParState) (s : State) : (storePar p s).sysFault = s.sysFault := rfl
@[simp] theorem storePar_wordOrder (p : ParState) (s : State) : (storePar p s).wordOrder = s.wordOrder := rfl
@[simp] theorem storePar_sizes (p : ParState) (s : State) : (storePar p s).sizes = s.sizes := rfl
@[simp] theorem storePar_cmds (p : ParState) (s : State) : (storePar p s).cmds = s.cmds := rfl
@[simp] theorem storePar_resp (p : ParState) (s : State) : (storePar p s).resp = s.resp := rfl

@[simp] theorem State.refusedWith_cfg (s : State) (b c : BitVec 8) : (s.refusedWith b c).cfg = s.cfg := rfl
@[simp] theorem State.refusedWith_seg (s : State) (b c : BitVec 8) : (s.refusedWith b c).seg = s.seg := rfl
@[simp] theorem State.refusedWith_dem (s : State) (b c : BitVec 8) : (s.refusedWith b c).dem = s.dem := rfl
@[simp] theorem State.refusedWith_stS (s : State) (b c : BitVec 8) : (s.refusedWith b c).stS = s.stS := rfl
@[simp] theorem State.refusedWith_stL (s : State) (b c : BitVec 8) : (s.refusedWith b c).stL = s.stL := rfl
@[simp] theorem State.refusedWith_bs (s : State) (b c : BitVec 8) : (s.refusedWith b c).bs = s.bs := rfl
@[simp] theorem State.refusedWith_df (s : State) (b c : BitVec 8) : (s.refusedWith b c).df = s.df := rfl
@[simp] theorem State.refusedWith_pay (s : State) (b c : BitVec 8) : (s.refusedWith b c).pay = s.pay := rfl
@[simp] theorem State.refusedWith_sysFault (s : State) (b c : BitVec 8) : (s.refusedWith b c).sysFault = s.sysFault ||| b := rfl
@[simp] theorem State.refusedWith_wordOrder (s : State) (b c : BitVec 8) : (s.refusedWith b c).wordOrder = s.wordOrder := rfl
@[simp] theorem State.refusedWith_sizes (s : State) (b c : BitVec 8) : (s.refusedWith b c).sizes = s.sizes := rfl
@[simp] theorem State.refusedWith_cmds (s : State) (b c : BitVec 8) : (s.refusedWith b c).cmds = s.cmds := rfl
@[simp] theorem State.refusedWith_resp (s : State) (b c : BitVec 8) :
    (s.refusedWith b c).resp = answer c false s.bs.inv 0 0 := rfl

@[simp] theorem State.withFetchWord_cmds (s : State) (nbits w : Nat) :
    (s.withFetchWord nbits w).cmds = wordOfBits nbits w :: s.cmds := rfl

end Sys2Proof.Machine
end

