-- ==== Sys2Proof/Laws/Cells.lean ====
section
/-! SUPPORT. The sparse memories: read after write, the canonical form kept by every operation and met at reset, equal reads are
equal data, for the payload memory (log entry 4) and the histograms (spec/10_state.md R35). -/

namespace Sys2Proof.Machine

variable {α : Type}

/-! ### Lists of cells -/

theorem cellsRead_eq_none_of_forall_ne {m : List (Nat × α)} {a : Nat} (h : ∀ c ∈ m, c.1 ≠ a) : cellsRead m a = none := by
  induction m with
  | nil => rfl
  | cons c m ih =>
    rw [cellsRead, if_neg (h c List.mem_cons_self)]
    exact ih fun x hx => h x (List.mem_cons_of_mem _ hx)

theorem cellsRead_eq_none_of_forall_lt {m : List (Nat × α)} {a : Nat} (h : ∀ c ∈ m, a < c.1) : cellsRead m a = none :=
  cellsRead_eq_none_of_forall_ne fun c hc => (h c hc).ne'

theorem mem_of_cellsRead {m : List (Nat × α)} {a : Nat} {v : α} (h : cellsRead m a = some v) : (a, v) ∈ m := by
  induction m with
  | nil => cases h
  | cons c m ih =>
    rw [cellsRead] at h
    split at h
    · next e => cases h; subst e; exact List.mem_cons_self
    · exact List.mem_cons_of_mem _ (ih h)

theorem cellsRead_of_mem {m : List (Nat × α)} (hm : cellsRising m) {a : Nat} {v : α} (h : (a, v) ∈ m) :
    cellsRead m a = some v := by
  induction m with
  | nil => cases h
  | cons c m ih =>
    rw [cellsRead]
    obtain ⟨hc, hm⟩ := List.pairwise_cons.1 hm
    rcases List.mem_cons.1 h with rfl | h
    · rw [if_pos rfl]
    · rw [if_neg (hc _ h).ne, ih hm h]

/-- Reading a written address gives the value written. -/
theorem cellsRead_cellsWrite_self (m : List (Nat × α)) (a : Nat) (v : α) : cellsRead (cellsWrite m a v) a = some v := by
  induction m with
  | nil => simp [cellsWrite, cellsRead]
  | cons c m ih =>
    rw [cellsWrite]
    split
    · simp [cellsRead]
    · split
      · simp [cellsRead]
      · next h => rw [cellsRead, if_neg (Ne.symm h), ih]

/-- A write leaves every other address alone. -/
theorem cellsRead_cellsWrite_of_ne (m : List (Nat × α)) {a b : Nat} (v : α) (h : b ≠ a) :
    cellsRead (cellsWrite m a v) b = cellsRead m b := by
  induction m with
  | nil => simp [cellsWrite, cellsRead, h.symm]
  | cons c m ih =>
    rw [cellsWrite]
    split
    · rw [cellsRead, if_neg h.symm]
    · split
      · next e => subst e; rw [cellsRead, if_neg h.symm, cellsRead, if_neg h.symm]
      · rw [cellsRead, cellsRead, ih]

/-- An erasure leaves every other address alone. -/
theorem cellsRead_cellsErase_of_ne (m : List (Nat × α)) {a b : Nat} (h : b ≠ a) :
    cellsRead (cellsErase m a) b = cellsRead m b := by
  induction m with
  | nil => rfl
  | cons c m ih =>
    rw [cellsErase]
    split
    · next e => rw [cellsRead, if_neg (e ▸ h.symm)]
    · rw [cellsRead, cellsRead, ih]

theorem mem_cellsErase {m : List (Nat × α)} {a : Nat} {c : Nat × α} (h : c ∈ cellsErase m a) : c ∈ m := by
  induction m with
  | nil => cases h
  | cons d m ih =>
    rw [cellsErase] at h
    split at h
    · exact List.mem_cons_of_mem _ h
    · rcases List.mem_cons.1 h with rfl | h
      · exact List.mem_cons_self
      · exact List.mem_cons_of_mem _ (ih h)

theorem mem_cellsWrite {m : List (Nat × α)} {a : Nat} {v : α} {c : Nat × α} (h : c ∈ cellsWrite m a v) :
    c = (a, v) ∨ c ∈ m := by
  induction m with
  | nil => exact .inl (List.mem_singleton.1 h)
  | cons d m ih =>
    rw [cellsWrite] at h
    split at h
    · exact (List.mem_cons.1 h).imp_right id
    · split at h
      · exact (List.mem_cons.1 h).imp_right (List.mem_cons_of_mem _)
      · rcases List.mem_cons.1 h with rfl | h
        · exact .inr List.mem_cons_self
        · exact (ih h).imp_right (List.mem_cons_of_mem _)

/-- An erased address is not listed. -/
theorem cellsRead_cellsErase_self {m : List (Nat × α)} (hm : cellsRising m) (a : Nat) : cellsRead (cellsErase m a) a = none := by
  induction m with
  | nil => rfl
  | cons c m ih =>
    obtain ⟨hc, hm⟩ := List.pairwise_cons.1 hm
    rw [cellsErase]
    split
    · next e => exact cellsRead_eq_none_of_forall_lt fun x hx => e ▸ hc x hx
    · next h => rw [cellsRead, if_neg h, ih hm]

/-- A write keeps the addresses rising. -/
theorem cellsRising_cellsWrite {m : List (Nat × α)} (hm : cellsRising m) (a : Nat) (v : α) : cellsRising (cellsWrite m a v) := by
  induction m with
  | nil => exact List.pairwise_singleton _ _
  | cons c m ih =>
    obtain ⟨hc, hm'⟩ := List.pairwise_cons.1 hm
    rw [cellsWrite]
    split
    · next h =>
      refine List.pairwise_cons.2 ⟨fun x hx => ?_, hm⟩
      rcases List.mem_cons.1 hx with rfl | hx
      · exact h
      · exact h.trans (hc x hx)
    · split
      · next e => exact List.pairwise_cons.2 ⟨fun x hx => e ▸ hc x hx, hm'⟩
      · refine List.pairwise_cons.2 ⟨fun x hx => ?_, ih hm'⟩
        rcases mem_cellsWrite hx with rfl | hx
        · show c.1 < a; omega
        · exact hc x hx

/-- An erasure keeps the addresses rising. -/
theorem cellsRising_cellsErase {m : List (Nat × α)} (hm : cellsRising m) (a : Nat) : cellsRising (cellsErase m a) := by
  induction m with
  | nil => exact hm
  | cons c m ih =>
    obtain ⟨hc, hm'⟩ := List.pairwise_cons.1 hm
    rw [cellsErase]
    split
    · exact hm'
    · exact List.pairwise_cons.2 ⟨fun x hx => hc x (mem_cellsErase hx), ih hm'⟩

/-- Two lists in canonical form that read alike everywhere are equal data. -/
theorem cells_ext {m m' : List (Nat × α)} (hm : cellsRising m) (hm' : cellsRising m')
    (h : ∀ a, cellsRead m a = cellsRead m' a) : m = m' := by
  induction m generalizing m' with
  | nil =>
    cases m' with
    | nil => rfl
    | cons c' m' => have := h c'.1; simp [cellsRead] at this
  | cons c m ih =>
    obtain ⟨hc, hmt⟩ := List.pairwise_cons.1 hm
    cases m' with
    | nil => have := h c.1; simp [cellsRead] at this
    | cons c' m' =>
      obtain ⟨hc', hmt'⟩ := List.pairwise_cons.1 hm'
      have key : c.1 = c'.1 := by
        rcases Nat.lt_trichotomy c.1 c'.1 with hlt | he | hlt
        · have := h c.1
          rw [cellsRead, if_pos rfl, cellsRead, if_neg hlt.ne',
            cellsRead_eq_none_of_forall_lt fun x hx => hlt.trans (hc' x hx)] at this
          cases this
        · exact he
        · have := h c'.1
          rw [cellsRead, if_neg hlt.ne', cellsRead_eq_none_of_forall_lt fun x hx => hlt.trans (hc x hx), cellsRead,
            if_pos rfl] at this
          cases this
      have val : c.2 = c'.2 := by
        have := h c.1
        rw [cellsRead, if_pos rfl, cellsRead, if_pos key.symm] at this
        exact Option.some.inj this
      have tail : m = m' := by
        refine ih hmt hmt' fun a => ?_
        by_cases ha : c.1 = a
        · rw [cellsRead_eq_none_of_forall_lt fun x hx => ha ▸ hc x hx,
            cellsRead_eq_none_of_forall_lt fun x hx => ha ▸ key ▸ hc' x hx]
        · have := h a
          rwa [cellsRead, if_neg ha, cellsRead, if_neg (key ▸ ha)] at this
      rw [tail, Prod.ext key val]

/-- A write beyond every listed address adds a cell at the end. -/
theorem cellsWrite_of_forall_lt {m : List (Nat × α)} {a : Nat} (h : ∀ c ∈ m, c.1 < a) (v : α) :
    cellsWrite m a v = m ++ [(a, v)] := by
  induction m with
  | nil => rfl
  | cons c m ih =>
    have hc : c.1 < a := h c List.mem_cons_self
    rw [cellsWrite, if_neg (by omega), if_neg (by omega), ih fun x hx => h x (List.mem_cons_of_mem _ hx), List.cons_append]

/-! ### The payload memory -/

theorem Memory.read_write_self (m : Memory) (a : Nat) (v : Byte) : (m.write a v).read a = some v :=
  cellsRead_cellsWrite_self m a v

theorem Memory.read_write_of_ne (m : Memory) {a b : Nat} (v : Byte) (h : b ≠ a) : (m.write a v).read b = m.read b :=
  cellsRead_cellsWrite_of_ne m v h

theorem Memory.wf_write {m : Memory} (hm : Memory.wf m) (a : Nat) (v : Byte) : Memory.wf (m.write a v) :=
  cellsRising_cellsWrite hm a v

theorem Memory.wf_empty : Memory.wf [] := List.Pairwise.nil

theorem Memory.wf_reset : Memory.wf State.reset.pay := Memory.wf_empty

/-- Equal payload memories are equal data. -/
theorem Memory.ext_read {m m' : Memory} (hm : Memory.wf m) (hm' : Memory.wf m') (h : ∀ a, m.read a = m'.read a) : m = m' :=
  cells_ext hm hm' h

/-! ### The histograms -/

theorem Hist.read_write_self {h : Hist} (hh : Hist.wf h) (v : Nat) (x : Nat) : (h.write v x).read v = x := by
  unfold Hist.write Hist.read
  split
  · next e => rw [cellsRead_cellsErase_self hh.1, e]; rfl
  · rw [cellsRead_cellsWrite_self]; rfl

theorem Hist.read_write_of_ne (h : Hist) {v w : Nat} (x : Nat) (hne : w ≠ v) : (h.write v x).read w = h.read w := by
  unfold Hist.write Hist.read
  split
  · rw [cellsRead_cellsErase_of_ne h hne]
  · rw [cellsRead_cellsWrite_of_ne h x hne]

theorem Hist.wf_write {h : Hist} (hh : Hist.wf h) (v : Nat) (x : Nat) : Hist.wf (h.write v x) := by
  unfold Hist.write
  split
  · exact ⟨cellsRising_cellsErase hh.1 v, fun c hc => hh.2 c (mem_cellsErase hc)⟩
  · next hx =>
    refine ⟨cellsRising_cellsWrite hh.1 v x, fun c hc => ?_⟩
    rcases mem_cellsWrite hc with rfl | hc
    · exact hx
    · exact hh.2 c hc

theorem Hist.wf_empty : Hist.wf [] := ⟨List.Pairwise.nil, fun _ h => nomatch h⟩

/-- Equal histograms are equal data. -/
theorem Hist.ext_read {h h' : Hist} (hh : Hist.wf h) (hh' : Hist.wf h') (e : ∀ v, h.read v = h'.read v) : h = h' := by
  refine cells_ext hh.1 hh'.1 fun a => ?_
  have := e a
  unfold Hist.read at this
  cases ha : cellsRead h a with
  | none =>
    cases hb : cellsRead h' a with
    | none => rfl
    | some y => rw [ha, hb] at this; exact absurd this.symm (hh'.2 _ (mem_of_cellsRead hb))
  | some x =>
    cases hb : cellsRead h' a with
    | none => rw [ha, hb] at this; exact absurd this (hh.2 _ (mem_of_cellsRead ha))
    | some y => rw [ha, hb] at this; exact congrArg some this

/-- Incrementing a bin adds one to the sum of all bins (R35). -/
theorem Hist.total_write_succ {h : Hist} (hh : Hist.wf h) (v : Nat) : (h.write v (h.read v + 1)).total = h.total + 1 := by
  have key : ∀ (m : List (Nat × Nat)) (x : Nat), cellsRising m → x = (cellsRead m v).getD 0 + 1 →
      Hist.total (cellsWrite m v x) = Hist.total m + 1 := by
    intro m x hm hx
    induction m with
    | nil => simp only [cellsRead, Option.getD_none] at hx; simp [cellsWrite, Hist.total, hx]
    | cons c m ih =>
      obtain ⟨hc, hm'⟩ := List.pairwise_cons.1 hm
      rw [cellsWrite]
      split
      · next hlt =>
        rw [cellsRead, if_neg hlt.ne', cellsRead_eq_none_of_forall_lt fun y hy => hlt.trans (hc y hy)] at hx
        simp only [Option.getD_none] at hx
        simp [Hist.total, hx]; omega
      · split
        · next e =>
          rw [cellsRead, if_pos e.symm] at hx
          simp only [Option.getD_some] at hx
          simp [Hist.total, hx]; omega
        · next hne =>
          rw [cellsRead, if_neg (Ne.symm hne)] at hx
          have := ih hm' hx
          simp only [Hist.total, List.map_cons, List.sum_cons] at this ⊢
          omega
  rw [Hist.write, if_neg (Nat.succ_ne_zero _)]
  exact key h _ hh.1 rfl

end Sys2Proof.Machine
end

