-- ==== Sys2Proof/Laws/Response.lean ====
section
/-! SUPPORT. The response word and the two ends of a command: what `complete` and `refuse` answer, said once, and the fields read
back from a response (spec/30_encoding.md R88, spec/60_exceptions.md R268). -/

namespace Sys2Proof.Machine

/-- Concatenation as arithmetic (R14). -/
theorem toNat_append_eq_add {m n : Nat} (x : BitVec m) (y : BitVec n) : (x ++ y).toNat = x.toNat * 2 ^ n + y.toNat := by
  rw [BitVec.toNat_append, ← Nat.shiftLeft_add_eq_or_of_lt y.isLt, Nat.shiftLeft_eq]

theorem toNat_ofBool_eq_toNat (b : Bool) : (BitVec.ofBool b).toNat = b.toNat := by cases b <;> rfl

/-- The packed response is the word of R88. -/
theorem Response.some_word (r : Response) : some r.word = answer r.st.code r.b r.inv r.aux r.val := by
  unfold answer Response.word
  refine congrArg some (BitVec.eq_of_toNat_eq ?_)
  have := r.st.code.isLt
  have := r.aux.isLt
  have := r.val.isLt
  have := Bool.toNat_le r.b
  have := Bool.toNat_le r.inv
  have h0 : (0 : BitVec 6).toNat = 0 := rfl
  simp only [toNat_append_eq_add, toNat_ofBool_eq_toNat, BitVec.toNat_ofNat, h0]
  omega

/-- What a completed command answers. -/
theorem complete_eq (st : Status) (b : Bool) (aux : BitVec 16) (val : Reg32) (s : State) :
    complete st b aux val s = .next { s with resp := answer st.code b s.bs.inv aux val } := by
  simp only [complete, Response.some_word]

/-- What a refused command answers. -/
theorem refuse_eq (f : CmdFault) (s : State) : refuse f s = .next (s.refusedWith f.bit f.code) := by
  simp only [refuse, Response.some_word, State.refusedWith, Status.code]

/-- `complete` always answers a next state, and only that one. -/
theorem complete_eq_next_iff (st : Status) (b : Bool) (aux : BitVec 16) (val : Reg32) (s t : State) :
    complete st b aux val s = .next t ↔ t = { s with resp := answer st.code b s.bs.inv aux val } := by
  rw [complete_eq, Host.Outcome.next.injEq]; exact eq_comm

/-- `refuse` always answers a next state, and only that one. -/
theorem refuse_eq_next_iff (f : CmdFault) (s t : State) :
    refuse f s = .next t ↔ t = s.refusedWith f.bit f.code := by
  rw [refuse_eq, Host.Outcome.next.injEq]; exact eq_comm

/-- The packed number read back, field by field. -/
theorem answer_toNat (st : BitVec 8) (b inv : Bool) (aux : BitVec 16) (val : BitVec 32) :
    ((answer st b inv aux val).getD 0).toNat
      = st.toNat * 2 ^ 56 + b.toNat * 2 ^ 55 + inv.toNat * 2 ^ 54 + aux.toNat * 2 ^ 32 + val.toNat := by
  have := st.isLt
  have := aux.isLt
  have := val.isLt
  have := Bool.toNat_le b
  have := Bool.toNat_le inv
  simp only [answer, Option.getD_some, BitVec.toNat_ofNat]
  omega

@[simp] theorem statusByte_of_resp {t : State} {st : BitVec 8} {b inv : Bool} {aux : BitVec 16} {val : BitVec 32}
    (h : t.resp = answer st b inv aux val) : t.statusByte = st := by
  apply BitVec.eq_of_toNat_eq
  have := st.isLt
  have := aux.isLt
  have := val.isLt
  have := Bool.toNat_le b
  have := Bool.toNat_le inv
  rw [State.statusByte, h, BitVec.extractLsb'_toNat, answer_toNat, Nat.shiftRight_eq_div_pow]
  omega

@[simp] theorem resultVal_of_resp {t : State} {st : BitVec 8} {b inv : Bool} {aux : BitVec 16} {val : BitVec 32}
    (h : t.resp = answer st b inv aux val) : t.resultVal = val.toNat := by
  have := val.isLt
  rw [State.resultVal, h, BitVec.extractLsb'_toNat, answer_toNat, Nat.shiftRight_eq_div_pow]
  omega

@[simp] theorem resultBit_of_resp {t : State} {st : BitVec 8} {b inv : Bool} {aux : BitVec 16} {val : BitVec 32}
    (h : t.resp = answer st b inv aux val) : t.resultBit = b := by
  have := aux.isLt
  have := val.isLt
  have := Bool.toNat_le inv
  rw [State.resultBit, h, BitVec.getLsbD, Nat.testBit_eq_decide_div_mod_eq, answer_toNat]
  cases b <;> simp only [Bool.toNat_false, Bool.toNat_true, decide_eq_false_iff_not, decide_eq_true_eq] <;> omega

end Sys2Proof.Machine
end

