-- ==== Sys2Proof/Laws/Encoding.lean ====
section
/-! SUPPORT. The fields of an encoded command word (spec/30_encoding.md R85) read back. -/

namespace Sys2Proof

open Sys2Proof.Machine (toNat_append_eq_add)

theorem commandWord_toNat (op w : BitVec 8) (imm : BitVec 32) :
    (commandWord op w imm).toNat = op.toNat * 2 ^ 56 + w.toNat * 2 ^ 48 + imm.toNat := by
  have h0 : (0 : BitVec 16).toNat = 0 := rfl
  rw [commandWord, toNat_append_eq_add, toNat_append_eq_add, toNat_append_eq_add, h0]
  omega

@[simp] theorem fieldOp_commandWord (op w : BitVec 8) (imm : BitVec 32) : fieldOp (commandWord op w imm) = op := by
  apply BitVec.eq_of_toNat_eq
  have := op.isLt; have := w.isLt; have := imm.isLt
  rw [fieldOp, BitVec.extractLsb'_toNat, commandWord_toNat, Nat.shiftRight_eq_div_pow]
  omega

@[simp] theorem fieldW_commandWord (op w : BitVec 8) (imm : BitVec 32) : fieldW (commandWord op w imm) = w := by
  apply BitVec.eq_of_toNat_eq
  have := op.isLt; have := w.isLt; have := imm.isLt
  rw [fieldW, BitVec.extractLsb'_toNat, commandWord_toNat, Nat.shiftRight_eq_div_pow]
  omega

@[simp] theorem fieldZ_commandWord (op w : BitVec 8) (imm : BitVec 32) : fieldZ (commandWord op w imm) = 0 := by
  apply BitVec.eq_of_toNat_eq
  have := op.isLt; have := w.isLt; have := imm.isLt
  have h0 : (0 : BitVec 16).toNat = 0 := rfl
  rw [fieldZ, BitVec.extractLsb'_toNat, commandWord_toNat, Nat.shiftRight_eq_div_pow, h0]
  omega

@[simp] theorem fieldImm_commandWord (op w : BitVec 8) (imm : BitVec 32) : fieldImm (commandWord op w imm) = imm := by
  apply BitVec.eq_of_toNat_eq
  have := op.isLt; have := w.isLt; have := imm.isLt
  rw [fieldImm, BitVec.extractLsb'_toNat, commandWord_toNat, Nat.shiftRight_eq_div_pow]
  omega

@[simp] theorem fieldImmHi_commandWord (op w : BitVec 8) (hi lo : BitVec 16) :
    fieldImmHi (commandWord op w (hi ++ lo)) = hi := by
  apply BitVec.eq_of_toNat_eq
  have := op.isLt; have := w.isLt; have := hi.isLt; have := lo.isLt
  rw [fieldImmHi, BitVec.extractLsb'_toNat, commandWord_toNat, toNat_append_eq_add, Nat.shiftRight_eq_div_pow]
  omega

@[simp] theorem fieldImmLo_commandWord (op w : BitVec 8) (hi lo : BitVec 16) :
    fieldImmLo (commandWord op w (hi ++ lo)) = lo := by
  apply BitVec.eq_of_toNat_eq
  have := op.isLt; have := w.isLt; have := hi.isLt; have := lo.isLt
  rw [fieldImmLo, BitVec.extractLsb'_toNat, commandWord_toNat, toNat_append_eq_add, Nat.shiftRight_eq_div_pow]
  omega

/-- A word is its four fields (R85). -/
theorem fields_toNat (cw : Word64) :
    cw.toNat = (fieldOp cw).toNat * 2 ^ 56 + (fieldW cw).toNat * 2 ^ 48 + (fieldZ cw).toNat * 2 ^ 32 + (fieldImm cw).toNat := by
  have := cw.isLt
  simp only [fieldOp, fieldW, fieldZ, fieldImm, BitVec.extractLsb'_toNat, Nat.shiftRight_eq_div_pow]
  omega

/-- A word whose field `z` is 0 is the command word of its other fields (R85). -/
theorem commandWord_fields {cw : Word64} (h : fieldZ cw = 0) : commandWord (fieldOp cw) (fieldW cw) (fieldImm cw) = cw := by
  apply BitVec.eq_of_toNat_eq
  have h0 : (0 : BitVec 16).toNat = 0 := rfl
  have := fields_toNat cw
  rw [h, h0] at this
  rw [commandWord_toNat]
  omega

/-- The field `imm` is its two halves (R86). -/
theorem fieldImm_eq_halves (cw : Word64) : fieldImm cw = fieldImmHi cw ++ fieldImmLo cw := by
  apply BitVec.eq_of_toNat_eq
  rw [toNat_append_eq_add]
  simp only [fieldImm, fieldImmHi, fieldImmLo, BitVec.extractLsb'_toNat, Nat.shiftRight_eq_div_pow]
  omega

/-! ### Masks (R86, R90): a masked word is compared field by field -/

/-- A word of the four fields of R85, `z` included. -/
def wordOfFields (op w : BitVec 8) (z : BitVec 16) (imm : BitVec 32) : Word64 := op ++ w ++ z ++ imm

theorem wordOfFields_toNat (op w : BitVec 8) (z : BitVec 16) (imm : BitVec 32) :
    (wordOfFields op w z imm).toNat = op.toNat * 2 ^ 56 + w.toNat * 2 ^ 48 + z.toNat * 2 ^ 32 + imm.toNat := by
  rw [wordOfFields, toNat_append_eq_add, toNat_append_eq_add, toNat_append_eq_add]
  omega

theorem wordOfFields_fields (cw : Word64) : wordOfFields (fieldOp cw) (fieldW cw) (fieldZ cw) (fieldImm cw) = cw := by
  apply BitVec.eq_of_toNat_eq
  rw [wordOfFields_toNat, ← fields_toNat]

theorem wordOfFields_inj {op op' w w' : BitVec 8} {z z' : BitVec 16} {imm imm' : BitVec 32} :
    wordOfFields op w z imm = wordOfFields op' w' z' imm' ↔ op = op' ∧ w = w' ∧ z = z' ∧ imm = imm' := by
  constructor
  · intro h
    have h := congrArg BitVec.toNat h
    have := w.isLt; have := w'.isLt; have := z.isLt; have := z'.isLt; have := imm.isLt; have := imm'.isLt
    rw [wordOfFields_toNat, wordOfFields_toNat] at h
    refine ⟨BitVec.eq_of_toNat_eq ?_, BitVec.eq_of_toNat_eq ?_, BitVec.eq_of_toNat_eq ?_, BitVec.eq_of_toNat_eq ?_⟩ <;> omega
  · rintro ⟨rfl, rfl, rfl, rfl⟩
    rfl

theorem and_wordOfFields (op op' w w' : BitVec 8) (z z' : BitVec 16) (imm imm' : BitVec 32) :
    wordOfFields op w z imm &&& wordOfFields op' w' z' imm'
      = wordOfFields (op &&& op') (w &&& w') (z &&& z') (imm &&& imm') := by
  have h1 : (op ++ w) &&& (op' ++ w') = (op &&& op') ++ (w &&& w') := BitVec.and_append
  have h2 : (op ++ w ++ z) &&& (op' ++ w' ++ z') = (op &&& op') ++ (w &&& w') ++ (z &&& z') := by
    rw [← h1]; exact BitVec.and_append
  rw [wordOfFields, wordOfFields, wordOfFields, ← h2]
  exact BitVec.and_append

/-- The comparison of R90, field by field. -/
theorem and_mask_eq_iff (cw : Word64) (mop mw op w : BitVec 8) (mz z : BitVec 16) (mimm imm : BitVec 32) :
    cw &&& wordOfFields mop mw mz mimm = wordOfFields op w z imm ↔
      fieldOp cw &&& mop = op ∧ fieldW cw &&& mw = w ∧ fieldZ cw &&& mz = z ∧ fieldImm cw &&& mimm = imm := by
  rw [← wordOfFields_inj, ← and_wordOfFields, wordOfFields_fields]

end Sys2Proof
end

