-- ==== Sys2Proof/Laws/Execution.lean ====
section
/-! SUPPORT. How a command can end, said once for every instruction: refused whole, completed, or, `RDPAY` alone, stopped for want
of a value (spec/60_exceptions.md R260, R268; log entry 4). -/

namespace Sys2Proof.Machine

/-- A command completed from `s`: some state, no fault code, and the sticky bits kept or, by `RESET`, cleared. -/
def CompletedFrom (s : State) (clears : Bool) (r : Result) : Prop :=
  ∃ (st : Status) (b : Bool) (aux : BitVec 16) (val : Reg32) (u : State),
    r = complete st b aux val u ∧ (∀ f, st ≠ .err f) ∧ u.sysFault = if clears then 0 else s.sysFault

/-- A command ended without a stop. -/
def EndsFrom (s : State) (r : Result) : Prop := (∃ f, r = refuse f s) ∨ CompletedFrom s false r

theorem CompletedFrom.of_complete {s u : State} {st : Status} {b : Bool} {aux : BitVec 16} {val : Reg32}
    (hst : ∀ f, st ≠ .err f) (hu : u.sysFault = s.sysFault) : CompletedFrom s false (complete st b aux val u) :=
  ⟨st, b, aux, val, u, rfl, hst, hu⟩

theorem EndsFrom.of_complete {s u : State} {st : Status} {b : Bool} {aux : BitVec 16} {val : Reg32}
    (hst : ∀ f, st ≠ .err f) (hu : u.sysFault = s.sysFault) : EndsFrom s (complete st b aux val u) :=
  .inr (.of_complete hst hu)

theorem EndsFrom.of_refuse (s : State) (f : CmdFault) : EndsFrom s (refuse f s) := .inl ⟨f, rfl⟩

theorem completeEmit_completedFrom {s u : State} (emit : Option Nat) (hu : u.sysFault = s.sysFault) :
    CompletedFrom s false (completeEmit emit u) := by
  cases emit <;> exact .of_complete (fun _ => nofun) hu

theorem completeSearch_completedFrom (r : Bool × Scan) (s : State) : CompletedFrom s false (completeSearch r s) :=
  .of_complete (fun _ => nofun) rfl

theorem completeAttempt_completedFrom (r : DecodeCode × ParState) (s : State) : CompletedFrom s false (completeAttempt r s) :=
  .of_complete (fun _ => nofun) rfl

theorem finishTone_completedFrom {s u : State} (hu : u.sysFault = s.sysFault) : CompletedFrom s false (finishTone u) := by
  unfold finishTone
  split <;> exact .of_complete (fun _ => nofun) hu

theorem addTone_ends (d : Nat) (s : State) : EndsFrom s (addTone d s) := by
  unfold addTone
  split
  · split
    · exact .of_refuse s _
    · exact .inr (finishTone_completedFrom rfl)
  · exact .inr (finishTone_completedFrom rfl)

theorem addDuration_ends (d : Nat) (s : State) : EndsFrom s (addDuration d s) := by
  unfold addDuration
  split
  · exact .of_complete (fun _ => nofun) rfl
  all_goals
    dsimp only
    split
    · exact .of_refuse s _
    · split
      · exact .of_refuse s _
      · exact .of_complete (fun _ => nofun) rfl

theorem execPushDur_ends (d : Duration) (s : State) : EndsFrom s (execPushDur d s) := by
  unfold execPushDur
  split
  · exact .of_refuse s _
  · exact addTone_ends _ s
  · exact addDuration_ends _ s

/-- The commands no fault can refuse, but `RESET` (R269). -/
theorem exec_completes (s : State) :
    CompletedFrom s false (execSegReset s) ∧ CompletedFrom s false (execSegFlush s) ∧ CompletedFrom s false (execDemRearm s)
    ∧ CompletedFrom s false (execBsReset s) ∧ (∀ n, CompletedFrom s false (execBsOffset n s))
    ∧ CompletedFrom s false (execBsFindSync s) ∧ CompletedFrom s false (execBsTrim s)
    ∧ CompletedFrom s false (execParClassify s) ∧ CompletedFrom s false (execParRadio s)
    ∧ CompletedFrom s false (execParOrion s) ∧ CompletedFrom s false (execParRaw s) ∧ CompletedFrom s false (execParAuto s) :=
  ⟨.of_complete (fun _ => nofun) rfl, completeEmit_completedFrom _ rfl, .of_complete (fun _ => nofun) rfl,
    .of_complete (fun _ => nofun) rfl, fun _ => .of_complete (fun _ => nofun) rfl, completeSearch_completedFrom _ s,
    .of_complete (fun _ => nofun) rfl, .of_complete (fun _ => nofun) rfl, completeAttempt_completedFrom _ s,
    completeAttempt_completedFrom _ s, completeAttempt_completedFrom _ s, .of_complete (fun _ => nofun) rfl⟩

/-- How every command ends. -/
theorem exec_ends (i : Instr) (s : State) :
    EndsFrom s (exec i s)
    ∨ (i = .reset ∧ CompletedFrom s true (exec i s))
    ∨ ∃ k, i = .rdpay k ∧ exec i s = .fault .payloadUnwritten := by
  obtain ⟨h1, h2, h3, h4, h5, h6, h7, h8, h9, h10, h11, h12⟩ := exec_completes s
  cases i with
  | reset => exact .inr (.inl ⟨rfl, _, _, _, _, _, rfl, fun _ => nofun, rfl⟩)
  | rdreg reg =>
    refine .inl ?_
    dsimp only [exec, execRdreg]
    split
    · exact .of_refuse s _
    · exact .of_complete (fun _ => nofun) rfl
  | wrreg reg value =>
    refine .inl ?_
    dsimp only [exec, execWrreg]
    split
    · exact .of_refuse s _
    · exact .of_complete (fun _ => nofun) rfl
  | rdhist cls bin =>
    refine .inl ?_
    dsimp only [exec, execRdhist]
    split
    · exact .of_refuse s _
    · split
      · exact .of_complete (fun _ => nofun) rfl
      · exact .of_refuse s _
  | rdpay index =>
    dsimp only [exec, execRdpay]
    split
    · exact .inl (.of_refuse s _)
    · split
      · exact .inr (.inr ⟨index, rfl, rfl⟩)
      · exact .inl (.of_complete (fun _ => nofun) rfl)
  | segReset => exact .inl (.inr h1)
  | segAcc l r =>
    refine .inl ?_
    dsimp only [exec, execSegAcc]
    split
    · exact .of_refuse s _
    · split
      · exact .of_refuse s _
      · exact .of_complete (fun _ => nofun) rfl
  | segSample l r =>
    refine .inl ?_
    dsimp only [exec, execSegSample]
    split
    · exact .of_refuse s _
    · split
      · exact .inr (completeEmit_completedFrom _ rfl)
      · split
        · exact .inr (completeEmit_completedFrom _ rfl)
        · split
          · exact .of_refuse s _
          · exact .inr (completeEmit_completedFrom _ rfl)
  | segFlush => exact .inl (.inr h2)
  | demRearm => exact .inl (.inr h3)
  | pushDur d => exact .inl (execPushDur_ends d s)
  | bsReset => exact .inl (.inr h4)
  | bsOffset n => exact .inl (.inr (h5 n))
  | bsHex w =>
    refine .inl ?_
    dsimp only [exec, execBsHex]
    split
    · exact .of_refuse s _
    · split
      · exact .of_refuse s _
      · exact .of_complete (fun _ => nofun) rfl
  | bsFind w target mask =>
    refine .inl ?_
    dsimp only [exec, execBsFind]
    split
    · exact .of_refuse s _
    · exact .inr (completeSearch_completedFrom _ s)
  | bsFindSync => exact .inl (.inr h6)
  | bsTrim => exact .inl (.inr h7)
  | bsAppend w v =>
    refine .inl ?_
    dsimp only [exec, execBsAppend]
    split
    · exact .of_refuse s _
    · split
      · exact .of_refuse s _
      · exact .of_complete (fun _ => nofun) rfl
  | parClassify => exact .inl (.inr h8)
  | parRadio => exact .inl (.inr h9)
  | parOrion => exact .inl (.inr h10)
  | parRaw => exact .inl (.inr h11)
  | parAuto => exact .inl (.inr h12)

/-- The code of a status that is no fault lies below the fault codes (R96 to R98). -/
theorem Status.code_lt_of_not_err {st : Status} (h : ∀ f, st ≠ .err f) : st.code.toNat < 0xE0 := by
  cases st with
  | decode c => cases c <;> decide
  | dem c => cases c <;> decide
  | done => decide
  | err f => exact absurd rfl (h f)

/-- Every fault code and bit pair (R269). -/
theorem CmdFault.code_bit (f : CmdFault) :
    (f.bit, f.code) ∈ [((0x01 : BitVec 8), (0xE0 : BitVec 8)), (0x02, 0xE1), (0x04, 0xE2), (0x08, 0xE3), (0x10, 0xE4)] := by
  cases f <;> decide

end Sys2Proof.Machine
end

