-- ==== Sys2Proof/Laws/Window.lean ====
section
/-! SUPPORT. Windows over the bit memory: `memRead` as a sum, its bound, concatenation (spec/20_memory.md R65), padding (R64),
windows of appended, dropped and flipped bits, and `hex` without exclusive-or (spec/42_bitstream.md R171). -/

namespace Sys2Proof.Machine

theorem bitAt_le_one (bits : List Bool) (i : Nat) : bitAt bits i ≤ 1 := Bool.toNat_le _

@[simp] theorem bitAt_of_length_le {bits : List Bool} {i : Nat} (h : bits.length ≤ i) : bitAt bits i = 0 := by
  rw [bitAt, List.getElem?_eq_none h]; rfl

theorem memRead_lt (bits : List Bool) (a n : Nat) : memRead bits a n < 2 ^ n := by
  induction n with
  | zero => exact Nat.one_pos
  | succ n ih =>
    have := bitAt_le_one bits (a + n)
    rw [memRead, Nat.pow_succ]
    omega

/-- `MemRead` as the sum of R64. -/
theorem memRead_eq_sum (bits : List Bool) (a n : Nat) :
    memRead bits a n = ∑ k ∈ Finset.range n, bitAt bits (a + k) * 2 ^ (n - 1 - k) := by
  induction n with
  | zero => rfl
  | succ n ih =>
    rw [memRead, ih, Finset.sum_range_succ, Finset.mul_sum]
    congr 1
    · refine Finset.sum_congr rfl fun k hk => ?_
      have hk : k < n := Finset.mem_range.1 hk
      have e : n + 1 - 1 - k = (n - 1 - k) + 1 := by omega
      rw [e, Nat.pow_succ]
      ring
    · simp

/-- A wide read is the concatenation of narrow reads (R65). -/
theorem memRead_add (bits : List Bool) (a n₁ n₂ : Nat) :
    memRead bits a (n₁ + n₂) = memRead bits a n₁ * 2 ^ n₂ + memRead bits (a + n₁) n₂ := by
  induction n₂ with
  | zero => simp [memRead]
  | succ n ih => rw [← Nat.add_assoc, memRead, ih, memRead, Nat.pow_succ, Nat.add_assoc a n₁ n]; ring

/-- Two windows with the same bits have the same value. -/
theorem memRead_congr {bits bits' : List Bool} {a a' n : Nat} (h : ∀ k, k < n → bitAt bits (a + k) = bitAt bits' (a' + k)) :
    memRead bits a n = memRead bits' a' n := by
  induction n with
  | zero => rfl
  | succ n ih => rw [memRead, memRead, ih fun k hk => h k (by omega), h n (by omega)]

/-- A window wholly beyond the end is padding (R64). -/
theorem memRead_of_length_le {bits : List Bool} {a : Nat} (h : bits.length ≤ a) (n : Nat) : memRead bits a n = 0 := by
  induction n with
  | zero => rfl
  | succ n ih => rw [memRead, ih, bitAt_of_length_le (by omega)]

theorem bitAt_append_left {bits : List Bool} {i : Nat} (h : i < bits.length) (new : List Bool) :
    bitAt (bits ++ new) i = bitAt bits i := by
  rw [bitAt, bitAt, List.getElem?_append_left h]

theorem bitAt_append_right (bits new : List Bool) (i : Nat) : bitAt (bits ++ new) (bits.length + i) = bitAt new i := by
  rw [bitAt, bitAt, List.getElem?_append_right (Nat.le_add_right _ _), Nat.add_sub_cancel_left]

/-- An append changes no window that lies inside the bits already held (R66). -/
theorem memRead_append_left {bits : List Bool} {a n : Nat} (h : a + n ≤ bits.length) (new : List Bool) :
    memRead (bits ++ new) a n = memRead bits a n :=
  memRead_congr fun _ hk => bitAt_append_left (by omega) new

theorem memRead_append_right (bits new : List Bool) (a n : Nat) :
    memRead (bits ++ new) (bits.length + a) n = memRead new a n :=
  memRead_congr fun k _ => by rw [Nat.add_assoc, bitAt_append_right]

/-- Dropping a prefix renumbers the windows (R72, R182). -/
theorem memRead_drop (bits : List Bool) (k a n : Nat) : memRead (bits.drop k) a n = memRead bits (k + a) n :=
  memRead_congr fun j _ => by rw [bitAt, bitAt, List.getElem?_drop, Nat.add_assoc]

/-! ### The bits of a value (R66) -/

@[simp] theorem length_bitsOf (v n : Nat) : (bitsOf v n).length = n := by
  induction n with
  | zero => rfl
  | succ n ih => rw [bitsOf, List.length_cons, ih]

theorem getElem?_bitsOf {v n k : Nat} (h : k < n) : (bitsOf v n)[k]? = some (v.testBit (n - 1 - k)) := by
  induction n generalizing k with
  | zero => omega
  | succ n ih =>
    cases k with
    | zero => rfl
    | succ k =>
      rw [bitsOf, List.getElem?_cons_succ, ih (by omega)]
      congr 2
      omega

/-- The low bits of a value read back as that value (R183). -/
theorem memRead_bitsOf (v n : Nat) : memRead (bitsOf v n) 0 n = v % 2 ^ n := by
  have key : ∀ j, j ≤ n → memRead (bitsOf v n) 0 j = v / 2 ^ (n - j) % 2 ^ j := by
    intro j
    induction j with
    | zero => intro _; rw [memRead, Nat.pow_zero, Nat.mod_one]
    | succ j ih =>
      intro hj
      have e : v / 2 ^ (n - j) = v / 2 ^ (n - (j + 1)) / 2 := by
        rw [Nat.div_div_eq_div_mul, ← Nat.pow_succ]
        congr 2
        omega
      have hbit : bitAt (bitsOf v n) (0 + j) = v / 2 ^ (n - (j + 1)) % 2 := by
        rw [Nat.zero_add, bitAt, getElem?_bitsOf (by omega), Option.getD_some, Nat.toNat_testBit]
        congr 3
        omega
      rw [memRead, ih (by omega), hbit, e, Nat.pow_succ]
      generalize v / 2 ^ (n - (j + 1)) = x
      have : x % (2 ^ j * 2) = x % 2 + 2 * (x / 2 % 2 ^ j) := by
        rw [Nat.mul_comm, Nat.mod_mul]
      omega
  have := key n (Nat.le_refl n)
  rwa [Nat.sub_self, Nat.pow_zero, Nat.div_one] at this

/-! ### The inversion mask (R171) -/

/-- Exclusive-or with all ones subtracts from all ones. -/
theorem xor_mask_eq_sub {x w : Nat} (h : x < 2 ^ w) : x ^^^ (2 ^ w - 1) = 2 ^ w - 1 - x := by
  apply Nat.eq_of_testBit_eq
  intro i
  rw [Nat.testBit_xor, Nat.testBit_two_pow_sub_one, Nat.sub_sub, Nat.add_comm 1 x, Nat.testBit_two_pow_sub_succ h]
  by_cases hi : i < w
  · simp [hi]
  · have : x.testBit i = false := Nat.testBit_lt_two_pow (h.trans_le (Nat.pow_le_pow_right (by decide) (by omega)))
    simp [hi, this]

theorem hex_eq (bits : List Bool) (sc : Scan) (w : Nat) :
    hex bits sc w = if sc.inv then 2 ^ w - 1 - memRead bits sc.pos w else memRead bits sc.pos w := by
  unfold hex
  split
  · rw [xor_mask_eq_sub (memRead_lt bits sc.pos w)]
  · rfl

theorem hex_lt (bits : List Bool) (sc : Scan) (w : Nat) : hex bits sc w < 2 ^ w := by
  have := memRead_lt bits sc.pos w
  rw [hex_eq]
  split <;> omega

/-- With the whole window beyond the end the value is all zeros, or all ones under the flag (R171). -/
theorem hex_of_length_le {bits : List Bool} {sc : Scan} (h : bits.length ≤ sc.pos) (w : Nat) :
    hex bits sc w = if sc.inv then 2 ^ w - 1 else 0 := by
  rw [hex_eq, memRead_of_length_le h]; simp

theorem bitAt_map_not {bits : List Bool} {i : Nat} (h : i < bits.length) :
    bitAt (bits.map (fun b => b ^^ true)) i = 1 - bitAt bits i := by
  rw [bitAt, bitAt, List.getElem?_map, List.getElem?_eq_getElem h]
  cases bits[i] <;> rfl

theorem memRead_map_not {bits : List Bool} {a n : Nat} (h : a + n ≤ bits.length) :
    memRead (bits.map (fun b => b ^^ true)) a n = 2 ^ n - 1 - memRead bits a n := by
  induction n with
  | zero => rfl
  | succ n ih =>
    have := memRead_lt bits a n
    have := bitAt_le_one bits (a + n)
    rw [memRead, ih (by omega), bitAt_map_not (by omega), memRead, Nat.pow_succ]
    omega

/-- A tape recorded in either polarity reads alike under the flag that matches it, inside the bits held (R178). -/
theorem hex_map_xor {bits : List Bool} {a w : Nat} (h : a + w ≤ bits.length) (inv : Bool) :
    hex (bits.map (fun b => b ^^ inv)) { pos := a, inv := inv } w = memRead bits a w := by
  cases inv with
  | false => simp [hex]
  | true =>
    have := memRead_lt bits a w
    rw [hex_eq, if_pos rfl, memRead_map_not h]
    omega

end Sys2Proof.Machine
end

