-- ==== Sys2Proof/Laws/Search.lean ====
section
/-! SUPPORT. What a search can do, said once (spec/42_bitstream.md R176, R180, R181): it ends on the lowest matching position, the
non-inverted test first, or beyond the end. -/

namespace Sys2Proof.Machine

/-- The loop of `Find`: the first match among the `fuel` positions from `pos`, or the position after them. -/
theorem findLoop_cases (bits : List Bool) (t m w fuel pos : Nat) :
    (∃ sc, findLoop bits t m w fuel pos = (true, sc) ∧ pos ≤ sc.pos ∧ sc.pos < pos + fuel
      ∧ windowMatches bits t m w sc = true
      ∧ (sc.inv = true → windowMatches bits t m w { pos := sc.pos, inv := false } = false)
      ∧ ∀ p v, pos ≤ p → p < sc.pos → windowMatches bits t m w { pos := p, inv := v } = false)
    ∨ (findLoop bits t m w fuel pos = (false, { pos := pos + fuel, inv := false })
      ∧ ∀ p v, pos ≤ p → p < pos + fuel → windowMatches bits t m w { pos := p, inv := v } = false) := by
  induction fuel generalizing pos with
  | zero => exact .inr ⟨rfl, fun p v h1 h2 => by omega⟩
  | succ fuel ih =>
    rw [findLoop]
    split
    · next h => exact .inl ⟨_, rfl, Nat.le_refl _, Nat.lt_add_of_pos_right (by omega), h, nofun,
        fun p v h1 h2 => by simp only at h2; omega⟩
    · next h0 =>
      have h0 := Bool.not_eq_true _ ▸ h0
      split
      · next h => exact .inl ⟨_, rfl, Nat.le_refl _, Nat.lt_add_of_pos_right (by omega), h, fun _ => h0,
          fun p v h1 h2 => by simp only at h2; omega⟩
      · next h1 =>
        have h1 := Bool.not_eq_true _ ▸ h1
        have here : ∀ v, windowMatches bits t m w { pos := pos, inv := v } = false := fun v => by cases v <;> assumption
        rcases ih (pos + 1) with ⟨sc, he, hlo, hhi, hm, hi, hno⟩ | ⟨he, hno⟩
        · refine .inl ⟨sc, he, by omega, by omega, hm, hi, fun p v hp1 hp2 => ?_⟩
          rcases Nat.eq_or_lt_of_le hp1 with rfl | hp
          · exact here v
          · exact hno p v hp hp2
        · refine .inr ⟨by rw [he, Nat.add_right_comm, Nat.add_assoc], fun p v hp1 hp2 => ?_⟩
          rcases Nat.eq_or_lt_of_le hp1 with rfl | hp
          · exact here v
          · exact hno p v hp (by omega)

/-- What `Find` can end with (R176). -/
theorem find_cases (bits : List Bool) (t m w start : Nat) :
    (∃ sc, find bits t m w start = (true, sc) ∧ start ≤ sc.pos ∧ sc.pos ≤ bits.length
      ∧ windowMatches bits t m w sc = true
      ∧ (sc.inv = true → windowMatches bits t m w { pos := sc.pos, inv := false } = false)
      ∧ ∀ p v, start ≤ p → p < sc.pos → windowMatches bits t m w { pos := p, inv := v } = false)
    ∨ (find bits t m w start = (false, { pos := max start (bits.length + 1), inv := false })
      ∧ ∀ p v, start ≤ p → p ≤ bits.length → windowMatches bits t m w { pos := p, inv := v } = false) := by
  unfold find
  rcases findLoop_cases bits t m w (bits.length + 1 - start) start with ⟨sc, he, hlo, hhi, h⟩ | ⟨he, hno⟩
  · exact .inl ⟨sc, he, hlo, by omega, h⟩
  · refine .inr ⟨?_, fun p v h1 h2 => hno p v h1 (by omega)⟩
    rw [he]
    congr 2
    omega

/-- `Find` ends on a given scan when that is the first match. -/
theorem find_eq_of_first {bits : List Bool} {t m w start : Nat} {sc : Scan} (hlo : start ≤ sc.pos) (hhi : sc.pos ≤ bits.length)
    (hm : windowMatches bits t m w sc = true)
    (hi : sc.inv = true → windowMatches bits t m w { pos := sc.pos, inv := false } = false)
    (hno : ∀ p v, start ≤ p → p < sc.pos → windowMatches bits t m w { pos := p, inv := v } = false) :
    find bits t m w start = (true, sc) := by
  rcases find_cases bits t m w start with ⟨sc', he, hlo', hhi', hm', hi', hno'⟩ | ⟨_, hno'⟩
  · have hpos : sc'.pos = sc.pos := by
      rcases Nat.lt_trichotomy sc'.pos sc.pos with h | h | h
      · have := hno sc'.pos sc'.inv hlo' h
        rw [hm'] at this; cases this
      · exact h
      · have := hno' sc.pos sc.inv hlo h
        rw [hm] at this; cases this
    have hinv : sc'.inv = sc.inv := by
      cases h : sc.inv <;> cases h' : sc'.inv
      · rfl
      · have := hi' h'
        rw [hpos, show ({ pos := sc.pos, inv := false } : Scan) = sc from by rw [← h], hm] at this
        cases this
      · have := hi h
        rw [← hpos, show ({ pos := sc'.pos, inv := false } : Scan) = sc' from by rw [← h'], hm'] at this
        cases this
      · rfl
    rw [he, show sc' = sc from by cases sc'; cases sc; simp_all]
  · have := hno' sc.pos sc.inv hlo hhi
    rw [hm] at this; cases this

/-- A search never ends before its first position. -/
theorem start_le_find (bits : List Bool) (t m w start : Nat) : start ≤ (find bits t m w start).2.pos := by
  rcases find_cases bits t m w start with ⟨sc, he, h, _⟩ | ⟨he, _⟩ <;> rw [he]
  · exact h
  · exact Nat.le_max_left _ _

/-- What `FindSync` can end with (R180): 8 bits beyond the match of `Find`, or where `Find` failed. -/
theorem findSync_eq (bits : List Bool) (start : Nat) :
    findSync bits start =
      if (find bits 0xE6 0xFF 8 start).1 then (true, (find bits 0xE6 0xFF 8 start).2.advance 8)
      else find bits 0xE6 0xFF 8 start := rfl

/-- What `FindSync` can end with (R180). -/
theorem findSync_cases (bits : List Bool) (start : Nat) :
    (∃ p v, findSync bits start = (true, { pos := p + 8, inv := v }) ∧ start ≤ p ∧ p ≤ bits.length
      ∧ find bits 0xE6 0xFF 8 start = (true, { pos := p, inv := v }) ∧ hex bits { pos := p, inv := v } 8 = 0xE6)
    ∨ findSync bits start = (false, { pos := max start (bits.length + 1), inv := false }) := by
  rw [findSync_eq]
  rcases find_cases bits 0xE6 0xFF 8 start with ⟨⟨p, v⟩, he, hlo, hhi, hm, _⟩ | ⟨he, _⟩
  · refine .inl ⟨p, v, by rw [he]; rfl, hlo, hhi, he, ?_⟩
    have := hex_lt bits { pos := p, inv := v } 8
    rwa [windowMatches, beq_iff_eq, show 0xFF = 2 ^ 8 - 1 from rfl, Nat.and_two_pow_sub_one_eq_mod,
      Nat.mod_eq_of_lt this] at hm
  · exact .inr (by rw [he]; rfl)

/-- A failed `FindSync` (R176 point (d)). -/
theorem findSync_snd_of_false {bits : List Bool} {start : Nat} (h : (findSync bits start).1 = false) :
    (findSync bits start).2 = { pos := max start (bits.length + 1), inv := false } := by
  rcases findSync_cases bits start with ⟨p, v, he, _⟩ | he
  · rw [he] at h; cases h
  · rw [he]

/-- A successful `FindSync` stands at least 8 bits beyond its first position and at most 8 beyond the end. -/
theorem findSync_pos_of_true {bits : List Bool} {start : Nat} (h : (findSync bits start).1 = true) :
    start + 8 ≤ (findSync bits start).2.pos ∧ (findSync bits start).2.pos ≤ bits.length + 8 := by
  rcases findSync_cases bits start with ⟨p, v, he, hlo, hhi, _⟩ | he <;> rw [he] at h ⊢
  · exact ⟨by simpa using hlo, by simpa using hhi⟩
  · cases h

/-- What `FindSyncBit` can end with (R181): no step over the marker. -/
theorem findSyncBit_cases (bits : List Bool) (start : Nat) :
    (∃ sc, findSyncBit bits start = (true, sc) ∧ start ≤ sc.pos ∧ sc.pos ≤ bits.length
      ∧ windowMatches bits 0x0080 0xFF80 16 sc = true)
    ∨ findSyncBit bits start = (false, { pos := max start (bits.length + 1), inv := false }) := by
  rcases find_cases bits 0x0080 0xFF80 16 start with ⟨sc, he, hlo, hhi, hm, _⟩ | ⟨he, _⟩
  · exact .inl ⟨sc, he, hlo, hhi, hm⟩
  · exact .inr he

end Sys2Proof.Machine
end

