-- ==== Sys2Proof/Laws/Parser.lean ====
section
/-! SUPPORT. What the parser's reads and loops do, said once (spec/43_parser.md R200, R201, R204, R212, R217, R221): each loop is
the list of the bytes it reads, the place it leaves the scan, and the cells it adds. -/

namespace Sys2Proof.Machine

/-! ### Payload memories that hold a sequence of bytes -/

theorem payloadFrom_append (a : Nat) (xs ys : List Byte) :
    payloadFrom a (xs ++ ys) = payloadFrom a xs ++ payloadFrom (a + xs.length) ys := by
  induction xs generalizing a with
  | nil => rfl
  | cons x xs ih => simp [payloadFrom, ih, Nat.add_assoc, Nat.add_comm 1]

theorem mem_payloadFrom {a : Nat} {bytes : List Byte} {c : Host.Cell} (h : c ∈ payloadFrom a bytes) :
    a ≤ c.1 ∧ c.1 < a + bytes.length := by
  induction bytes generalizing a with
  | nil => cases h
  | cons b bytes ih =>
    rw [List.length_cons]
    rcases List.mem_cons.1 h with rfl | h
    · exact ⟨Nat.le_refl _, Nat.lt_add_of_pos_right (Nat.succ_pos _)⟩
    · have := ih h; omega

theorem wf_payloadFrom (a : Nat) (bytes : List Byte) : Memory.wf (payloadFrom a bytes) := by
  induction bytes generalizing a with
  | nil => exact Memory.wf_empty
  | cons b bytes ih => exact List.pairwise_cons.2 ⟨fun c hc => (mem_payloadFrom hc).1, ih _⟩

theorem payloadFrom_addresses (a : Nat) (bytes : List Byte) :
    (payloadFrom a bytes).map Prod.fst = List.range' a bytes.length := by
  induction bytes generalizing a with
  | nil => rfl
  | cons b bytes ih => simp [payloadFrom, ih, List.range'_succ]

theorem read_payloadFrom (a : Nat) (bytes : List Byte) (i : Nat) : (payloadFrom a bytes).read (a + i) = bytes[i]? := by
  induction bytes generalizing a i with
  | nil => rfl
  | cons b bytes ih =>
    rw [payloadFrom, Memory.read, cellsRead]
    cases i with
    | zero => rw [if_pos (Nat.add_zero a).symm]; rfl
    | succ i =>
      rw [if_neg (by omega), List.getElem?_cons_succ, ← ih (a + 1) i, Memory.read, Nat.add_assoc, Nat.add_comm 1 i]

theorem read_payloadFrom_zero (bytes : List Byte) (i : Nat) : (payloadFrom 0 bytes).read i = bytes[i]? := by
  rw [← read_payloadFrom 0 bytes i, Nat.zero_add]

/-- The bytes of a payload in order of address (R202, R226). -/
theorem bytesBelow_payloadFrom (a : Nat) (bytes : List Byte) {n : Nat} (h : a + bytes.length ≤ n) :
    (payloadFrom a bytes).bytesBelow n = bytes := by
  unfold Memory.bytesBelow
  rw [List.filter_eq_self.2 fun c hc => decide_eq_true ((mem_payloadFrom hc).2.trans_le h)]
  clear h
  induction bytes generalizing a with
  | nil => rfl
  | cons b bytes ih => rw [payloadFrom, List.map_cons, ih]

/-- A byte stored just beyond a payload extends it. -/
theorem write_payloadFrom (bytes : List Byte) (v : Byte) :
    (payloadFrom 0 bytes).write bytes.length v = payloadFrom 0 (bytes ++ [v]) := by
  rw [Memory.write, cellsWrite_of_forall_lt fun c hc => by have := (mem_payloadFrom hc).2; omega, payloadFrom_append]
  simp [payloadFrom]

/-! ### `ReadByte` and `ReadWord` (R200, R201) -/

theorem readByte_ok (bits : List Bool) (sc : Scan) : (readByte bits sc).ok = decide (sc.pos + 8 ≤ bits.length) := rfl

theorem readWord_ok (wo : WordOrder) (bits : List Bool) (sc : Scan) :
    (readWord wo bits sc).ok = decide (sc.pos + 16 ≤ bits.length) := rfl

theorem readWord_value (wo : WordOrder) (bits : List Bool) (sc : Scan) :
    (readWord wo bits sc).value.toNat =
      match wo with
      | .firstLow => 256 * hex bits (sc.advance 8) 8 + hex bits sc 8
      | .firstHigh => 256 * hex bits sc 8 + hex bits (sc.advance 8) 8 := by
  have h1 := hex_lt bits sc 8
  have h2 := hex_lt bits (sc.advance 8) 8
  cases wo <;> simp only [readWord, readByte_value, readByte_scan, BitVec.toNat_append, BitVec.toNat_ofNat,
    Nat.mod_eq_of_lt h1, Nat.mod_eq_of_lt h2]
  · rw [← Nat.shiftLeft_add_eq_or_of_lt h1, Nat.shiftLeft_eq]; omega
  · rw [← Nat.shiftLeft_add_eq_or_of_lt h2, Nat.shiftLeft_eq]; omega

theorem Scan.advance_advance (sc : Scan) (m n : Nat) : (sc.advance m).advance n = sc.advance (m + n) := by
  simp [Scan.advance, Nat.add_assoc]

/-! ### The sequence of bytes from a scan position -/

@[simp] theorem readBytes_scan (bits : List Bool) (n : Nat) (sc : Scan) : (readBytes bits n sc).2 = sc.advance (8 * n) := by
  induction n generalizing sc with
  | zero => rfl
  | succ n ih => rw [readBytes, ih]; simp [Scan.advance]; omega

@[simp] theorem length_readBytes (bits : List Bool) (n : Nat) (sc : Scan) : (readBytes bits n sc).1.length = n := by
  induction n generalizing sc with
  | zero => rfl
  | succ n ih => rw [readBytes, List.length_cons, ih]

/-- The `k`-th byte read is the window 8 `k` bits on. -/
theorem getElem?_readBytes (bits : List Bool) {n k : Nat} (sc : Scan) (h : k < n) :
    (readBytes bits n sc).1[k]? = some (BitVec.ofNat 8 (hex bits (sc.advance (8 * k)) 8)) := by
  induction n generalizing sc k with
  | zero => omega
  | succ n ih =>
    rw [readBytes]
    cases k with
    | zero => rfl
    | succ k =>
      rw [List.getElem?_cons_succ, ih (readByte bits sc).scan (by omega)]
      congr 3
      simp [Scan.advance]; omega

theorem mem_readBytes {bits : List Bool} {n : Nat} {sc : Scan} {v : Byte} :
    v ∈ (readBytes bits n sc).1 ↔ ∃ k, k < n ∧ v = BitVec.ofNat 8 (hex bits (sc.advance (8 * k)) 8) := by
  rw [List.mem_iff_getElem?]
  constructor
  · rintro ⟨k, hk⟩
    have hlt : k < n := by simpa using (List.getElem?_eq_some_iff.1 hk).1
    rw [getElem?_readBytes bits sc hlt] at hk
    exact ⟨k, hlt, (Option.some.inj hk).symm⟩
  · rintro ⟨k, hlt, rfl⟩
    exact ⟨k, getElem?_readBytes bits sc hlt⟩

theorem readBytes_succ (bits : List Bool) (n : Nat) (sc : Scan) :
    (readBytes bits (n + 1) sc).1 = (readBytes bits n sc).1 ++ [BitVec.ofNat 8 (hex bits (sc.advance (8 * n)) 8)] := by
  refine List.ext_getElem? fun k => ?_
  rcases Nat.lt_trichotomy k n with h | rfl | h
  · rw [getElem?_readBytes bits sc (by omega), List.getElem?_append_left (by simpa using h), getElem?_readBytes bits sc h]
  · rw [getElem?_readBytes bits sc (by omega), List.getElem?_append_right (by simp)]; simp
  · rw [List.getElem?_eq_none (by simp; omega), List.getElem?_eq_none (by simp; omega)]

theorem bytes_cons (bits : List Bool) (n : Nat) (sc : Scan) :
    (readBytes bits (n + 1) sc).1 = (readByte bits sc).value :: (readBytes bits n (sc.advance 8)).1 := rfl

/-! ### The payload loop (R212, R213) -/

/-- A parser state whose payload is exactly a sequence of bytes. -/
structure ParState.Holds (p : ParState) (bytes : List Byte) : Prop where
  pay : p.pay = payloadFrom 0 bytes
  npay : p.df.npay.toNat = bytes.length

theorem ParState.holds_cleared (sc : Scan) : (ParState.cleared sc).Holds [] := ⟨rfl, rfl⟩

theorem ParState.Holds.storeByte {p : ParState} {bytes : List Byte} (h : p.Holds bytes) (hlt : bytes.length + 1 < 2 ^ 32)
    (v : Byte) : (p.storeByte v).Holds (bytes ++ [v]) := by
  refine ⟨?_, ?_⟩
  · rw [ParState.storeByte_pay, h.pay, h.npay, write_payloadFrom]
  · rw [ParState.storeByte_df, BitVec.toNat_add, h.npay, List.length_append]
    exact Nat.mod_eq_of_lt hlt

/-- What the payload loop ends with: it stores the bytes wholly inside the Bitstream, at most `n`, and tells whether there were
`n`; the scan stands behind the last byte read, the one that ran out included. -/
theorem payloadLoop_eq (bits : List Bool) (n : Nat) (p : ParState) (bytes : List Byte) (h : p.Holds bytes)
    (hlt : bytes.length + n < 2 ^ 32) :
    ∃ q : ParState, ∃ stored, stored = min n ((bits.length - p.scan.pos) / 8)
      ∧ payloadLoop bits n p = (decide (n ≤ (bits.length - p.scan.pos) / 8), q)
      ∧ q.Holds (bytes ++ (readBytes bits stored p.scan).1)
      ∧ q.df = { p.df with npay := BitVec.ofNat 32 (bytes.length + stored) }
      ∧ q.scan = p.scan.advance (8 * min n ((bits.length - p.scan.pos) / 8 + 1)) := by
  induction n generalizing p bytes with
  | zero =>
    refine ⟨p, 0, by simp, by simp [payloadLoop], by simpa [readBytes] using h, ?_, by simp [Scan.advance]⟩
    have : BitVec.ofNat 32 (bytes.length + 0) = p.df.npay := by
      rw [Nat.add_zero, ← h.npay, BitVec.ofNat_toNat, BitVec.setWidth_eq]
    rw [this]
  | succ n ih =>
    rw [payloadLoop, readByte_ok]
    by_cases hin : p.scan.pos + 8 ≤ bits.length
    · have hq : ({ p with scan := (readByte bits p.scan).scan } : ParState).Holds bytes := ⟨h.pay, h.npay⟩
      obtain ⟨q, stored, hs, he, hh, hd, hsc⟩ := ih _ _ (hq.storeByte (by omega) (readByte bits p.scan).value)
        (by rw [List.length_append, List.length_singleton]; omega)
      have hdiv : (bits.length - p.scan.pos) / 8 = (bits.length - (p.scan.pos + 8)) / 8 + 1 := by omega
      simp only [ParState.storeByte_scan, readByte_scan, Scan.advance_pos] at hs he hh hd hsc
      refine ⟨q, stored + 1, by omega, ?_, ?_, ?_, ?_⟩
      · simp only [hin, decide_true, if_true]
        rw [show (readByte bits p.scan).scan = p.scan.advance 8 from rfl, he, hdiv]
        exact congrArg (·, q) (decide_eq_decide.2 (by omega))
      · rw [bytes_cons]; simpa using hh
      · rw [hd, List.length_append, List.length_singleton, Nat.add_assoc, Nat.add_comm 1 stored]; rfl
      · rw [hsc, hdiv, Scan.advance_advance]
        congr 1
        omega
    · refine ⟨{ p with scan := (readByte bits p.scan).scan }, 0, by omega, ?_, by simpa [readBytes] using ⟨h.pay, h.npay⟩, ?_, ?_⟩
      · simp only [hin, decide_false, Bool.false_eq_true, if_false]
        rw [show decide (n + 1 ≤ (bits.length - p.scan.pos) / 8) = false from decide_eq_false (by omega)]
      · have : BitVec.ofNat 32 (bytes.length + 0) = p.df.npay := by
          rw [Nat.add_zero, ← h.npay, BitVec.ofNat_toNat, BitVec.setWidth_eq]
        rw [this]
      · rw [show min (n + 1) ((bits.length - p.scan.pos) / 8 + 1) = 1 from by omega]; rfl

/-! ### The name loop (R217) -/

/-- The name after `good` header bytes: sanitized bytes first, the rest as before. -/
theorem nameLoop_eq (bits : List Bool) (n : Nat) (p : ParState) (hn : n ≤ 8) :
    ∃ q : ParState, ∃ good, good = min n ((bits.length - p.scan.pos) / 8)
      ∧ nameLoop bits n p = (decide (n ≤ (bits.length - p.scan.pos) / 8), q)
      ∧ q.pay = p.pay
      ∧ q.scan = p.scan.advance (8 * min n ((bits.length - p.scan.pos) / 8 + 1))
      ∧ ∃ name : Vector Byte 8, q.df = { p.df with name := name }
        ∧ ∀ k : Fin 8, name[k] = if 8 - n ≤ k.val ∧ k.val < 8 - n + good
            then sanitize (BitVec.ofNat 8 (hex bits (p.scan.advance (8 * (k.val - (8 - n)))) 8)) else p.df.name[k] := by
  induction n generalizing p with
  | zero =>
    refine ⟨p, 0, by simp, by simp [nameLoop], rfl, by simp [Scan.advance], p.df.name, rfl, fun k => ?_⟩
    rw [if_neg (by omega)]
  | succ n ih =>
    rw [nameLoop, readByte_ok]
    by_cases hin : p.scan.pos + 8 ≤ bits.length
    · simp only [hin, decide_true, if_true]
      obtain ⟨q, good, hg, he, hp, hsc, name, hd, hk⟩ := ih { p with
        scan := (readByte bits p.scan).scan
        df := { p.df with name := p.df.name.setIfInBounds (Config.hdrBytes - (n + 1)) (sanitize (readByte bits p.scan).value) } }
        (by omega)
      have hdiv : (bits.length - p.scan.pos) / 8 = (bits.length - (p.scan.pos + 8)) / 8 + 1 := by omega
      simp only [readByte_scan, Scan.advance_pos] at hg he hsc hk
      refine ⟨q, good + 1, by omega, ?_, hp, ?_, name, by rw [hd], fun k => ?_⟩
      · rw [show (readByte bits p.scan).scan = p.scan.advance 8 from rfl, he, hdiv]
        exact congrArg (·, q) (decide_eq_decide.2 (by omega))
      · rw [hsc, hdiv, Scan.advance_advance]
        congr 1
        omega
      · have hset : (p.df.name.setIfInBounds (Config.hdrBytes - (n + 1)) (sanitize (readByte bits p.scan).value))[k]
            = if 8 - (n + 1) = k.val then sanitize (readByte bits p.scan).value else p.df.name[k] := by
          rw [Fin.getElem_fin, Vector.getElem_setIfInBounds]; rfl
        rw [hk k, hset, Scan.advance_advance]
        by_cases h0 : 8 - (n + 1) = k.val
        · rw [if_neg (by omega), if_pos h0, if_pos (by omega), ← h0, Nat.sub_self]
          rfl
        · rw [if_neg h0]
          by_cases h1 : 8 - n ≤ k.val ∧ k.val < 8 - n + good
          · rw [if_pos h1, if_pos (by omega), show 8 + 8 * (k.val - (8 - n)) = 8 * (k.val - (8 - (n + 1))) from by omega]
          · rw [if_neg h1, if_neg (by omega)]
    · simp only [hin, decide_false, Bool.false_eq_true, if_false]
      refine ⟨{ p with scan := (readByte bits p.scan).scan }, 0, by omega, ?_, rfl, ?_, p.df.name, rfl, fun k => ?_⟩
      · rw [show decide (n + 1 ≤ (bits.length - p.scan.pos) / 8) = false from decide_eq_false (by omega)]
      · rw [show min (n + 1) ((bits.length - p.scan.pos) / 8 + 1) = 1 from by omega]; rfl
      · rw [if_neg (by omega)]

/-! ### The raw loop (R221) -/

/-- What the raw loop ends with, the fuel sufficient: every byte that begins before the end is stored, and the scan stands at or
just beyond the end. -/
theorem rawLoop_eq (bits : List Bool) (fuel : Nat) (p : ParState) (bytes : List Byte) (h : p.Holds bytes)
    (hlt : bytes.length + fuel < 2 ^ 32) (hf : bits.length ≤ p.scan.pos + 8 * fuel) :
    ∃ q : ParState, ∃ n, n = (bits.length - p.scan.pos + 7) / 8
      ∧ rawLoop bits fuel p = q
      ∧ q.Holds (bytes ++ (readBytes bits n p.scan).1)
      ∧ q.df = { p.df with npay := BitVec.ofNat 32 (bytes.length + n) }
      ∧ q.scan = p.scan.advance (8 * n) := by
  have stay : BitVec.ofNat 32 (bytes.length + 0) = p.df.npay := by
    rw [Nat.add_zero, ← h.npay, BitVec.ofNat_toNat, BitVec.setWidth_eq]
  induction fuel generalizing p bytes with
  | zero =>
    refine ⟨p, 0, by omega, rfl, by simpa [readBytes] using h, by rw [stay], by simp [Scan.advance]⟩
  | succ fuel ih =>
    rw [rawLoop]
    split
    · next hin =>
      have hq : ({ p.storeByte (readByte bits p.scan).value with scan := p.scan.advance 8 } : ParState).Holds
          (bytes ++ [(readByte bits p.scan).value]) :=
        ⟨(h.storeByte (by omega) _).pay, (h.storeByte (by omega) _).npay⟩
      obtain ⟨q, n, hn, he, hh, hd, hsc⟩ := ih _ _ hq (by rw [List.length_append, List.length_singleton]; omega)
        (by simp only [Scan.advance_pos]; omega)
        (by rw [Nat.add_zero, ← hq.npay, BitVec.ofNat_toNat, BitVec.setWidth_eq])
      simp only [Scan.advance_pos] at hn hh hd hsc
      refine ⟨q, n + 1, by omega, he, ?_, ?_, ?_⟩
      · rw [bytes_cons]; simpa using hh
      · rw [hd, List.length_append, List.length_singleton, Nat.add_assoc, Nat.add_comm 1 n]; rfl
      · rw [hsc, Scan.advance_advance, Nat.mul_succ, Nat.add_comm]
    · next hin => exact ⟨p, 0, by omega, rfl, by simpa [readBytes] using h, by rw [stay], by simp [Scan.advance]⟩

end Sys2Proof.Machine
end

