-- ==== Sys2Proof/Laws/PerInstr.lean ====
section
/-! SUPPORT. What holds of every instruction as syntax, one lemma per constructor: the word it encodes to is selected by the row of
the opcode table with its mnemonic (spec/30_encoding.md R90). -/

namespace Sys2Proof.Laws

/-- The word of an instruction is selected by a row of the opcode table that carries its mnemonic. -/
def EncodesUnderItsRow.Statement (i : Instr) : Prop :=
  ∃ row ∈ opcodeRows, row.mnemonic = i.mnemonic ∧ encode i &&& row.mask = row.pattern

/-- The comparison of R90 on a command word, field by field: `z` is 0 in every encoding. -/
theorem commandWord_and_mask {op w : BitVec 8} {imm : BitVec 32} (mw : BitVec 8) (mimm : BitVec 32) {mask pattern : Word64}
    (hmask : mask = wordOfFields 0xFF mw 0xFFFF mimm) (hpattern : pattern = wordOfFields op 0 0 0)
    (hw : w &&& mw = 0) (himm : imm &&& mimm = 0) : commandWord op w imm &&& mask = pattern := by
  rw [hmask, hpattern, and_mask_eq_iff, fieldOp_commandWord, fieldW_commandWord, fieldZ_commandWord, fieldImm_commandWord]
  exact ⟨BitVec.and_allOnes, hw, rfl, himm⟩

/-- A value of 16 bits in the low half of `imm` has no bit under the mask of the high half (format WV, R86). -/
theorem append_and_high_mask (v : BitVec 16) : (0 : BitVec 16) ++ v &&& (0xFFFF0000 : BitVec 32) = 0 := by
  have h : (0xFFFF0000 : BitVec 32) = (0xFFFF : BitVec 16) ++ (0 : BitVec 16) := rfl
  rw [h, BitVec.and_append]
  simp

theorem EncodesUnderItsRow.reset : EncodesUnderItsRow.Statement .reset :=
  ⟨⟨"RESET", 0x0100000000000000, 0xFFFFFFFFFFFFFFFF⟩, by decide, rfl,
    commandWord_and_mask (op := 0x01) (w := 0) (imm := 0) 0xFF 0xFFFFFFFF rfl rfl rfl rfl⟩

theorem EncodesUnderItsRow.rdreg (reg : BitVec 8) : EncodesUnderItsRow.Statement (.rdreg reg) :=
  ⟨⟨"RDREG", 0x0200000000000000, 0xFF00FFFFFFFFFFFF⟩, by decide, rfl,
    commandWord_and_mask (op := 0x02) (w := reg) (imm := 0) 0x00 0xFFFFFFFF rfl rfl BitVec.and_zero rfl⟩

theorem EncodesUnderItsRow.wrreg (reg : BitVec 8) (value : BitVec 32) : EncodesUnderItsRow.Statement (.wrreg reg value) :=
  ⟨⟨"WRREG", 0x0300000000000000, 0xFF00FFFF00000000⟩, by decide, rfl,
    commandWord_and_mask (op := 0x03) (w := reg) (imm := value) 0x00 0x00000000 rfl rfl BitVec.and_zero BitVec.and_zero⟩

theorem EncodesUnderItsRow.rdhist (cls : BitVec 8) (bin : BitVec 32) : EncodesUnderItsRow.Statement (.rdhist cls bin) :=
  ⟨⟨"RDHIST", 0x0400000000000000, 0xFF00FFFF00000000⟩, by decide, rfl,
    commandWord_and_mask (op := 0x04) (w := cls) (imm := bin) 0x00 0x00000000 rfl rfl BitVec.and_zero BitVec.and_zero⟩

theorem EncodesUnderItsRow.rdpay (index : BitVec 32) : EncodesUnderItsRow.Statement (.rdpay index) :=
  ⟨⟨"RDPAY", 0x0500000000000000, 0xFFFFFFFF00000000⟩, by decide, rfl,
    commandWord_and_mask (op := 0x05) (w := 0) (imm := index) 0xFF 0x00000000 rfl rfl rfl BitVec.and_zero⟩

theorem EncodesUnderItsRow.segReset : EncodesUnderItsRow.Statement .segReset :=
  ⟨⟨"SEG_RESET", 0x1000000000000000, 0xFFFFFFFFFFFFFFFF⟩, by decide, rfl,
    commandWord_and_mask (op := 0x10) (w := 0) (imm := 0) 0xFF 0xFFFFFFFF rfl rfl rfl rfl⟩

theorem EncodesUnderItsRow.segAcc (l r : Sample) : EncodesUnderItsRow.Statement (.segAcc l r) :=
  ⟨⟨"SEG_ACC", 0x1100000000000000, 0xFFFFFFFF00000000⟩, by decide, rfl,
    commandWord_and_mask (op := 0x11) (w := 0) (imm := (l ++ r)) 0xFF 0x00000000 rfl rfl rfl BitVec.and_zero⟩

theorem EncodesUnderItsRow.segSample (l r : Sample) : EncodesUnderItsRow.Statement (.segSample l r) :=
  ⟨⟨"SEG_SAMPLE", 0x1200000000000000, 0xFFFFFFFF00000000⟩, by decide, rfl,
    commandWord_and_mask (op := 0x12) (w := 0) (imm := (l ++ r)) 0xFF 0x00000000 rfl rfl rfl BitVec.and_zero⟩

theorem EncodesUnderItsRow.segFlush : EncodesUnderItsRow.Statement .segFlush :=
  ⟨⟨"SEG_FLUSH", 0x1300000000000000, 0xFFFFFFFFFFFFFFFF⟩, by decide, rfl,
    commandWord_and_mask (op := 0x13) (w := 0) (imm := 0) 0xFF 0xFFFFFFFF rfl rfl rfl rfl⟩

theorem EncodesUnderItsRow.demRearm : EncodesUnderItsRow.Statement .demRearm :=
  ⟨⟨"DEM_REARM", 0x2000000000000000, 0xFFFFFFFFFFFFFFFF⟩, by decide, rfl,
    commandWord_and_mask (op := 0x20) (w := 0) (imm := 0) 0xFF 0xFFFFFFFF rfl rfl rfl rfl⟩

theorem EncodesUnderItsRow.pushDur (d : Duration) : EncodesUnderItsRow.Statement (.pushDur d) :=
  ⟨⟨"PUSH_DUR", 0x2100000000000000, 0xFFFFFFFF00000000⟩, by decide, rfl,
    commandWord_and_mask (op := 0x21) (w := 0) (imm := d) 0xFF 0x00000000 rfl rfl rfl BitVec.and_zero⟩

theorem EncodesUnderItsRow.bsReset : EncodesUnderItsRow.Statement .bsReset :=
  ⟨⟨"BS_RESET", 0x3000000000000000, 0xFFFFFFFFFFFFFFFF⟩, by decide, rfl,
    commandWord_and_mask (op := 0x30) (w := 0) (imm := 0) 0xFF 0xFFFFFFFF rfl rfl rfl rfl⟩

theorem EncodesUnderItsRow.bsOffset (n : BitVec 32) : EncodesUnderItsRow.Statement (.bsOffset n) :=
  ⟨⟨"BS_OFFSET", 0x3100000000000000, 0xFFFFFFFF00000000⟩, by decide, rfl,
    commandWord_and_mask (op := 0x31) (w := 0) (imm := n) 0xFF 0x00000000 rfl rfl rfl BitVec.and_zero⟩

theorem EncodesUnderItsRow.bsHex (w : BitVec 8) : EncodesUnderItsRow.Statement (.bsHex w) :=
  ⟨⟨"BS_HEX", 0x3200000000000000, 0xFF00FFFFFFFFFFFF⟩, by decide, rfl,
    commandWord_and_mask (op := 0x32) (w := w) (imm := 0) 0x00 0xFFFFFFFF rfl rfl BitVec.and_zero rfl⟩

theorem EncodesUnderItsRow.bsFind (w : BitVec 8) (target mask : BitVec 16) : EncodesUnderItsRow.Statement (.bsFind w target mask) :=
  ⟨⟨"BS_FIND", 0x3300000000000000, 0xFF00FFFF00000000⟩, by decide, rfl,
    commandWord_and_mask (op := 0x33) (w := w) (imm := (target ++ mask)) 0x00 0x00000000 rfl rfl BitVec.and_zero BitVec.and_zero⟩

theorem EncodesUnderItsRow.bsFindSync : EncodesUnderItsRow.Statement .bsFindSync :=
  ⟨⟨"BS_FIND_SYNC", 0x3400000000000000, 0xFFFFFFFFFFFFFFFF⟩, by decide, rfl,
    commandWord_and_mask (op := 0x34) (w := 0) (imm := 0) 0xFF 0xFFFFFFFF rfl rfl rfl rfl⟩

theorem EncodesUnderItsRow.bsTrim : EncodesUnderItsRow.Statement .bsTrim :=
  ⟨⟨"BS_TRIM", 0x3500000000000000, 0xFFFFFFFFFFFFFFFF⟩, by decide, rfl,
    commandWord_and_mask (op := 0x35) (w := 0) (imm := 0) 0xFF 0xFFFFFFFF rfl rfl rfl rfl⟩

theorem EncodesUnderItsRow.bsAppend (w : BitVec 8) (v : BitVec 16) : EncodesUnderItsRow.Statement (.bsAppend w v) :=
  ⟨⟨"BS_APPEND", 0x3600000000000000, 0xFF00FFFFFFFF0000⟩, by decide, rfl,
    commandWord_and_mask (op := 0x36) (w := w) (imm := ((0 : BitVec 16) ++ v)) 0x00 0xFFFF0000 rfl rfl BitVec.and_zero (append_and_high_mask v)⟩

theorem EncodesUnderItsRow.parClassify : EncodesUnderItsRow.Statement .parClassify :=
  ⟨⟨"PAR_CLASSIFY", 0x4000000000000000, 0xFFFFFFFFFFFFFFFF⟩, by decide, rfl,
    commandWord_and_mask (op := 0x40) (w := 0) (imm := 0) 0xFF 0xFFFFFFFF rfl rfl rfl rfl⟩

theorem EncodesUnderItsRow.parRadio : EncodesUnderItsRow.Statement .parRadio :=
  ⟨⟨"PAR_RADIO", 0x4100000000000000, 0xFFFFFFFFFFFFFFFF⟩, by decide, rfl,
    commandWord_and_mask (op := 0x41) (w := 0) (imm := 0) 0xFF 0xFFFFFFFF rfl rfl rfl rfl⟩

theorem EncodesUnderItsRow.parOrion : EncodesUnderItsRow.Statement .parOrion :=
  ⟨⟨"PAR_ORION", 0x4200000000000000, 0xFFFFFFFFFFFFFFFF⟩, by decide, rfl,
    commandWord_and_mask (op := 0x42) (w := 0) (imm := 0) 0xFF 0xFFFFFFFF rfl rfl rfl rfl⟩

theorem EncodesUnderItsRow.parRaw : EncodesUnderItsRow.Statement .parRaw :=
  ⟨⟨"PAR_RAW", 0x4300000000000000, 0xFFFFFFFFFFFFFFFF⟩, by decide, rfl,
    commandWord_and_mask (op := 0x43) (w := 0) (imm := 0) 0xFF 0xFFFFFFFF rfl rfl rfl rfl⟩

theorem EncodesUnderItsRow.parAuto : EncodesUnderItsRow.Statement .parAuto :=
  ⟨⟨"PAR_AUTO", 0x4400000000000000, 0xFFFFFFFFFFFFFFFF⟩, by decide, rfl,
    commandWord_and_mask (op := 0x44) (w := 0) (imm := 0) 0xFF 0xFFFFFFFF rfl rfl rfl rfl⟩

end Sys2Proof.Laws
end

