-- ==== Sys2Proof/Laws/Statistics.lean ====
section
/-! SUPPORT. What an operand field gives (spec/30_encoding.md R87); the statistics aggregates: a fold below a full count keeps the
legal form (spec/41_demodulator.md R135), and no sum of a legal aggregate passes its width (spec/00_scope.md R13). -/

namespace Sys2Proof.Machine

theorem countFull_iff (w c : Nat) : countFull w c = true ↔ c = 2 ^ w - 1 := by rw [countFull, beq_iff_eq]

theorem countFull_eq_false_iff (w c : Nat) : countFull w c = false ↔ c ≠ 2 ^ w - 1 := by rw [countFull, beq_eq_false_iff_ne]

/-! ### Operands -/

/-- A duration operand has DUR_W bits. -/
theorem durationOperand_lt (z : Sizes) (d : Duration) : durationOperand z d < 2 ^ z.durW := by
  unfold durationOperand
  split
  · assumption
  · exact Nat.mod_lt _ (Nat.two_pow_pos _)

/-- A field that fits DUR_W bits is the duration. -/
theorem durationOperand_of_lt {z : Sizes} {d : Duration} (h : d.toNat < 2 ^ z.durW) : durationOperand z d = d.toNat := if_pos h

/-- A sample operand has SAMPLE_W bits. -/
theorem sampleOperand_fits {z : Sizes} (hz : 1 ≤ z.sampleW) (x : Sample) : fitsSigned z.sampleW (sampleOperand z x) := by
  unfold sampleOperand fitsSigned
  have hw : (2 : Int) ^ z.sampleW = 2 * 2 ^ (z.sampleW - 1) := by rw [← pow_succ']; congr 1; omega
  have hp : (0 : Int) < 2 ^ (z.sampleW - 1) := by positivity
  split
  · next h => push_cast at h; exact h
  · have h1 := Int.le_bmod (x := Config.wideSample z.sampleW x) (m := 2 ^ z.sampleW) (Nat.two_pow_pos _)
    have h2 := Int.bmod_lt (x := Config.wideSample z.sampleW x) (m := 2 ^ z.sampleW) (Nat.two_pow_pos _)
    push_cast at h1 h2
    rw [hw] at h1 h2
    omega

/-- A field that fits SAMPLE_W bits, signed, is the sample. -/
theorem sampleOperand_of_fits {z : Sizes} {x : Sample} (h : fitsSigned z.sampleW x.toInt) : sampleOperand z x = x.toInt :=
  if_pos (by unfold fitsSigned at h; push_cast; exact h)

/-! ### Aggregates -/

/-- The test of R132 as two inequalities over the integers. -/
theorem check_iff (st : Stats) (delta : BitVec 7) (d : Nat) (width : Int) :
    check st delta d width = true ↔
      (100 * width - (delta.toNat : Int)) * (st.sum : Int) < 100 * (d : Int) * (st.count : Int)
      ∧ 100 * (d : Int) * (st.count : Int) < (100 * width + (delta.toNat : Int)) * (st.sum : Int) := by
  rw [check, Bool.and_eq_true, decide_eq_true_eq, decide_eq_true_eq]

theorem Stats.inv_empty (z : Sizes) : Stats.empty.Inv z :=
  ⟨Nat.two_pow_pos _, Hist.wf_empty, fun _ h => (nomatch h), rfl, fun _ => rfl, fun h => absurd rfl h⟩

/-- A fold below a full count keeps a legal aggregate legal. -/
theorem Stats.Inv.fold {z : Sizes} {st : Stats} (h : st.Inv z) (hz : z.Legal) (hc : st.count ≠ 2 ^ z.cntW - 1) {d : Nat}
    (hd : d < 2 ^ z.durW) : (st.fold z.histBins d).Inv z := by
  have hbins := hz.bins
  have hcount := h.count
  refine ⟨?_, by rw [Stats.fold_hist]; exact Hist.wf_write h.hist _ _, fun c hm => ?_, ?_, fun e => absurd e (Nat.succ_ne_zero _), fun _ => ?_⟩
  · rw [Stats.fold_count]; omega
  · rw [Stats.fold_hist, Hist.write, if_neg (Nat.succ_ne_zero _)] at hm
    rcases mem_cellsWrite hm with rfl | hm
    · show min d (z.histBins - 1) < z.histBins
      omega
    · exact h.bins c hm
  · rw [Stats.fold_hist, Hist.total_write_succ h.hist, h.total, Stats.fold_count]
  · rw [Stats.fold_sum, Stats.fold_sq, Stats.fold_count, Stats.fold_minVal, Stats.fold_maxVal]
    by_cases h0 : st.count = 0
    · refine ⟨d, d, by rw [if_pos h0], by rw [if_pos h0], Nat.le_refl d, hd, ?_⟩
      rw [h.empty h0]
      simp [Stats.empty]
    · obtain ⟨lo, hi, hlo, hhi, hle, hlt, h1, h2, h3⟩ := h.range h0
      refine ⟨min lo d, max hi d, by rw [if_neg h0, hlo]; rfl, by rw [if_neg h0, hhi]; rfl, by omega, by omega, ?_⟩
      have l1 : min lo d * st.count ≤ lo * st.count := Nat.mul_le_mul_right _ (Nat.min_le_left _ _)
      have l2 : hi * st.count ≤ max hi d * st.count := Nat.mul_le_mul_right _ (Nat.le_max_left _ _)
      have l3 : hi * hi * st.count ≤ max hi d * max hi d * st.count :=
        Nat.mul_le_mul_right _ (Nat.mul_le_mul (Nat.le_max_left _ _) (Nat.le_max_left _ _))
      have l4 : d * d ≤ max hi d * max hi d := Nat.mul_le_mul (Nat.le_max_right _ _) (Nat.le_max_right _ _)
      rw [Nat.mul_succ, Nat.mul_succ, Nat.mul_succ]
      omega

/-- The sums of a legal aggregate fit their widths (R13). -/
theorem Stats.Inv.sums_lt {z : Sizes} {st : Stats} (h : st.Inv z) (hz : z.Legal) : st.sum < 2 ^ z.sumW ∧ st.sq < 2 ^ z.sqW := by
  by_cases h0 : st.count = 0
  · rw [h.empty h0]
    exact ⟨Nat.two_pow_pos _, Nat.two_pow_pos _⟩
  · obtain ⟨lo, hi, _, _, _, hhi, _, hsum, hsq⟩ := h.range h0
    have hcount := h.count
    have l1 : hi * st.count ≤ (2 ^ z.durW - 1) * (2 ^ z.cntW - 1) := Nat.mul_le_mul (by omega) (by omega)
    have l2 : hi * hi * st.count ≤ (2 ^ z.durW - 1) ^ 2 * (2 ^ z.cntW - 1) := by
      rw [pow_two]
      exact Nat.mul_le_mul (Nat.mul_le_mul (by omega) (by omega)) (by omega)
    exact ⟨by have := hz.sum; omega, by have := hz.square; omega⟩

end Sys2Proof.Machine
end

