-- ==== Sys2Proof/Laws/Stream.lean ====
section
/-! SUPPORT. Streams written as bytes (spec/20_memory.md R62): the windows at multiples of 8 are the bytes, in either polarity
under the flag that matches it. -/

namespace Sys2Proof.Machine

@[simp] theorem length_byteBits (b : Byte) : (byteBits b).length = 8 := length_bitsOf _ _

theorem streamOf_cons (b : Byte) (bytes : List Byte) : streamOf (b :: bytes) = byteBits b ++ streamOf bytes := rfl

theorem streamOf_append (xs ys : List Byte) : streamOf (xs ++ ys) = streamOf xs ++ streamOf ys := List.flatMap_append

@[simp] theorem length_streamOf (bytes : List Byte) : (streamOf bytes).length = 8 * bytes.length := by
  induction bytes with
  | nil => rfl
  | cons b bytes ih => rw [streamOf_cons, List.length_append, ih, length_byteBits, List.length_cons]; omega

theorem memRead_byteBits (b : Byte) : memRead (byteBits b) 0 8 = b.toNat := by
  rw [byteBits, memRead_bitsOf]; exact Nat.mod_eq_of_lt b.isLt

/-- The byte at index `k` of a stream is the window at bit 8 `k` (R62, R65). -/
theorem memRead_streamOf {bytes : List Byte} {k : Nat} {b : Byte} (h : bytes[k]? = some b) :
    memRead (streamOf bytes) (8 * k) 8 = b.toNat := by
  induction bytes generalizing k with
  | nil => cases h
  | cons c bytes ih =>
    rw [streamOf_cons]
    cases k with
    | zero =>
      cases h
      rw [memRead_append_left (by simp), memRead_byteBits]
    | succ k =>
      have e : 8 * (k + 1) = (byteBits c).length + 8 * k := by rw [length_byteBits]; omega
      rw [e, memRead_append_right]
      exact ih h

theorem length_map_xor (bits : List Bool) (inv : Bool) : (bits.map (fun b => b ^^ inv)).length = bits.length :=
  List.length_map _

/-- The byte at index `k` of a tape recorded in either polarity, under the flag that matches it. -/
theorem hex_tape {bytes : List Byte} {k : Nat} {b : Byte} (h : bytes[k]? = some b) (inv : Bool) :
    hex ((streamOf bytes).map (fun x => x ^^ inv)) { pos := 8 * k, inv := inv } 8 = b.toNat := by
  have hk : k < bytes.length := (List.getElem?_eq_some_iff.1 h).1
  rw [hex_map_xor (by rw [length_streamOf]; omega), memRead_streamOf h]

theorem readByte_tape {bytes : List Byte} {k : Nat} {b : Byte} (h : bytes[k]? = some b) (inv : Bool) :
    readByte ((streamOf bytes).map (fun x => x ^^ inv)) { pos := 8 * k, inv := inv }
      = { value := b, ok := true, scan := { pos := 8 * (k + 1), inv := inv } } := by
  have hk : k < bytes.length := (List.getElem?_eq_some_iff.1 h).1
  have hv : (readByte ((streamOf bytes).map (fun x => x ^^ inv)) { pos := 8 * k, inv := inv }).value = b := by
    rw [readByte_value, hex_tape h, BitVec.ofNat_toNat, BitVec.setWidth_eq]
  have hok : (readByte ((streamOf bytes).map (fun x => x ^^ inv)) { pos := 8 * k, inv := inv }).ok = true := by
    rw [readByte_ok, length_map_xor, length_streamOf]
    exact decide_eq_true (by simp only; omega)
  cases hr : readByte ((streamOf bytes).map (fun x => x ^^ inv)) { pos := 8 * k, inv := inv } with
  | mk value ok scan =>
    have hs := readByte_scan ((streamOf bytes).map (fun x => x ^^ inv)) { pos := 8 * k, inv := inv }
    rw [hr] at hv hok hs
    subst hv hok hs
    rfl

theorem append_bytes_of_word (v : Word16) : v.extractLsb' 8 8 ++ v.extractLsb' 0 8 = v := by
  apply BitVec.eq_of_toNat_eq
  have := v.isLt
  rw [toNat_append_eq_add, BitVec.extractLsb'_toNat, BitVec.extractLsb'_toNat, Nat.shiftRight_eq_div_pow]
  simp only [Nat.shiftRight_zero]
  omega

/-- A 16-bit field written with `wordBytes` reads back (R201). -/
theorem readWord_tape {wo : WordOrder} {bytes pre post : List Byte} {v : Word16} (h : bytes = pre ++ wordBytes wo v ++ post)
    (inv : Bool) :
    readWord wo ((streamOf bytes).map (fun x => x ^^ inv)) { pos := 8 * pre.length, inv := inv }
      = { value := v, ok := true, scan := { pos := 8 * (pre.length + 2), inv := inv } } := by
  have lo : ∀ x y : Byte, wordBytes wo v = [x, y] → bytes[pre.length]? = some x ∧ bytes[pre.length + 1]? = some y := by
    intro x y e
    subst h
    rw [e]
    simp
  cases wo with
  | firstLow =>
    obtain ⟨h0, h1⟩ := lo _ _ rfl
    simp only [readWord, readByte_tape h0, readByte_tape h1, append_bytes_of_word]
  | firstHigh =>
    obtain ⟨h0, h1⟩ := lo _ _ rfl
    simp only [readWord, readByte_tape h0, readByte_tape h1, append_bytes_of_word]

/-- The bytes read from a multiple of 8 are a sublist of the tape's bytes. -/
theorem readBytes_tape {bytes pre mid post : List Byte} (h : bytes = pre ++ mid ++ post) (inv : Bool) :
    (readBytes ((streamOf bytes).map (fun x => x ^^ inv)) mid.length { pos := 8 * pre.length, inv := inv }).1 = mid := by
  refine List.ext_getElem? fun k => ?_
  rcases Nat.lt_or_ge k mid.length with hk | hk
  · rw [getElem?_readBytes _ _ hk]
    have hb : bytes[pre.length + k]? = some mid[k] := by
      subst h
      rw [List.append_assoc, List.getElem?_append_right (Nat.le_add_right _ _), Nat.add_sub_cancel_left,
        List.getElem?_append_left hk, List.getElem?_eq_getElem hk]
    rw [show (Scan.mk (8 * pre.length) inv).advance (8 * k) = { pos := 8 * (pre.length + k), inv := inv } from by
      simp [Scan.advance, Nat.mul_add], hex_tape hb, BitVec.ofNat_toNat, BitVec.setWidth_eq, List.getElem?_eq_getElem hk]
  · rw [List.getElem?_eq_none (by rw [length_readBytes]; exact hk), List.getElem?_eq_none hk]

/-- The byte marker `00 E6` at the start of what is left of a tape, found from within the first 8 bits (R177, R180). -/
theorem findSync_tape {bytes pre post : List Byte} (h : bytes = pre ++ [0x00, 0xE6] ++ post) (inv : Bool) {start : Nat}
    (hlo : 8 * pre.length ≤ start) (hhi : start ≤ 8 * (pre.length + 1)) :
    findSync ((streamOf bytes).map (fun x => x ^^ inv)) start = (true, { pos := 8 * (pre.length + 2), inv := inv }) := by
  have hlen : ((streamOf bytes).map (fun x => x ^^ inv)).length = 8 * (pre.length + 2 + post.length) := by
    rw [length_map_xor, length_streamOf, h]; simp; omega
  have window : ∀ j, j ≤ 8 → ∀ v, hex ((streamOf bytes).map (fun x => x ^^ inv)) { pos := 8 * pre.length + j, inv := v } 8
      = hex ((streamOf [0x00, 0xE6]).map (fun x => x ^^ inv)) { pos := j, inv := v } 8 := by
    intro j hj v
    have : memRead ((streamOf bytes).map (fun x => x ^^ inv)) (8 * pre.length + j) 8
        = memRead ((streamOf [0x00, 0xE6]).map (fun x => x ^^ inv)) j 8 := by
      subst h
      rw [List.append_assoc, streamOf_append, List.map_append, ← length_streamOf pre, ← length_map_xor (streamOf pre) inv,
        memRead_append_right, streamOf_append, List.map_append, memRead_append_left]
      rw [length_map_xor, length_streamOf]
      simp only [List.length_cons, List.length_nil]
      omega
    rw [hex_eq, hex_eq, this]
  have small : ∀ (inv v : Bool) (j : Fin 9), windowMatches ((streamOf [0x00, 0xE6]).map (fun x => x ^^ inv)) 0xE6 0xFF 8
      { pos := j.val, inv := v } = (decide (j.val = 8) && (v == inv)) := by decide
  have matches_iff : ∀ j, j ≤ 8 → ∀ v, windowMatches ((streamOf bytes).map (fun x => x ^^ inv)) 0xE6 0xFF 8
      { pos := 8 * pre.length + j, inv := v } = (decide (j = 8) && (v == inv)) := by
    intro j hj v
    rw [windowMatches, window j hj v]
    exact small inv v ⟨j, by omega⟩
  have hfind : find ((streamOf bytes).map (fun x => x ^^ inv)) 0xE6 0xFF 8 start
      = (true, { pos := 8 * pre.length + 8, inv := inv }) := by
    refine find_eq_of_first ?_ ?_ ?_ ?_ ?_
    · simp only; omega
    · simp only [hlen]; omega
    · rw [matches_iff 8 (Nat.le_refl 8)]; simp
    · intro hi
      simp only at hi
      rw [matches_iff 8 (Nat.le_refl 8), hi]; rfl
    · intro p v hp1 hp2
      simp only at hp2
      obtain ⟨j, rfl⟩ : ∃ j, p = 8 * pre.length + j := ⟨p - 8 * pre.length, by omega⟩
      rw [matches_iff j (by omega), decide_eq_false (by omega), Bool.false_and]
  rw [findSync_eq, hfind, if_pos rfl]
  simp only [Scan.advance]
  congr 2

end Sys2Proof.Machine
end

