-- ==== Sys2Proof/Tests/Slice0.lean ====
section
/-! SUPPORT. Tests. Words and results are those of spec/30_encoding.md section R101 and of the vectors of
spec/95_test_vectors.md and spec/96_programs.md, named at each test. -/

namespace Sys2Proof.Tests

-- One theorem after another: checks that wait for the kernel side by side each hold a thread.
set_option Elab.async false

open Sys2Proof.Machine

/-! ### Helpers -/

/-- The response to one command word from a state, through `State.withFetchWord` and `step`. -/
def responseTo (s : State) (cw : Nat) : Option Word64 :=
  match step (s.withFetchWord 64 cw) with
  | .next t => t.resp
  | _ => none

/-- The block with a stream loaded (notation of spec/95_test_vectors.md section 4), `WORD_ORDER` as given. -/
def tape (bytes : List Byte) (extra : List Bool := []) (wo : WordOrder := .firstLow) : State :=
  { State.reset with wordOrder := wo, bs := { bits := streamOf bytes ++ extra, cursor := .beforeStart, inv := false } }

/-- The block with a stream, a cursor and a flag. -/
def tapeAt (bytes : List Byte) (pos : Nat) (inv : Bool) : State :=
  { State.reset with bs := { bits := streamOf bytes, cursor := .onBit pos, inv := inv } }

/-- The block with a Bitstream at its capacity less `left` bits. -/
def almostFull (left : Nat) : State :=
  { State.reset with bs := { bits := List.replicate (1048576 - left) false, cursor := .beforeStart, inv := false } }

theorem length_almostFull (left : Nat) : (almostFull left).bs.bits.length = 1048576 - left := List.length_replicate

/-- The block with segmenter registers. -/
def segmenter (n : Nat) (sum cur : Int) (run : Nat) (isOpen : Bool) : State :=
  { State.reset with seg := { n := n, sum := sum, cur := cur, run := run, isOpen := isOpen } }

/-- An aggregate of `n` durations `d`, `d` below HIST_BINS. -/
def sameDurations (n d : Nat) : Stats :=
  { count := n, sum := n * d, sq := n * d * d, minVal := some d, maxVal := some d, hist := [(d, n)] }

/-- A small legal instance of R13. -/
def smallSizes : Sizes :=
  { sampleW := 8, durW := 5, cntW := 6, sumW := 11, sqW := 16, segSumW := 14, histBins := 16, bsCap := 64, payCap := 65536 }

theorem legal_smallSizes : smallSizes.Legal :=
  ⟨by decide +kernel, by decide +kernel, by decide +kernel, by decide +kernel, by decide +kernel, by decide +kernel, by decide +kernel, by decide +kernel, by decide +kernel⟩

theorem legal_default : Sizes.default.Legal :=
  ⟨by decide +kernel, by decide +kernel, by decide +kernel, by decide +kernel, by decide +kernel, by decide +kernel, by decide +kernel, by decide +kernel, by decide +kernel⟩

/-- A state of the small instance. -/
def small (s : State) : State := { s with sizes := smallSizes }

/-- The block with a demodulator phase, machine, current bit and aggregates. -/
def demodulator (phase : Phase) (fsm : Fsm) (cur : Bool) (stS stL : Stats) : State :=
  { State.reset with dem := { phase := phase, fsm := fsm, curBit := cur }, stS := stS, stL := stL }

/-- P3 of spec/96_programs.md, `FIRST_LOW`. -/
def radioFile : List Byte := [0x00, 0xE6, 0x00, 0x40, 0x02, 0x40, 0x10, 0x20, 0x30, 0x00, 0xE6, 0x60, 0x30]

/-- P4 of spec/96_programs.md, `FIRST_LOW`. -/
def orionFile : List Byte := [0x00, 0xE6, 0x54, 0x45, 0x53, 0x54, 0x2E, 0x42, 0x49, 0x4E] ++ List.replicate 8 0x00
  ++ [0x00, 0x00, 0x01, 0x01, 0x01, 0xAA, 0x55, 0x00, 0xE6, 0xFF, 0xAA]

/-! ### WellFormed: one ill-formed term for each check (R92), and a well-formed one beside it -/

theorem test_wellFormed_rdreg : (Instr.rdreg 0x03).wellFormed Sizes.default = false ∧ (Instr.rdreg 0x38).wellFormed Sizes.default = true := by decide +kernel
theorem test_wellFormed_wrreg_channel : (Instr.wrreg 0x00 3).wellFormed Sizes.default = false ∧ (Instr.wrreg 0x00 2).wellFormed Sizes.default = true := by
  decide +kernel
theorem test_wellFormed_wrreg_delta_low : (Instr.wrreg 0x01 0).wellFormed Sizes.default = false ∧ (Instr.wrreg 0x01 1).wellFormed Sizes.default = true := by
  decide +kernel
theorem test_wellFormed_wrreg_delta_high :
    (Instr.wrreg 0x01 100).wellFormed Sizes.default = false ∧ (Instr.wrreg 0x01 99).wellFormed Sizes.default = true := by decide +kernel
theorem test_wellFormed_wrreg_tone : (Instr.wrreg 0x02 0).wellFormed Sizes.default = false ∧ (Instr.wrreg 0x02 1).wellFormed Sizes.default = true := by
  decide +kernel
theorem test_wellFormed_wrreg_readOnly : (Instr.wrreg 0x08 1).wellFormed Sizes.default = false := by decide +kernel
theorem test_wellFormed_rdhist_class : (Instr.rdhist 2 0).wellFormed Sizes.default = false ∧ (Instr.rdhist 1 0).wellFormed Sizes.default = true := by decide +kernel
theorem test_wellFormed_rdhist_bin :
    (Instr.rdhist 0 1024).wellFormed Sizes.default = false ∧ (Instr.rdhist 0 1023).wellFormed Sizes.default = true := by decide +kernel
theorem test_wellFormed_small : (Instr.rdhist 0 16).wellFormed smallSizes = false
    ∧ (Instr.wrreg 0x02 64).wellFormed smallSizes = false ∧ (Instr.wrreg 0x02 63).wellFormed smallSizes = true := by decide +kernel
theorem test_wellFormed_bsHex_low : (Instr.bsHex 0).wellFormed Sizes.default = false ∧ (Instr.bsHex 1).wellFormed Sizes.default = true := by decide +kernel
theorem test_wellFormed_bsHex_high : (Instr.bsHex 17).wellFormed Sizes.default = false ∧ (Instr.bsHex 16).wellFormed Sizes.default = true := by decide +kernel
theorem test_wellFormed_bsFind_width : (Instr.bsFind 0 0 0).wellFormed Sizes.default = false := by decide +kernel
theorem test_wellFormed_bsFind_target :
    (Instr.bsFind 8 0x1E6 0xFF).wellFormed Sizes.default = false ∧ (Instr.bsFind 8 0xE6 0xFF).wellFormed Sizes.default = true := by decide +kernel
theorem test_wellFormed_bsFind_mask : (Instr.bsFind 8 0 0x1FF).wellFormed Sizes.default = false := by decide +kernel
theorem test_wellFormed_bsAppend_width : (Instr.bsAppend 17 0).wellFormed Sizes.default = false := by decide +kernel
theorem test_wellFormed_bsAppend_value :
    (Instr.bsAppend 3 8).wellFormed Sizes.default = false ∧ (Instr.bsAppend 3 7).wellFormed Sizes.default = true := by decide +kernel

/-- The register numbers of the decoder's operand form are those of the map (R49), all 256 of them. -/
theorem test_register_numbers : ∀ n : BitVec 8, (regOfNumber n).isSome = registerListed n := by decide +kernel

/-! ### Decoding: a word written out for every constructor (R85 to R89; the words of R101 and of the vectors) -/

theorem test_decode_reset : decodeTableWord 64 0x0100000000000000 = some .reset := by decide +kernel
theorem test_decode_rdreg : decodeTableWord 64 0x0208000000000000 = some (.rdreg 0x08) := by decide +kernel
theorem test_decode_wrreg : decodeTableWord 64 0x0301000000000028 = some (.wrreg 0x01 40) := by decide +kernel
theorem test_decode_rdhist : decodeTableWord 64 0x0401000000000014 = some (.rdhist 1 20) := by decide +kernel
theorem test_decode_rdpay : decodeTableWord 64 0x0500000000000003 = some (.rdpay 3) := by decide +kernel
theorem test_decode_segReset : decodeTableWord 64 0x1000000000000000 = some .segReset := by decide +kernel
theorem test_decode_segAcc : decodeTableWord 64 0x110000000064FFF9 = some (.segAcc 100 (BitVec.ofInt 16 (-7))) := by decide +kernel
theorem test_decode_segSample :
    decodeTableWord 64 0x12000000FC1800FA = some (.segSample (BitVec.ofInt 16 (-1000)) 250) := by decide +kernel
theorem test_decode_segFlush : decodeTableWord 64 0x1300000000000000 = some .segFlush := by decide +kernel
theorem test_decode_demRearm : decodeTableWord 64 0x2000000000000000 = some .demRearm := by decide +kernel
theorem test_decode_pushDur : decodeTableWord 64 0x2100000000000014 = some (.pushDur 20) := by decide +kernel
theorem test_decode_bsReset : decodeTableWord 64 0x3000000000000000 = some .bsReset := by decide +kernel
theorem test_decode_bsOffset : decodeTableWord 64 0x31000000FFFFFFFF = some (.bsOffset 4294967295) := by decide +kernel
theorem test_decode_bsHex : decodeTableWord 64 0x3210000000000000 = some (.bsHex 16) := by decide +kernel
theorem test_decode_bsFind : decodeTableWord 64 0x331000000080FF80 = some (.bsFind 16 0x0080 0xFF80) := by decide +kernel
theorem test_decode_bsFindSync : decodeTableWord 64 0x3400000000000000 = some .bsFindSync := by decide +kernel
theorem test_decode_bsTrim : decodeTableWord 64 0x3500000000000000 = some .bsTrim := by decide +kernel
theorem test_decode_bsAppend : decodeTableWord 64 0x3610000000008001 = some (.bsAppend 16 0x8001) := by decide +kernel
theorem test_decode_parClassify : decodeTableWord 64 0x4000000000000000 = some .parClassify := by decide +kernel
theorem test_decode_parRadio : decodeTableWord 64 0x4100000000000000 = some .parRadio := by decide +kernel
theorem test_decode_parOrion : decodeTableWord 64 0x4200000000000000 = some .parOrion := by decide +kernel
theorem test_decode_parRaw : decodeTableWord 64 0x4300000000000000 = some .parRaw := by decide +kernel
theorem test_decode_parAuto : decodeTableWord 64 0x4400000000000000 = some .parAuto := by decide +kernel

/-- The 15 reserved encodings of V-SYS-5 (R91). -/
theorem test_decode_reserved : ∀ w ∈ [0x0000000000000000, 0x0600000000000000, 0x0100000000000001, 0x0101000000000000,
    0x0100000100000000, 0x2100000100000005, 0x2101000000000005, 0x1101000000000000, 0x3600000100000000, 0x3608000000010001,
    0x3208000000000001, 0x0208000000000001, 0x3211000000000001, 0xFF00000000000000, 0x4500000000000000],
    decodeTableWord 64 w = none := by decide +kernel

/-- The 23 rows as spec/opcode_table.json prints them, word by word, decode to their own mnemonics (R90). -/
theorem test_decode_rows : ∀ row ∈ opcodeRows,
    (decodeTableWord 64 row.pattern.toNat).map Instr.mnemonic = some row.mnemonic := by decide +kernel

/-! ### One step of every command -/

/-- V-SYS-8: `RESET` from a used state. -/
theorem test_reset : responseTo (demodulator .lost .half true (sameDurations 3 10) (sameDurations 1 20)) 0x0100000000000000
    = some 0x8000000000000000 := by decide +kernel
/-- P1 command 16: `STATUS` in phase `LOST`, state `full`, current bit 1, `F_STATE`. -/
theorem test_rdreg_status : responseTo { demodulator .lost .full true (sameDurations 7 10) (sameDurations 3 20) with sysFault := 4 }
    0x0208000000000000 = some 0x800000000000041A := by decide +kernel
/-- V-SYS-1: a number that is not in the map. -/
theorem test_rdreg_absent : responseTo State.reset 0x0225000000000000 = some 0xE100000000000000 := by decide +kernel
/-- V-SYS-2: the highest legal tolerance, and the first illegal one. -/
theorem test_wrreg_delta : responseTo State.reset 0x0301000000000063 = some 0x8000000000000063 := by decide +kernel
theorem test_wrreg_refused : responseTo State.reset 0x0301000000000064 = some 0xE100000000000000 := by decide +kernel
/-- P1 command 25 and V-SYS-3: the long histogram, and the first bin that is none. -/
theorem test_rdhist : responseTo (demodulator .decode .full true (sameDurations 7 10) (sameDurations 3 20)) 0x0401000000000014
    = some 0x8000000000000003 := by decide +kernel
theorem test_rdhist_refused : responseTo State.reset 0x0400000000000400 = some 0xE100000000000000 := by decide +kernel
/-- P3 commands 27 and 28: the last payload byte, and the index of `DF.npay`. -/
theorem test_rdpay : responseTo { State.reset with df := { DataFile.cleared with npay := 3 }, pay := payloadFrom 0 [0x10, 0x20, 0x30] }
    0x0500000000000002 = some 0x8000000000000030 := by decide +kernel
theorem test_rdpay_refused :
    responseTo { State.reset with df := { DataFile.cleared with npay := 3 }, pay := payloadFrom 0 [0x10, 0x20, 0x30] }
      0x0500000000000003 = some 0xE100000000000000 := by decide +kernel
/-- V-SEG-5. -/
theorem test_segReset : responseTo (segmenter 2 30 0 0 false) 0x1000000000000000 = some 0x8000000000000000 := by decide +kernel
/-- V-SEG-4: the mean of the channels rounds down. -/
theorem test_segAcc_floor : selectSample .both (-3) (-4) = -4 := by decide +kernel
/-- V-SYS-7: a full count. -/
theorem test_segAcc_full : responseTo (segmenter 4294967295 0 0 0 false) 0x1100000000010000 = some 0xE400000000000000 := by decide +kernel
/-- V-SYS-7: no crossing at a full run, and a crossing. -/
theorem test_segSample_full :
    responseTo (segmenter 4 0 500 4294967295 true) 0x1200000003E80000 = some 0xE400000000000000 := by decide +kernel
theorem test_segSample_crossing :
    responseTo (segmenter 4 0 500 4294967295 true) 0x12000000FC180000 = some 0x80800000FFFFFFFF := by decide +kernel
/-- P6 commands 41 and 42. -/
theorem test_segFlush : responseTo (segmenter 16 0 0 4 true) 0x1300000000000000 = some 0x8080000000000004 := by decide +kernel
theorem test_segFlush_closed : responseTo (segmenter 16 0 0 0 false) 0x1300000000000000 = some 0x8000000000000000 := by decide +kernel
/-- V-SYS-6: the fault bits stay. -/
theorem test_demRearm : responseTo { demodulator .lost .full true (sameDurations 3 10) (sameDurations 1 20) with sysFault := 4 }
    0x2000000000000000 = some 0x8000000000000000 := by decide +kernel
/-- P1 command 9: the first long pulse. -/
theorem test_pushDur_leadIn : responseTo (demodulator .decode .unknown false (sameDurations 5 10) Stats.empty) 0x2100000000000014
    = some 0x3480000000000021 := by decide +kernel
/-- V-SYS-7: a full count before a full memory. -/
theorem test_pushDur_full : responseTo { demodulator .calib .unknown false (sameDurations 4294967295 10) Stats.empty with
    cfg := { Cfg.reset with toneLen := 4294967295 } } 0x210000000000000A = some 0xE400000000000000 := by decide +kernel
/-- V-BS-8. -/
theorem test_bsReset : responseTo (tapeAt [0xE6] 5 true) 0x3000000000000000 = some 0x80000000FFFFFFFF := by decide +kernel
/-- V-BS-5: no move before start, and the saturated code. -/
theorem test_bsOffset_none : responseTo (tape [0x12, 0x34]) 0x3100000000000000 = some 0x80800000FFFFFFFF := by decide +kernel
theorem test_bsOffset_far : responseTo (tapeAt [0x12, 0x34] 16 false) 0x31000000FFFFFFFF = some 0x8000000000100001 := by decide +kernel
/-- V-BS-4: padding is inverted with the rest, and no window before start. -/
theorem test_bsHex_padding : responseTo (tapeAt [0xA5] 4 true) 0x3208000000000000 = some 0x80400000000000AF := by decide +kernel
theorem test_bsHex_beforeStart : responseTo (tape [0xA5]) 0x3208000000000000 = some 0xE200000000000000 := by decide +kernel
/-- V-BS-3: the lower position wins over the polarity, and at one position the non-inverted test comes first. -/
theorem test_bsFind_inverted : responseTo (tape [0x0F]) 0x33040000000F000F = some 0x80C0000000000000 := by decide +kernel
theorem test_bsFind_plain : responseTo (tape [0xF0]) 0x33040000000F000F = some 0x8080000000000000 := by decide +kernel
/-- V-BS-1: the second of two adjacent markers is missed, and the padded match. -/
theorem test_bsFindSync_missed : responseTo (tapeAt [0xE6, 0xE6, 0x41] 8 false) 0x3400000000000000 = some 0x8000000000000019 := by
  decide +kernel
theorem test_bsFindSync_padded : responseTo (tape [0x55] [true, true, true, false, false, true, true]) 0x3400000000000000
    = some 0x8080000000000010 := by decide +kernel
/-- V-BS-7 row 4. -/
theorem test_bsTrim : (tapeAt [0x12, 0xE6, 0xA5, 0x3C] 3 false).bs.trim.bits
    = streamOf [0x97, 0x35, 0x29] ++ [true, true, true, false, false] := by decide +kernel
/-- V-BS-8: a whole width, and a value that does not fit. -/
theorem test_bsAppend : responseTo (tape [0xE6] [true, false, true, true]) 0x3610000000008001 = some 0x800000000000001C := by
  decide +kernel
theorem test_bsAppend_refused : responseTo (tape [0xE6]) 0x3603000000000008 = some 0xE100000000000000 := by decide +kernel
/-- V-BS-9: the last bits that fit, and the first that does not. -/
theorem test_bsAppend_fits : (almostFull 8).bs.fits 1048576 8 = true ∧ (almostFull 0).bs.fits 1048576 1 = false := by
  simp only [Bitstream.fits, length_almostFull]; decide +kernel
/-- V-PAR-1: both ends of the printable range; the inverted padding is not zero. -/
theorem test_parClassify : responseTo (tape ([0x00, 0xE6, 0x20, 0x7F, 0x20, 0x7F, 0x20, 0x7F, 0x20, 0x7F] ++ List.replicate 8 0x00))
    0x4000000000000000 = some 0x2100000000000000 := by decide +kernel
theorem test_parClassify_inverted :
    responseTo (tape [0xFF, 0x19, 0xBE, 0xBD, 0xBC, 0xBB, 0xBA, 0xB9, 0xB8, 0xB7, 0xFF, 0xFF]) 0x4000000000000000
      = some 0x1740000000000000 := by decide +kernel
/-- V-PAR-4: every bit flipped. V-PAR-15a: the other byte order. -/
theorem test_parRadio_inverted : responseTo (tape (radioFile.map (fun b => ~~~b))) 0x4100000000000000 = some 0x01C0000000000003 := by
  decide +kernel
theorem test_parRadio_order : responseTo (tape radioFile [] .firstHigh) 0x4100000000000000 = some 0x1400000000000007 := by
  decide +kernel
/-- V-PAR-11a and V-PAR-11i. -/
theorem test_parOrion : responseTo (tape orionFile) 0x4200000000000000 = some 0x0180000000000002 := by decide +kernel
theorem test_parOrion_radio : responseTo (tape radioFile) 0x4200000000000000 = some 0x1800000000000000 := by decide +kernel
/-- V-PAR-13b: the last byte padded, and V-PAR-13c: no marker. -/
theorem test_parRaw_padded : responseTo (tape [0x55, 0x00, 0xC1] [true, false, true]) 0x4300000000000000
    = some 0x0300000000000003 := by decide +kernel
theorem test_parRaw_none : responseTo (tape [0x12, 0x34]) 0x4300000000000000 = some 0x0300000000000000 := by decide +kernel
/-- P3 command 17, and V-PAR-14: an attempt that falls back. -/
theorem test_parAuto : responseTo (tape radioFile) 0x4400000000000000 = some 0x0180200100000003 := by decide +kernel
theorem test_parAuto_fallback : responseTo (tape [0x00, 0xE6, 0x00, 0x40]) 0x4400000000000000 = some 0x0300201200000004 := by
  decide +kernel
/-- V-SYS-5: a reserved word. -/
theorem test_reserved : responseTo State.reset 0x3608000000010001 = some 0xE000000000000000 := by decide +kernel
/-- V-DEM-8: the class of every duration at a band edge. -/
theorem test_band_edges : [0, 6, 7, 13, 14, 16, 17, 23, 24].map (classifyPulse (sameDurations 5 10) 40)
    = [.neither, .neither, .short, .short, .neither, .neither, .long, .long, .neither] := by decide +kernel

/-- The capacities of a small instance (R13): the count, the bins, the bit memory and the tone length. -/
theorem test_small_pushDur : responseTo (small { demodulator .calib .unknown false (sameDurations 63 10) Stats.empty with
    cfg := { Cfg.reset with toneLen := 63 } }) 0x210000000000000A = some 0xE400000000000000 := by decide +kernel
theorem test_small_rdhist : responseTo (small State.reset) 0x0400000000000010 = some 0xE100000000000000 := by decide +kernel
theorem test_small_bsAppend : responseTo (small (tape [1, 2, 3, 4, 5, 6, 7, 8])) 0x3601000000000001
    = some 0xE300000000000000 := by decide +kernel
theorem test_small_wrreg : responseTo (small State.reset) 0x0302000000000040 = some 0xE100000000000000 := by decide +kernel

/-! ### Witnesses: concrete states and operands that meet the hypotheses of each statement -/

/-- The instruction answers a next state whose response holds the given `st`. -/
def Answers (i : Instr) (s : State) (st : BitVec 8) : Prop := ∃ t, exec i s = .next t ∧ t.statusByte = st

/-- The step answers a next state whose response holds the given `st`. -/
def StepAnswers (s : State) (st : BitVec 8) : Prop := ∃ t, step s = .next t ∧ t.statusByte = st

/-- The `st` of an outcome, 0 for a stop. -/
def outcomeStatus : Result → BitVec 8
  | .next t => t.statusByte
  | _ => 0

theorem answers_of_outcome {i : Instr} {s : State} {st : BitVec 8} (h0 : st ≠ 0) (h : outcomeStatus (exec i s) = st) :
    Answers i s st := by
  unfold Answers
  cases he : exec i s with
  | next t => rw [he] at h; exact ⟨t, rfl, h⟩
  | fault r => rw [he] at h; exact absurd h.symm h0
  | refused r => rw [he] at h; exact absurd h.symm h0

theorem stepAnswers_of_outcome {s : State} {st : BitVec 8} (h0 : st ≠ 0) (h : outcomeStatus (step s) = st) :
    StepAnswers s st := by
  unfold StepAnswers
  cases he : step s with
  | next t => rw [he] at h; exact ⟨t, rfl, h⟩
  | fault r => rw [he] at h; exact absurd h.symm h0
  | refused r => rw [he] at h; exact absurd h.symm h0

/-- The state with one command word to take. -/
def withCommand (s : State) (cw : Word64) : State := { s with cmds := [cw] }

theorem inv_sameDurations {z : Sizes} {n d : Nat} (hn : n ≠ 0) (hc : n < 2 ^ z.cntW) (hd : d < z.histBins) (hw : d < 2 ^ z.durW) :
    (sameDurations n d).Inv z := by
  refine ⟨hc, ⟨List.pairwise_singleton _ _, fun c h => ?_⟩, fun c h => ?_, ?_, fun h => absurd h hn, fun _ => ?_⟩
  · rw [List.mem_singleton.1 h]; exact hn
  · rw [List.mem_singleton.1 h]; exact hd
  · simp [Hist.total, sameDurations]
  · refine ⟨d, d, rfl, rfl, Nat.le_refl d, hw, Nat.le_of_eq (Nat.mul_comm _ _), Nat.le_of_eq (Nat.mul_comm _ _), Nat.le_of_eq ?_⟩
    show n * d * d = d * d * n
    rw [Nat.mul_assoc, Nat.mul_comm]

/-- The durations of the witnesses fit their width; checked one by one, since a quantifier over all durations is not evaluated. -/
theorem durations_fit : (∀ d ∈ [(10 : Duration), 30, 10, 30], d.toNat < 2 ^ Sizes.default.durW)
    ∧ ∀ d ∈ [(20 : Duration), 10, 10, 20, 20], d.toNat < 2 ^ Sizes.default.durW := by
  simp only [List.forall_mem_cons, List.not_mem_nil, false_implies, implies_true, and_true]
  decide +kernel

/-- A busy legal state: V-SYS-8 before its last pulse, with a raw capture made and `PUSH_DUR 20` to come. -/
def legalState : State :=
  { cfg := { channel := .both, deltaPct := 25, toneLen := 2 }
    seg := { n := 2, sum := 0, cur := 0, run := 1, isOpen := true }
    dem := { phase := .decode, fsm := .full, curBit := true }
    stS := sameDurations 3 10
    stL := sameDurations 1 20
    bs := { bits := List.replicate 32 false ++ [true], cursor := .onBit 40, inv := false }
    df := { DataFile.cleared with cls := .raw, attempt := .noSync, ctype := .noSync, endAddr := 1, len := 2, npay := 2 }
    pay := payloadFrom 0 [0x00, 0x80]
    sysFault := 1
    wordOrder := .firstHigh
    sizes := Sizes.default
    cmds := [0x2100000000000014]
    resp := some 0x0300101000000002 }

theorem inv_legalState : legalState.Inv where
  sizes := legal_default
  cfg := ⟨by decide +kernel, by decide +kernel⟩
  seg := ⟨fun _ => ⟨by decide +kernel, by decide +kernel⟩, nofun, by decide +kernel, by decide +kernel, by decide +kernel, by decide +kernel,
    by decide +kernel⟩
  dem := ⟨nofun, fun _ => by decide +kernel⟩
  short := inv_sameDurations (by decide +kernel) (by decide +kernel) (by decide +kernel) (by decide +kernel)
  long := inv_sameDurations (by decide +kernel) (by decide +kernel) (by decide +kernel) (by decide +kernel)
  bits := by decide +kernel
  payload := by decide +kernel
  par := ⟨by decide +kernel, by decide +kernel, by decide +kernel⟩
  fault := by decide +kernel

theorem test_witness_EncodeOfDecode : decode 0x3308000000E600FF = .ok (.bsFind 8 0xE6 0xFF) := by decide
theorem test_witness_DecodeFollowsOpcodeTable : ∃ row ∈ opcodeRows, (0x3608000000000001 : Word64) &&& row.mask = row.pattern :=
  ⟨⟨"BS_APPEND", 0x3600000000000000, 0xFF00FFFFFFFF0000⟩, by decide, by decide⟩
/-- One reserved word for each reason, at the lowest and the highest bit of the field that must be 0. -/
theorem test_witness_ReservedEncodingsRefused_reserved : ∀ cw ∈ [(0x0000000000000000 : Word64), 0x0600000000000000,
    0x4500000000000000, 0xFF00000000000000, 0x0300000100000000, 0x3308800000E600FF, 0x0101000000000000, 0x2180000000000005,
    0x0100000000000001, 0x3208000080000000, 0x3608000000010001, 0x3608000080000001],
    reservedWord cw ∧ (withCommand legalState cw).cmds = [cw] := by
  unfold reservedWord
  simp only [List.forall_mem_cons, List.not_mem_nil, false_implies, implies_true, and_true]
  and_intros <;> decide +kernel
theorem test_witness_ReservedEncodingsRefused_legal : ∀ cw ∈ [(0x0100000000000000 : Word64), 0x33FF0000FFFFFFFF,
    0x36FF00000000FFFF, 0x02FF000000000000, 0x21000000FFFFFFFF], ¬ reservedWord cw := by
  unfold reservedWord
  simp only [List.forall_mem_cons, List.not_mem_nil, false_implies, implies_true, and_true]
  and_intros <;> decide +kernel
theorem test_witness_StepRunsDecoded : legalState.cmds = [0x2100000000000014] ∧ decode 0x2100000000000014 = .ok (.pushDur 20)
    ∧ State.reset.cmds = [] := by decide
theorem test_witness_EveryStepKeepsInvariant : legalState.Inv ∧ StepAnswers legalState 0x34 :=
  ⟨inv_legalState, stepAnswers_of_outcome (by decide) (by decide +kernel)⟩
theorem test_witness_LegalStatesNeverStop : legalState.Inv
    ∧ (match exec (.rdpay 1) { legalState with pay := payloadFrom 0 [0x00] } with
      | .fault .payloadUnwritten => true
      | _ => false) = true := ⟨inv_legalState, by decide⟩
theorem test_witness_UnrefusableCommandsComplete : alwaysCompletes .reset = true ∧ alwaysCompletes (.bsOffset 4294967295) = true
    ∧ alwaysCompletes .parAuto = true := by decide
/-- A step that answers each of the five faults (V-SYS-5, V-SYS-6, V-SYS-7). -/
theorem test_witness_RefusalChangesOnlyItsBit :
    ((0x01, 0xE0) ∈ faultTable ∧ StepAnswers (withCommand legalState 0x0600000000000000) 0xE0)
    ∧ ((0x02, 0xE1) ∈ faultTable ∧ StepAnswers (withCommand legalState 0x0500000000000002) 0xE1)
    ∧ ((0x04, 0xE2) ∈ faultTable ∧ StepAnswers (withCommand legalState 0x1100000000050000) 0xE2)
    ∧ ((0x10, 0xE4) ∈ faultTable
      ∧ StepAnswers (withCommand (segmenter 4294967295 0 0 0 false) 0x1100000000010000) 0xE4) :=
  ⟨⟨by decide, stepAnswers_of_outcome (by decide) (by decide +kernel)⟩,
    ⟨by decide, stepAnswers_of_outcome (by decide) (by decide +kernel)⟩,
    ⟨by decide, stepAnswers_of_outcome (by decide) (by decide +kernel)⟩,
    ⟨by decide, stepAnswers_of_outcome (by decide) (by decide +kernel)⟩⟩
/-- V-BS-9: the fifth, in a Bitstream at its capacity. -/
theorem test_witness_RefusalChangesOnlyItsBit_full : exec (.bsAppend 1 1) (almostFull 0) = refuse .bsFull (almostFull 0) := by
  have h : (almostFull 0).bs.fits (almostFull 0).sizes.bsCap 1 = false := test_bsAppend_fits.2
  have hw : (!(widthLegal 1 && valueFits 1 1)) = false := by decide
  simp only [exec, execBsAppend, hw, show (1 : BitVec 8).toNat = 1 from rfl, h, Bool.false_eq_true, if_false, Bool.not_false,
    if_true]
theorem test_witness_FaultBitsAreSticky : (withCommand legalState 0x0100000000000000).cmds = [0x0100000000000000]
    ∧ StepAnswers (withCommand legalState 0x0100000000000000) 0x80 ∧ StepAnswers (withCommand legalState 0x3208000000000000) 0x80
    ∧ StepAnswers (withCommand legalState 0x3211000000000000) 0xE1 :=
  ⟨rfl, stepAnswers_of_outcome (by decide) (by decide +kernel), stepAnswers_of_outcome (by decide) (by decide +kernel),
    stepAnswers_of_outcome (by decide) (by decide +kernel)⟩
theorem test_witness_StatusValuesOfCommands : StepAnswers (withCommand legalState 0x4000000000000000) 0x10
    ∧ StepAnswers (withCommand legalState 0x3608000000010001) 0xE0 :=
  ⟨stepAnswers_of_outcome (by decide) (by decide +kernel), stepAnswers_of_outcome (by decide) (by decide +kernel)⟩
theorem test_witness_ReadsChangeNothing : Answers (.rdreg 0x38) legalState 0x80 ∧ Answers (.rdhist 1 20) legalState 0x80
    ∧ Answers (.rdpay 1) legalState 0x80 ∧ Answers (.rdpay 2) legalState 0xE1 ∧ Answers (.bsHex 16) legalState 0x80 :=
  ⟨answers_of_outcome (by decide) (by decide +kernel), answers_of_outcome (by decide) (by decide +kernel),
    answers_of_outcome (by decide) (by decide +kernel), answers_of_outcome (by decide) (by decide +kernel),
    answers_of_outcome (by decide) (by decide +kernel)⟩
theorem test_witness_BitMemoryIsAppendOnly : Answers .bsTrim legalState 0x80 ∧ Answers .demRearm legalState 0x80
    ∧ Answers (.bsAppend 16 0x8001) legalState 0x80 ∧ Answers .parRaw legalState 0x03 :=
  ⟨answers_of_outcome (by decide) (by decide +kernel), answers_of_outcome (by decide) (by decide +kernel),
    answers_of_outcome (by decide) (by decide +kernel), answers_of_outcome (by decide) (by decide +kernel)⟩
theorem test_witness_CursorOnlyGrowsWithinScan : beginsScan (.bsOffset 1) = false ∧ Answers (.bsOffset 1) legalState 0x80
    ∧ beginsScan .bsFindSync = false ∧ Answers .bsFindSync legalState 0x80 :=
  ⟨rfl, answers_of_outcome (by decide) (by decide +kernel), rfl, answers_of_outcome (by decide) (by decide +kernel)⟩
theorem test_witness_OnlyOwnersWrite : Answers (.wrreg 0x01 99) legalState 0x80 ∧ Answers .segFlush legalState 0x80
    ∧ Answers (.pushDur 20) legalState 0x34 ∧ Answers .bsReset legalState 0x80 ∧ Answers .parAuto legalState 0x03 :=
  ⟨answers_of_outcome (by decide) (by decide +kernel), answers_of_outcome (by decide) (by decide +kernel),
    answers_of_outcome (by decide) (by decide +kernel), answers_of_outcome (by decide) (by decide +kernel),
    answers_of_outcome (by decide) (by decide +kernel)⟩
/-- The numbers beside every end of the map (V-SYS-1). -/
theorem test_witness_RdregReadsRegisterMap : ∀ reg ∈ [(0x03 : BitVec 8), 0x07, 0x0B, 0x0F, 0x25, 0x2F, 0x39, 0xFF],
    reg.toNat ∉ (registerMap legalState).map Prod.fst := by decide +kernel
theorem test_witness_RdpayReadsPayload : legalState.Inv ∧ (1 : BitVec 32).toNat < legalState.df.npay.toNat
    ∧ legalState.df.npay.toNat ≤ (2 : BitVec 32).toNat := ⟨inv_legalState, by decide, by decide⟩
theorem test_witness_SegAccAddsSelectedSample : Sizes.default.Legal ∧ (segmenter 1 0 0 1 true).seg.isOpen = true
    ∧ ((segmenter 4294967295 0 0 0 false).seg.isOpen = false ∧ (segmenter 4294967295 0 0 0 false).seg.n = 2 ^ 32 - 1)
    ∧ ((segmenter 4294967294 0 0 0 false).seg.n ≠ 2 ^ 32 - 1 ∧ (segmenter 4294967294 0 0 0 false).seg.Inv Sizes.default)
    ∧ smallSizes.Legal ∧ (small (segmenter 62 0 0 0 false)).seg.Inv smallSizes :=
  ⟨legal_default, rfl, ⟨rfl, by decide +kernel⟩, ⟨by decide +kernel, nofun, fun _ => ⟨rfl, rfl⟩, by decide +kernel, by decide +kernel,
    by decide +kernel, by decide +kernel, by decide +kernel⟩, legal_smallSizes, nofun, fun _ => ⟨rfl, rfl⟩, by decide +kernel,
    by decide +kernel, by decide +kernel, by decide +kernel, by decide +kernel⟩
theorem test_witness_SmoothTruncatesTowardZero : 0 ≤ 2 * (974 : Int) + 3 * 5 ∧ 2 * (974 : Int) + 3 * (-1000) ≤ 0 := by decide +kernel
/-- No mean; a run to open; a crossing; no crossing with room, at the last length that grows; no crossing at the full length. -/
theorem test_witness_SegSampleEmitsAtCrossings : Sizes.default.Legal
    ∧ (segmenter 0 0 0 0 false).seg.n = 0
    ∧ ((segmenter 4 0 0 0 false).seg.n ≠ 0 ∧ (segmenter 4 0 0 0 false).seg.isOpen = false)
    ∧ ((segmenter 4 0 500 7 true).seg.isOpen = true ∧ crosses (segmenter 4 0 500 7 true) (-1000))
    ∧ (¬ crosses (segmenter 4 0 500 4294967294 true) 1000 ∧ (segmenter 4 0 500 4294967294 true).seg.run ≠ 2 ^ 32 - 1)
    ∧ (¬ crosses (segmenter 4 0 500 4294967295 true) 1000 ∧ (segmenter 4 0 500 4294967295 true).seg.run = 2 ^ 32 - 1) :=
  ⟨legal_default, by unfold crosses; decide +kernel⟩
theorem test_witness_DurationsSumToSamples : (segmenter 2 0 0 0 false).sizes.durW ≤ 32
    ∧ (segmenter 2 0 0 0 false).seg.isOpen = false ∧ (segmenter 2 0 0 0 false).seg.n ≠ 0
    ∧ [((1000 : Sample), (0 : Sample)), (BitVec.ofInt 16 (-1000), 0)].length < 2 ^ (segmenter 2 0 0 0 false).sizes.durW := by
  decide +kernel
theorem test_witness_LostToneRefusesUntilRearm :
    (demodulator .lost .half true (sameDurations 6 10) (sameDurations 1 20)).dem.phase = .lost
    ∧ (demodulator .lost .half true (sameDurations 6 10) (sameDurations 1 20)).cfg.Inv Sizes.default :=
  ⟨rfl, by decide +kernel, by decide +kernel⟩
theorem test_witness_ToleranceBandIsOpenAndExact : (sameDurations 5 10).count ≠ 0 ∧ check (sameDurations 5 10) 40 7 1 = true
    ∧ check (sameDurations 5 10) 40 6 1 = false ∧ check (sameDurations 5 10) 40 17 2 = true ∧ Stats.empty.sum = 0 := by
  decide +kernel
/-- An empty aggregate, one below the full count with the last bin, and one of a small instance. -/
theorem test_witness_FoldAddsOneDuration :
    (Sizes.default.Legal ∧ Stats.empty.Inv Sizes.default ∧ Stats.empty.count ≠ 2 ^ 32 - 1 ∧ 4294967295 < 2 ^ Sizes.default.durW)
    ∧ ((sameDurations 4294967294 1023).Inv Sizes.default ∧ (sameDurations 4294967294 1023).count ≠ 2 ^ 32 - 1)
    ∧ smallSizes.Legal ∧ (sameDurations 62 15).Inv smallSizes ∧ (sameDurations 62 15).count ≠ 2 ^ smallSizes.cntW - 1 :=
  ⟨⟨legal_default, Stats.inv_empty _, by decide +kernel, by decide +kernel⟩,
    ⟨inv_sameDurations (by decide +kernel) (by decide +kernel) (by decide +kernel) (by decide +kernel), by decide +kernel⟩, legal_smallSizes,
    inv_sameDurations (by decide +kernel) (by decide +kernel) (by decide +kernel) (by decide +kernel), by decide +kernel⟩
/-- A full count, the last count that is not full, and a duration outside the band at a full count. -/
theorem test_witness_CalibrationFoldsOrRestarts :
    (demodulator .calib .unknown false (sameDurations 4294967295 10) Stats.empty).dem.phase = .calib
    ∧ check (sameDurations 4294967295 10) 40 10 1 = true ∧ (sameDurations 4294967295 10).count = 2 ^ 32 - 1
    ∧ check (sameDurations 4294967295 10) 40 14 1 = false ∧ (sameDurations 4294967294 10).count ≠ 2 ^ 32 - 1 := by
  decide +kernel
theorem test_witness_CalibrationConvergesExactly : State.reset.sizes.Legal ∧ State.reset.cfg.Inv State.reset.sizes
    ∧ State.reset.dem.phase = .calib ∧ State.reset.stS = Stats.empty ∧ State.reset.cfg.toneLen < 2 ^ State.reset.sizes.cntW - 1
    ∧ (∀ d ∈ [(10 : Duration), 30, 10, 30], d.toNat < 2 ^ State.reset.sizes.durW)
    ∧ [(10 : Duration), 30, 10, 30].IsChain (fun a b =>
        check (Stats.empty.fold State.reset.sizes.histBins a.toNat) State.reset.cfg.deltaPct b.toNat 1 = false) :=
  ⟨legal_default, ⟨by decide +kernel, by decide +kernel⟩, rfl, rfl, by decide +kernel, durations_fit.1, by decide +kernel⟩
/-- A short and a long duration, the long one where its 33 bits fill the memory exactly. -/
theorem test_witness_DecodePhaseFollowsTable :
    ClassifiedAs (demodulator .decode .full true (sameDurations 5 10) Stats.empty) 7 false
    ∧ ClassifiedAs (demodulator .decode .unknown false (sameDurations 5 10) Stats.empty) 20 true
    ∧ (sameDurations 4294967294 20).count ≠ 2 ^ 32 - 1
    ∧ (almostFull 33).bs.bits.length + (bitMachine .unknown false true).2.2.length ≤ (almostFull 33).sizes.bsCap := by
  rw [length_almostFull]; unfold ClassifiedAs; decide +kernel
/-- A short pulse before the lead-in ends; a long one after a broken pairing, where one bit just fits. -/
theorem test_witness_LeadInGoesOnAndErrorResyncs :
    ClassifiedAs (demodulator .decode .unknown false (sameDurations 5 10) Stats.empty) 13 false
    ∧ ClassifiedAs (demodulator .decode .modulError false (sameDurations 5 10) Stats.empty) 23 true
    ∧ (sameDurations 4294967294 20).count ≠ 2 ^ 32 - 1
    ∧ (almostFull 1).bs.bits.length + (bitMachine .modulError false true).2.2.length ≤ (almostFull 1).sizes.bsCap := by
  rw [length_almostFull]; unfold ClassifiedAs; decide +kernel
theorem test_witness_NeitherBandLosesTone :
    (demodulator .decode .modulError true (sameDurations 5 10) (sameDurations 1 20)).dem.phase = .decode
    ∧ check (sameDurations 5 10) 40 14 1 = false ∧ check (sameDurations 5 10) 40 14 2 = false := by decide +kernel
/-- A full long count, and 33 bits where 32 fit. -/
theorem test_witness_DecodePhaseRefusals :
    ClassifiedAs (demodulator .decode .unknown false (sameDurations 5 10) (sameDurations 4294967295 20)) 20 true
    ∧ (sameDurations 4294967295 20).count = 2 ^ 32 - 1
    ∧ (almostFull 32).sizes.bsCap < (almostFull 32).bs.bits.length + (bitMachine .unknown false true).2.2.length := by
  rw [length_almostFull]; unfold ClassifiedAs; decide +kernel

/-- The state after `PUSH_DUR`, the state itself where it stops. -/
def afterPush (s : State) (d : Duration) : State :=
  match exec (.pushDur d) s with
  | .next t => t
  | _ => s

theorem exec_pushDur_afterPush (s : State) (d : Duration) : exec (.pushDur d) s = .next (afterPush s d) := by
  unfold afterPush
  rcases exec_ends (.pushDur d) s with (⟨f, h⟩ | ⟨_, _, _, _, _, h, _⟩) | ⟨h, _⟩ | ⟨_, h, _⟩
  · rw [h]; rfl
  · rw [h]; rfl
  · cases h
  · cases h

/-- V-DEM-3 from its first long pulse on. -/
theorem test_witness_CraftedSequenceDecodes :
    let s0 := demodulator .decode .unknown false (sameDurations 5 10) Stats.empty
    let s1 := afterPush s0 20
    let s2 := afterPush s1 10
    let s3 := afterPush s2 10
    let s4 := afterPush s3 20
    let s5 := afterPush s4 20
    s0.dem = { phase := .decode, fsm := .unknown, curBit := false }
    ∧ (∀ d ∈ [(20 : Duration), 10, 10, 20, 20], d.toNat < 2 ^ s0.sizes.durW)
    ∧ ClassifiedAs s0 20 true ∧ ClassifiedAs s1 10 false ∧ ClassifiedAs s2 10 false ∧ ClassifiedAs s3 20 true
    ∧ ClassifiedAs s4 20 true
    ∧ exec (.pushDur 20) s0 = .next s1 ∧ exec (.pushDur 10) s1 = .next s2 ∧ exec (.pushDur 10) s2 = .next s3
    ∧ exec (.pushDur 20) s3 = .next s4 ∧ exec (.pushDur 20) s4 = .next s5
    ∧ ∀ t ∈ [s1, s2, s3, s4, s5], t.statusByte.toNat < 0xE0 :=
  ⟨rfl, durations_fit.2, by unfold ClassifiedAs; decide +kernel, by unfold ClassifiedAs; decide +kernel,
    by unfold ClassifiedAs; decide +kernel, by unfold ClassifiedAs; decide +kernel, by unfold ClassifiedAs; decide +kernel,
    exec_pushDur_afterPush _ _, exec_pushDur_afterPush _ _, exec_pushDur_afterPush _ _, exec_pushDur_afterPush _ _,
    exec_pushDur_afterPush _ _, by decide +kernel⟩
/-- Both ends of the width, before start, on a bit and beyond the end. -/
theorem test_witness_BsHexReadsWindow : ((0 : BitVec 8).toNat = 0 ∧ 16 < (17 : BitVec 8).toNat)
    ∧ (1 ≤ (1 : BitVec 8).toNat ∧ (16 : BitVec 8).toNat ≤ 16) ∧ (tape [0xA5]).bs.cursor = .beforeStart
    ∧ (tapeAt [0xA5] 0 true).bs.cursor = .onBit 0 ∧ (tapeAt [0xA5] 100 false).bs.cursor = .onBit 100 := by decide
/-- Each operand out of range alone, and all at the ends of the range. -/
theorem test_witness_BsFindStandsOnLowestMatch :
    (16 < (17 : BitVec 8).toNat ∧ 2 ^ (8 : BitVec 8).toNat ≤ (0x100 : BitVec 16).toNat)
    ∧ (1 ≤ (1 : BitVec 8).toNat ∧ (1 : BitVec 16).toNat < 2 ^ (1 : BitVec 8).toNat)
    ∧ ((16 : BitVec 8).toNat ≤ 16 ∧ (0xFFFF : BitVec 16).toNat < 2 ^ (16 : BitVec 8).toNat) := by decide
theorem test_witness_OnlyPaddedSyncMatch :
    (responseTo (tape [0x12, 0xE6, 0xA5]) 0x3400000000000000 = some 0x8080000000000010)
    ∧ responseTo (tape [0x55] [true, true, true, false, false, true, true]) 0x3400000000000000 = some 0x8080000000000010 := by
  decide +kernel
theorem test_witness_BsAppendReadsBack : ((1 : BitVec 16).toNat < 2 ^ (1 : BitVec 8).toNat
      ∧ (0xFFFF : BitVec 16).toNat < 2 ^ (16 : BitVec 8).toNat ∧ 2 ^ (3 : BitVec 8).toNat ≤ (8 : BitVec 16).toNat)
    ∧ (almostFull 16).bs.bits.length + (16 : BitVec 8).toNat ≤ (almostFull 16).sizes.bsCap
    ∧ (almostFull 15).sizes.bsCap < (almostFull 15).bs.bits.length + (16 : BitVec 8).toNat := by
  rw [length_almostFull, length_almostFull]; decide +kernel
/-- A cursor beyond the saturated code. -/
theorem test_witness_CursorSaturationIsInvisible : (tapeAt [0x12, 0x34] 4294967311 false).bs.bits.length ≤ 1048576
    ∧ (tapeAt [0x12, 0x34] 4294967311 false).sizes.bsCap = 1048576
    ∧ Answers (.bsOffset 4294967295) (tapeAt [0x12, 0x34] 4294967311 false) 0x80 :=
  ⟨by decide, rfl, answers_of_outcome (by decide) (by decide +kernel)⟩
theorem test_witness_SegAndDemCommute : unitOf (.segSample 100 (BitVec.ofInt 16 (-100))) = .seg
    ∧ Answers (.segSample 100 (BitVec.ofInt 16 (-100))) legalState 0x80 ∧ Answers (.pushDur 20) legalState 0x34 :=
  ⟨rfl, answers_of_outcome (by decide) (by decide +kernel), answers_of_outcome (by decide) (by decide +kernel)⟩
/-- No marker; a marker and an unprintable byte, the last of the eight; eight printable bytes at the ends of the range and eight
zero bytes; eight printable bytes and a last byte not zero. -/
theorem test_witness_ClassifyByHeader :
    (findSync (streamOf [0x12, 0x34]) 0).1 = false
    ∧ (findSync (streamOf ([0xE6] ++ List.replicate 7 0x41 ++ [0x80])) 0).1 = true
    ∧ 0x7F < tapeByte (streamOf ([0xE6] ++ List.replicate 7 0x41 ++ [0x80])) false (8 + 8 * 7)
    ∧ tapeByte (streamOf ([0xE6] ++ List.replicate 7 0x20 ++ [0x7F] ++ List.replicate 7 0 ++ [0x01])) false (8 + 64 + 8 * 7) ≠ 0 := by
  unfold tapeByte windowValue windowSum; decide +kernel
theorem test_witness_RadioFrameDecodes : (([0x10, 0x20, 0x30] : List Byte).length : Int)
      = ((0x4002 : Word16).toNat : Int) - (0x4000 : Word16).toNat + 1
    ∧ (tape (radioFile.map (fun b => ~~~b))).bs.bits
      = (streamOf ([0x00, 0xE6] ++ frameBody .firstLow 0x4000 0x4002 0x3060 [0x10, 0x20, 0x30])).map (fun b => b ^^ true) := by
  decide +kernel
theorem test_witness_OrionFrameDecodes : (([0xAA, 0x55] : List Byte).length : Int)
      = ((0x0101 : Word16).toNat : Int) - (0x0100 : Word16).toNat + 1
    ∧ (tape orionFile).bs.bits = (streamOf ([0x00, 0xE6] ++ (#v[0x54, 0x45, 0x53, 0x54, 0x2E, 0x42, 0x49, 0x4E] : Vector Byte 8).toList
      ++ List.replicate 8 0x00 ++ [0x00] ++ frameBody .firstLow 0x0100 0x0101 0xAAFF [0xAA, 0x55])).map (fun b => b ^^ false) := by
  decide +kernel
/-- Every end of the decode: no marker; no base; no length; a negative length; a payload that runs out; no second marker; no
checksum; a wrong and a right checksum (vectors of spec/95_test_vectors.md section 5 and the examples of R209 to R214). -/
theorem test_witness_RadioOutcomes :
    Answers .parRadio (tape [0x12, 0x34]) 0x10 ∧ Answers .parRadio (tape [0x00, 0xE6, 0x00]) 0x11
    ∧ Answers .parRadio (tape [0x00, 0xE6, 0x00, 0x40, 0x02]) 0x12
    ∧ Answers .parRadio (tape [0x00, 0xE6, 0x02, 0x40, 0x00, 0x40, 0x11, 0x22]) 0x13
    ∧ Answers .parRadio (tape [0x00, 0xE6, 0x00, 0x40, 0x02, 0x40, 0x10, 0x20]) 0x14
    ∧ Answers .parRadio (tape [0x00, 0xE6, 0x00, 0x40, 0x00, 0x40, 0x77, 0xE6, 0x77, 0x00]) 0x15
    ∧ Answers .parRadio (tape [0x00, 0xE6, 0x00, 0x40, 0x00, 0x40, 0x77, 0x00, 0xE6, 0x77]) 0x16
    ∧ Answers .parRadio (tape [0x00, 0xE6, 0x00, 0x40, 0x00, 0x40, 0x77, 0x00, 0xE6, 0x78, 0x00]) 0x02
    ∧ Answers .parRadio (tape [0x00, 0xE6, 0x00, 0x40, 0x00, 0x40, 0x77, 0x00, 0xE6, 0x77, 0x00]) 0x01 := by
  and_intros <;> exact answers_of_outcome (by decide) (by decide +kernel)
/-- The same for the structured header: no marker; a header that runs out; a byte that is not zero; and the body's ends. -/
theorem test_witness_OrionOutcomes :
    Answers .parOrion (tape [0x12, 0x34]) 0x10 ∧ Answers .parOrion (tape [0x00, 0xE6, 0x41]) 0x17
    ∧ Answers .parOrion (tape radioFile) 0x18
    ∧ Answers .parOrion (tape ([0xE6] ++ List.replicate 8 0x41 ++ List.replicate 9 0x00)) 0x11
    ∧ Answers .parOrion (tape orionFile) 0x01
    ∧ findSync (tape [0x00, 0xE6]).bs.bits 0 = (true, { pos := 16, inv := false }) :=
  ⟨answers_of_outcome (by decide) (by decide +kernel), answers_of_outcome (by decide) (by decide +kernel),
    answers_of_outcome (by decide) (by decide +kernel), answers_of_outcome (by decide) (by decide +kernel),
    answers_of_outcome (by decide) (by decide +kernel), by decide +kernel⟩
/-- A marker of each polarity found by the `BS_FIND` of R181, the Bitstream without one, and the greatest one. -/
theorem test_witness_RawCaptureReadsToEnd :
    responseTo (tape [0xAA, 0xFF, 0x3C]) 0x331000000080FF80 = some 0x80C0000000000008
    ∧ responseTo (tape [0x00, 0x80, 0x41, 0x42]) 0x331000000080FF80 = some 0x8080000000000000
    ∧ responseTo (tape [0x12, 0x34]) 0x331000000080FF80 = some 0x8000000000000011
    ∧ (almostFull 0).bs.bits.length < 2 ^ 32 := by
  rw [length_almostFull]; decide +kernel
theorem test_witness_SaveExactlyWhenOk : (unitOf .parRadio = .par ∧ Answers .parRadio (tape radioFile) 0x01)
    ∧ ((legalState.df.save = true ↔ legalState.df.cls = .ok) ∧ Answers .segReset legalState 0x80) :=
  ⟨⟨rfl, answers_of_outcome (by decide) (by decide +kernel)⟩,
    inv_legalState.par.save, answers_of_outcome (by decide) (by decide +kernel)⟩
theorem test_witness_HostLoopShrinksStream : (tape radioFile).bs.bits ≠ [] ∧ Answers .parAuto (tape [0x12, 0x34]) 0x03 :=
  ⟨by decide, answers_of_outcome (by decide) (by decide +kernel)⟩

end Sys2Proof.Tests
end

/-! PROOFS. What a step does, one equation per case of its definition (spec/00_scope.md R16, spec/30_encoding.md R90, R91). -/

namespace Sys2Proof.Machine

theorem step_of_cmds_eq_nil {s : State} (h : s.cmds = []) : step s = .next s := by
  unfold step takeCommand
  rw [h]

theorem step_of_decode_ok {s : State} {cw : Word64} {rest : List Word64} {i : Instr} (h : s.cmds = cw :: rest)
    (hd : decode cw = .ok i) : step s = exec i { s with cmds := rest } := by
  unfold step takeCommand
  rw [h]
  dsimp only
  rw [hd]

theorem step_of_decode_reserved {s : State} {cw : Word64} {rest : List Word64} {e : DecodeError} (h : s.cmds = cw :: rest)
    (hd : decode cw = .reserved e) : step s = refuse .op { s with cmds := rest } := by
  unfold step takeCommand
  rw [h]
  dsimp only
  rw [hd]

/-- Settles O6: the two cases in which the block takes no word, and takes a word that decodes. -/
theorem stepRunsDecoded : Obligations.StepRunsDecoded :=
  ⟨fun _ _ _ _ => step_of_decode_ok, fun _ => step_of_cmds_eq_nil⟩

end Sys2Proof.Machine

/-! PROOFS. The windows of the model are those of the statements (spec/20_memory.md R64, spec/42_bitstream.md R171), and the 16-bit
field of a tape frame (spec/43_parser.md R201). -/

namespace Sys2Proof.Machine

theorem bitAt_mul_eq_ite (bits : List Bool) (i x : Nat) : bitAt bits i * x = if bits[i]? = some true then x else 0 := by
  unfold bitAt
  rcases bits[i]? with _ | _ | _ <;> simp

theorem memRead_eq_windowSum (bits : List Bool) (a n : Nat) : memRead bits a n = windowSum bits a n := by
  rw [memRead_eq_sum, windowSum]
  exact Finset.sum_congr rfl fun k _ => bitAt_mul_eq_ite bits (a + k) _

theorem hex_eq_windowValue (bits : List Bool) (sc : Scan) (w : Nat) : hex bits sc w = windowValue bits sc.pos sc.inv w := by
  rw [hex_eq, memRead_eq_windowSum, windowValue]

/-- Settles O50: the value by the windows of its two bytes, the bounds and the move by the reads of the two bytes. -/
theorem readWordOrdersBytes : Obligations.ReadWordOrdersBytes := by
  intro wo bits sc
  refine ⟨?_, ?_, ?_⟩
  · rw [readWord_value]
    cases wo <;> simp only [hex_eq_windowValue, Scan.advance_pos, Scan.advance_inv]
  · rw [readWord_ok, decide_eq_true_eq]
  · rw [readWord_scan, Scan.advance_advance]
    rfl

end Sys2Proof.Machine

/-! PROOFS. `Fold` of a legal aggregate below a full count (spec/41_demodulator.md R135, spec/00_scope.md R13). -/

namespace Sys2Proof.Machine

theorem Stats.fold_minVal_of_some {st : Stats} {lo : Nat} (hc : st.count ≠ 0) (h : st.minVal = some lo) (bins d : Nat) :
    (st.fold bins d).minVal = some (min lo d) := by
  rw [Stats.fold_minVal, if_neg hc, h]
  rfl

theorem Stats.fold_maxVal_of_some {st : Stats} {hi : Nat} (hc : st.count ≠ 0) (h : st.maxVal = some hi) (bins d : Nat) :
    (st.fold bins d).maxVal = some (max hi d) := by
  rw [Stats.fold_maxVal, if_neg hc, h]
  rfl

theorem Stats.fold_minVal_maxVal_of_count_eq_zero {st : Stats} (hc : st.count = 0) (bins d : Nat) :
    (st.fold bins d).minVal = some d ∧ (st.fold bins d).maxVal = some d := by
  rw [Stats.fold_minVal, Stats.fold_maxVal, if_pos hc, if_pos hc]
  exact ⟨rfl, rfl⟩

/-- One bin grows by 1 (R135); every other bin is left alone. -/
theorem Stats.read_fold_hist {st : Stats} (h : Hist.wf st.hist) (bins d v : Nat) :
    (st.fold bins d).hist.read v = st.hist.read v + (if v = min d (bins - 1) then 1 else 0) := by
  rw [Stats.fold_hist]
  split
  · next hv => rw [hv, Hist.read_write_self h]
  · next hv => rw [Hist.read_write_of_ne _ _ hv, Nat.add_zero]

/-- Settles O32: each register by its own rule of `fold`; the sums keep within their widths because the folded aggregate is
legal again. -/
theorem foldAddsOneDuration : Obligations.FoldAddsOneDuration := by
  intro z st d hz h hc hd
  obtain ⟨hsum, hsq⟩ := (h.fold hz hc hd).sums_lt hz
  exact ⟨Stats.fold_count .., Stats.fold_sum .., hsum, Stats.fold_sq .., hsq,
    fun h0 => Stats.fold_minVal_maxVal_of_count_eq_zero h0 _ _,
    fun _ _ h0 hlo hhi => ⟨Stats.fold_minVal_of_some h0 hlo _ _, Stats.fold_maxVal_of_some h0 hhi _ _⟩,
    Stats.read_fold_hist h.hist _ _⟩

end Sys2Proof.Machine

/-! PROOFS. What each unit keeps of the legal state `State.Inv` (spec/10_state.md R20 to R47). First the values: samples, the
configuration, the segmenter's registers, the payload of a parse. Then the state: one rule per group of registers that a command
writes, one per end of a command. Then the commands unit by unit, and the step. -/

namespace Sys2Proof.Machine

/-! ### Samples (R27, R111, R116) -/

theorem fitsSigned_zero (w : Nat) : fitsSigned w 0 := by
  have : (0 : Int) < 2 ^ (w - 1) := by positivity
  exact ⟨by omega, this⟩

/-- The selected sample lies between the two samples of the frame (R111). -/
theorem selectSample_fits {w : Nat} (c : Channel) {l r : Int} (hl : fitsSigned w l) (hr : fitsSigned w r) :
    fitsSigned w (selectSample c l r) := by
  cases c with
  | left => exact hl
  | right => exact hr
  | both =>
    obtain ⟨l1, l2⟩ := hl
    obtain ⟨r1, r2⟩ := hr
    rw [selectSample, Int.fdiv_eq_ediv_of_nonneg _ (by decide)]
    constructor <;> omega

/-- R29: the smoothed sample is a weighted mean, and truncation moves it toward zero. -/
theorem smooth_fits {w : Nat} {a x : Int} (ha : fitsSigned w a) (hx : fitsSigned w x) : fitsSigned w (smooth a x) := by
  obtain ⟨a1, a2⟩ := ha
  obtain ⟨x1, x2⟩ := hx
  have hp : (0 : Int) < 2 ^ (w - 1) := by positivity
  unfold smooth Config.smoothPrev Config.smoothNew Config.smoothDen
  rw [Int.tdiv_eq_ediv]
  split
  · constructor <;> omega
  · simp only [Int.sign_eq_one_of_pos (show (0 : Int) < 5 by decide)]
    constructor <;> omega

theorem frameSample_fits {s : State} (hz : s.sizes.Legal) (l r : Sample) : fitsSigned s.sizes.sampleW (s.frameSample l r) :=
  have h1 := Nat.le_of_succ_le hz.sample.1
  selectSample_fits s.cfg.channel (sampleOperand_fits h1 l) (sampleOperand_fits h1 r)

/-! ### Widths and counts (R13) -/

theorem one_lt_two_pow_durW {z : Sizes} (hz : z.Legal) : 1 < 2 ^ z.durW :=
  Nat.one_lt_two_pow (Nat.one_le_iff_ne_zero.1 hz.duration.1)

theorem one_lt_two_pow_cntW {z : Sizes} (hz : z.Legal) : 1 < 2 ^ z.cntW :=
  Nat.one_lt_two_pow (Nat.one_le_iff_ne_zero.1 hz.count)

theorem ne_of_not_countFull {w c : Nat} (h : ¬ countFull w c = true) : c ≠ 2 ^ w - 1 := mt (countFull_iff w c).2 h

/-! ### The configuration (R23 to R25, R245) -/

theorem Cfg.inv_reset (z : Sizes) : Cfg.reset.Inv z := ⟨by decide, by decide, .inr rfl⟩

/-- `WRREG` writes legal values only (R245, R246). -/
theorem Cfg.Inv.of_writeCfg {z : Sizes} {c c' : Cfg} (h : c.Inv z) {reg : BitVec 8} {value : BitVec 32}
    (hw : writeCfg z c reg value = some c') : c'.Inv z := by
  unfold writeCfg at hw
  split at hw
  · obtain ⟨ch, -, rfl⟩ := Option.map_eq_some_iff.1 hw
    exact ⟨h.delta, h.tone⟩
  · split at hw
    · next hv =>
      cases hw
      have hval : (value.setWidth 7).toNat = value.toNat := by
        rw [BitVec.toNat_setWidth]
        omega
      exact ⟨by rw [hval]; exact hv, h.tone⟩
    · cases hw
  · split at hw
    · next hv =>
      cases hw
      exact ⟨h.delta, hv.1, .inl (by show value.toNat < 2 ^ z.cntW; omega)⟩
    · cases hw
  · cases hw

/-! ### The segmenter's registers (R26 to R29) -/

theorem Seg.inv_reset (z : Sizes) : Seg.reset.Inv z where
  opened := nofun
  closed _ := ⟨rfl, rfl⟩
  n := Nat.two_pow_pos _
  run := Nat.two_pow_pos _
  cur := fitsSigned_zero _
  sumLow := by simp [Seg.reset]
  sumHigh := by simp [Seg.reset]

/-- One more sample in the mean, while no run is open (R113). -/
theorem Seg.Inv.accumulate {z : Sizes} {g : Seg} (h : g.Inv z) (hopen : g.isOpen = false) (hn : g.n ≠ 2 ^ z.cntW - 1) {x : Int}
    (hx : fitsSigned z.sampleW x) : ({ g with n := g.n + 1, sum := g.sum + x } : Seg).Inv z where
  opened e := absurd (hopen.symm.trans e) Bool.false_ne_true
  closed := h.closed
  n := by
    have := h.n
    show g.n + 1 < 2 ^ z.cntW
    omega
  run := h.run
  cur := h.cur
  sumLow := by
    have := h.sumLow
    have := hx.1
    push_cast
    rw [mul_add, mul_one]
    omega
  sumHigh := by
    have := h.sumHigh
    have := hx.2
    push_cast
    rw [mul_add, mul_one]
    omega

/-- A run stands open over a mean with a length and a sample that fit (R117). -/
theorem Seg.Inv.withRun {z : Sizes} {g : Seg} (h : g.Inv z) (hn : g.n ≠ 0) {o : Bool} (ho : o = true) {k : Nat} (hk : k ≠ 0)
    (hlt : k < 2 ^ z.durW) {v : Int} (hv : fitsSigned z.sampleW v) :
    ({ g with isOpen := o, run := k, cur := v } : Seg).Inv z where
  opened _ := ⟨hn, hk⟩
  closed e := absurd (e.symm.trans ho) Bool.false_ne_true
  n := h.n
  run := hlt
  cur := hv
  sumLow := h.sumLow
  sumHigh := h.sumHigh

/-- A closed run leaves nothing behind (R120). -/
theorem Seg.Inv.flush {z : Sizes} {g : Seg} (h : g.Inv z) : ({ g with isOpen := false, run := 0, cur := 0 } : Seg).Inv z where
  opened := nofun
  closed _ := ⟨rfl, rfl⟩
  n := h.n
  run := Nat.two_pow_pos _
  cur := fitsSigned_zero _
  sumLow := h.sumLow
  sumHigh := h.sumHigh

/-! ### The payload of a parse (R43, R212, R213, R221) -/

theorem ParState.Holds.of_eq {p q : ParState} {bytes : List Byte} (h : p.Holds bytes) (hpay : q.pay = p.pay)
    (hnpay : q.df.npay = p.df.npay) : q.Holds bytes := ⟨hpay.trans h.pay, hnpay ▸ h.npay⟩

/-- The payload is some sequence of at most `cap` bytes. -/
def ParState.HoldsUpTo (cap : Nat) (p : ParState) : Prop := ∃ bytes, p.Holds bytes ∧ bytes.length ≤ cap

theorem ParState.HoldsUpTo.mono {cap cap' : Nat} {p : ParState} (h : p.HoldsUpTo cap) (hle : cap ≤ cap') :
    p.HoldsUpTo cap' := by
  obtain ⟨bytes, hp, hlen⟩ := h
  exact ⟨bytes, hp, hlen.trans hle⟩

theorem ParState.HoldsUpTo.of_eq {cap : Nat} {p q : ParState} (h : p.HoldsUpTo cap) (hpay : q.pay = p.pay)
    (hnpay : q.df.npay = p.df.npay) : q.HoldsUpTo cap := by
  obtain ⟨bytes, hp, hlen⟩ := h
  exact ⟨bytes, hp.of_eq hpay hnpay, hlen⟩

theorem ParState.holdsUpTo_cleared (cap : Nat) (sc : Scan) : (ParState.cleared sc).HoldsUpTo cap :=
  ⟨[], holds_cleared sc, Nat.zero_le _⟩

/-- Steps 5 to 8 of the body store nothing (R214, R215). -/
theorem bodyChecksum_holdsUpTo {cap : Nat} {p : ParState} (h : p.HoldsUpTo cap) (wo : WordOrder) (bits : List Bool) :
    (bodyChecksum wo bits p).2.HoldsUpTo cap := by
  unfold bodyChecksum
  dsimp only
  split
  · exact h.of_eq rfl rfl
  · split
    · exact h.of_eq rfl rfl
    · exact h.of_eq rfl rfl

/-- Step 4 of the body stores at most the length it is given (R212). -/
theorem bodyPayload_holdsUpTo {p : ParState} (h : p.Holds []) (wo : WordOrder) (bits : List Bool) {len : Nat}
    (hlen : len < 2 ^ 32) : (bodyPayload wo bits len p).2.HoldsUpTo len := by
  obtain ⟨q, stored, hstored, heq, hq, -, -⟩ := payloadLoop_eq bits len p [] h (by rwa [List.length_nil, Nat.zero_add])
  have hqlen : q.HoldsUpTo len := by
    refine ⟨_, hq, ?_⟩
    rw [List.nil_append, length_readBytes, hstored]
    exact Nat.min_le_left _ _
  unfold bodyPayload
  rw [heq]
  dsimp only
  split
  · exact hqlen
  · exact bodyChecksum_holdsUpTo hqlen wo bits

/-- The two 16-bit addresses of a frame leave at most 65536 bytes between them (R210). -/
theorem bodyEnd_holdsUpTo {p : ParState} (h : p.Holds []) (wo : WordOrder) (bits : List Bool) :
    (bodyEnd wo bits p).2.HoldsUpTo 65536 := by
  have stay : p.HoldsUpTo 65536 := ⟨[], h, Nat.zero_le _⟩
  unfold bodyEnd
  dsimp only
  split
  · exact stay.of_eq rfl rfl
  · split
    · exact stay.of_eq rfl rfl
    · have hend := (readWord wo bits p.scan).value.isLt
      have hle : ((((readWord wo bits p.scan).value.toNat : Int) - p.df.base.toNat + 1).toNat) ≤ 65536 := by omega
      refine (bodyPayload_holdsUpTo ?_ wo bits (by omega)).mono hle
      exact h.of_eq rfl rfl

theorem body_holdsUpTo {p : ParState} (h : p.Holds []) (wo : WordOrder) (bits : List Bool) :
    (body wo bits p).2.HoldsUpTo 65536 := by
  unfold body
  dsimp only
  split
  · exact ⟨[], h.of_eq rfl rfl, Nat.zero_le _⟩
  · refine bodyEnd_holdsUpTo ?_ wo bits
    exact h.of_eq rfl rfl

theorem radioAttempt_holdsUpTo (wo : WordOrder) (bits : List Bool) : (radioAttempt wo bits).2.HoldsUpTo 65536 := by
  unfold radioAttempt
  dsimp only
  split
  · exact ParState.holdsUpTo_cleared _ _
  · exact body_holdsUpTo (ParState.holds_cleared _) wo bits

theorem orionZeros_holdsUpTo {p : ParState} (h : p.Holds []) (wo : WordOrder) (bits : List Bool) :
    (orionZeros wo bits p).2.HoldsUpTo 65536 := by
  unfold orionZeros
  dsimp only
  split
  · exact ⟨[], h.of_eq rfl rfl, Nat.zero_le _⟩
  · refine body_holdsUpTo ?_ wo bits
    exact h.of_eq rfl rfl

theorem orionAttempt_holdsUpTo (wo : WordOrder) (bits : List Bool) : (orionAttempt wo bits).2.HoldsUpTo 65536 := by
  unfold orionAttempt
  dsimp only
  split
  · exact ParState.holdsUpTo_cleared _ _
  · obtain ⟨q, -, -, heq, hpay, -, name, hdf, -⟩ :=
      nameLoop_eq bits Config.hdrBytes (ParState.cleared (findSync bits 0).2) (by decide)
    have hq : q.Holds [] := ⟨hpay, by rw [hdf]; rfl⟩
    rw [heq]
    dsimp only
    split
    · exact ⟨[], hq, Nat.zero_le _⟩
    · refine orionZeros_holdsUpTo ?_ wo bits
      exact hq.of_eq rfl rfl

/-- The raw capture stores one byte for every 8 bits or part of them (R221). -/
theorem rawAttempt_holdsUpTo {bits : List Bool} (hlen : bits.length < 2 ^ 32) {cap : Nat} (hcap : bits.length ≤ 8 * cap) :
    (rawAttempt bits).HoldsUpTo cap := by
  unfold rawAttempt
  dsimp only
  split
  · obtain ⟨q, n, hn, heq, hq, -, -⟩ := rawLoop_eq bits bits.length (ParState.cleared (findSyncBit bits 0).2) []
      (ParState.holds_cleared _) (by rwa [List.length_nil, Nat.zero_add]) (by omega)
    refine ParState.HoldsUpTo.of_eq (p := q) ⟨_, hq, ?_⟩ (by rw [heq]) (by rw [heq])
    rw [List.nil_append, length_readBytes, hn]
    omega
  · exact (ParState.holdsUpTo_cleared cap (findSyncBit bits 0).2).of_eq rfl rfl

theorem structuredAttempt_holdsUpTo (wo : WordOrder) (bits : List Bool) (c : DecodeCode × Scan) :
    (structuredAttempt wo bits c).2.HoldsUpTo 65536 := by
  unfold structuredAttempt
  split
  · exact radioAttempt_holdsUpTo wo bits
  · exact orionAttempt_holdsUpTo wo bits
  · exact ParState.holdsUpTo_cleared _ _

theorem autoAttempt_holdsUpTo {bits : List Bool} (wo : WordOrder) (hlen : bits.length < 2 ^ 32) {cap : Nat}
    (hframe : 65536 ≤ cap) (hcap : bits.length ≤ 8 * cap) : (autoAttempt wo bits).HoldsUpTo cap := by
  unfold autoAttempt
  dsimp only
  split
  · exact ((structuredAttempt_holdsUpTo wo bits _).mono hframe).of_eq rfl rfl
  · exact (rawAttempt_holdsUpTo hlen hcap).of_eq rfl rfl

/-! ### Groups of registers written in a legal state

`DemInv` and `ParInv` are stated of the whole state; the first two lemmas name the fields they depend on. -/

theorem State.DemInv.of_eq {s t : State} (h : s.DemInv) (hdem : t.dem = s.dem) (hS : t.stS = s.stS) (hL : t.stL = s.stL) :
    t.DemInv :=
  ⟨by rw [hdem, hL]; exact h.calib, by rw [hdem, hS]; exact h.tone⟩

theorem State.ParInv.of_eq {s t : State} (h : s.ParInv) (hdf : t.df = s.df) (hpay : t.pay = s.pay) (hz : t.sizes = s.sizes) :
    t.ParInv :=
  ⟨by rw [hpay, hdf]; exact h.addresses, by rw [hdf, hz]; exact h.capacity, by rw [hdf]; exact h.save⟩

theorem State.Inv.withCmds {s : State} (h : s.Inv) (cmds : List Word64) : { s with cmds := cmds }.Inv :=
  { h with dem := h.dem.of_eq rfl rfl rfl, par := h.par.of_eq rfl rfl rfl }

theorem State.Inv.withResp {s : State} (h : s.Inv) (resp : Option Word64) : { s with resp := resp }.Inv :=
  { h with dem := h.dem.of_eq rfl rfl rfl, par := h.par.of_eq rfl rfl rfl }

theorem State.Inv.withSysFault {s : State} (h : s.Inv) {f : BitVec 8} (hf : f.toNat < 32) : { s with sysFault := f }.Inv :=
  { h with dem := h.dem.of_eq rfl rfl rfl, par := h.par.of_eq rfl rfl rfl, fault := hf }

theorem State.Inv.withCfg {s : State} (h : s.Inv) {c : Cfg} (hc : c.Inv s.sizes) : { s with cfg := c }.Inv :=
  { h with dem := h.dem.of_eq rfl rfl rfl, par := h.par.of_eq rfl rfl rfl, cfg := hc }

theorem State.Inv.withSeg {s : State} (h : s.Inv) {g : Seg} (hg : g.Inv s.sizes) : { s with seg := g }.Inv :=
  { h with dem := h.dem.of_eq rfl rfl rfl, par := h.par.of_eq rfl rfl rfl, seg := hg }

theorem State.Inv.withBs {s : State} (h : s.Inv) {b : Bitstream} (hb : b.bits.length ≤ s.sizes.bsCap) :
    { s with bs := b }.Inv :=
  { h with dem := h.dem.of_eq rfl rfl rfl, par := h.par.of_eq rfl rfl rfl, bits := hb }

theorem State.Inv.withDem {s : State} (h : s.Inv) {d : Dem}
    (hcalib : d.phase = .calib → d.fsm = .unknown ∧ d.curBit = false ∧ s.stL = Stats.empty)
    (htone : d.phase ≠ .calib → s.stS.count ≠ 0) : { s with dem := d }.Inv :=
  { h with dem := ⟨hcalib, htone⟩, par := h.par.of_eq rfl rfl rfl }

theorem State.Inv.withStS {s : State} (h : s.Inv) {st : Stats} (hst : st.Inv s.sizes) (hc : st.count ≠ 0) :
    { s with stS := st }.Inv :=
  { h with dem := ⟨h.dem.calib, fun _ => hc⟩, par := h.par.of_eq rfl rfl rfl, short := hst }

theorem State.Inv.withStL {s : State} (h : s.Inv) {st : Stats} (hst : st.Inv s.sizes)
    (hc : s.dem.phase = .calib → st = Stats.empty) : { s with stL := st }.Inv where
  __ := h
  dem :=
    { calib := fun hp => by
        obtain ⟨hfsm, hbit, -⟩ := h.dem.calib hp
        exact ⟨hfsm, hbit, hc hp⟩
      tone := h.dem.tone }
  par := h.par.of_eq rfl rfl rfl
  long := hst

theorem State.Inv.storePar {s : State} (h : s.Inv) {p : ParState} (hp : p.HoldsUpTo s.sizes.payCap)
    (hsave : p.df.save = true ↔ p.df.cls = .ok) : (storePar p s).Inv := by
  obtain ⟨bytes, ⟨hpay, hnpay⟩, hlen⟩ := hp
  exact
  { h with
    dem := h.dem.of_eq rfl rfl rfl
    payload := by rw [storePar_pay, hpay]; exact wf_payloadFrom 0 bytes
    par :=
      { addresses := by
          rw [storePar_pay, storePar_df, hpay, hnpay, payloadFrom_addresses, List.range_eq_range']
        capacity := hnpay ▸ hlen
        save := hsave } }

/-- The state after `RESET` is legal under every legal size (R291). -/
theorem State.inv_reset {z : Sizes} (hz : z.Legal) (wo : WordOrder) (cmds : List Word64) :
    { State.reset with wordOrder := wo, sizes := z, cmds := cmds }.Inv where
  sizes := hz
  cfg := Cfg.inv_reset z
  seg := Seg.inv_reset z
  dem := ⟨fun _ => ⟨rfl, rfl, rfl⟩, fun h => absurd rfl h⟩
  short := Stats.inv_empty z
  long := Stats.inv_empty z
  bits := Nat.zero_le _
  payload := Memory.wf_reset
  par := ⟨rfl, Nat.zero_le _, ⟨nofun, nofun⟩⟩
  fault := Nat.zero_lt_succ _

/-! ### The ends of a command -/

/-- A next state, if there is one, is legal. -/
def AnswersLegal (r : Result) : Prop := ∀ t, r = .next t → t.Inv

theorem answersLegal_complete {s : State} (h : s.Inv) {st : Status} {b : Bool} {aux : BitVec 16} {val : Reg32} :
    AnswersLegal (complete st b aux val s) := by
  intro t ht
  rw [(complete_eq_next_iff ..).1 ht]
  exact h.withResp _

/-- A fault of R269 sets one of the bits 4 to 0 of `SYS.fault` (R47). -/
theorem sysFault_or_bit_lt {f : BitVec 8} (h : f.toNat < 32) (c : CmdFault) : (f ||| c.bit).toNat < 32 := by
  rw [BitVec.toNat_or]
  exact Nat.or_lt_two_pow (n := 5) h (by cases c <;> decide)

theorem answersLegal_refuse {s : State} (h : s.Inv) (f : CmdFault) : AnswersLegal (refuse f s) := by
  intro t ht
  rw [(refuse_eq_next_iff ..).1 ht]
  exact (h.withSysFault (sysFault_or_bit_lt h.fault f)).withResp _

theorem answersLegal_completeEmit {s : State} (h : s.Inv) (emit : Option Nat) : AnswersLegal (completeEmit emit s) := by
  cases emit with
  | none => exact answersLegal_complete h
  | some d => exact answersLegal_complete h

/-! ### SYS -/

theorem execReset_legal {s : State} (h : s.Inv) : AnswersLegal (execReset s) :=
  answersLegal_complete (State.inv_reset h.sizes _ _)

theorem execRdreg_legal {s : State} (h : s.Inv) (reg : BitVec 8) : AnswersLegal (execRdreg reg s) := by
  unfold execRdreg
  split
  · exact answersLegal_refuse h _
  · exact answersLegal_complete h

theorem execWrreg_legal {s : State} (h : s.Inv) (reg : BitVec 8) (value : BitVec 32) : AnswersLegal (execWrreg reg value s) := by
  unfold execWrreg
  split
  · exact answersLegal_refuse h _
  · next hw => exact answersLegal_complete (h.withCfg (h.cfg.of_writeCfg hw))

theorem execRdhist_legal {s : State} (h : s.Inv) (cls : BitVec 8) (bin : BitVec 32) : AnswersLegal (execRdhist cls bin s) := by
  unfold execRdhist
  split
  · exact answersLegal_refuse h _
  · split
    · exact answersLegal_complete h
    · exact answersLegal_refuse h _

theorem execRdpay_legal {s : State} (h : s.Inv) (index : BitVec 32) : AnswersLegal (execRdpay index s) := by
  unfold execRdpay
  split
  · exact answersLegal_refuse h _
  · split
    · exact fun _ => nofun
    · exact answersLegal_complete h

/-! ### SEG -/

theorem execSegReset_legal {s : State} (h : s.Inv) : AnswersLegal (execSegReset s) :=
  answersLegal_complete (h.withSeg (Seg.inv_reset _))

theorem execSegAcc_legal {s : State} (h : s.Inv) (l r : Sample) : AnswersLegal (execSegAcc l r s) := by
  unfold execSegAcc
  split
  · exact answersLegal_refuse h _
  · next hopen =>
    split
    · exact answersLegal_refuse h _
    · next hfull =>
      have hopen : s.seg.isOpen = false := by simpa using hopen
      exact answersLegal_complete
        (h.withSeg (h.seg.accumulate hopen (ne_of_not_countFull hfull) (frameSample_fits h.sizes l r)))

theorem execSegSample_legal {s : State} (h : s.Inv) (l r : Sample) : AnswersLegal (execSegSample l r s) := by
  have hone := one_lt_two_pow_durW h.sizes
  have hnew : fitsSigned s.sizes.sampleW (smooth s.seg.cur (s.frameSample l r)) :=
    smooth_fits h.seg.cur (frameSample_fits h.sizes l r)
  unfold execSegSample
  split
  · exact answersLegal_refuse h _
  · next hn =>
    dsimp only
    split
    · exact answersLegal_completeEmit (h.withSeg (h.seg.withRun hn rfl Nat.one_ne_zero hone hnew)) _
    · next hopen =>
      have hopen : s.seg.isOpen = true := by simpa using hopen
      split
      · exact answersLegal_completeEmit (h.withSeg (h.seg.withRun hn hopen Nat.one_ne_zero hone hnew)) _
      · split
        · exact answersLegal_refuse h _
        · next hfull =>
          have hrun : s.seg.run + 1 < 2 ^ s.sizes.durW := by
            have := h.seg.run
            have := ne_of_not_countFull hfull
            omega
          exact answersLegal_completeEmit (h.withSeg (h.seg.withRun hn hopen (Nat.succ_ne_zero _) hrun hnew)) _

theorem execSegFlush_legal {s : State} (h : s.Inv) : AnswersLegal (execSegFlush s) :=
  answersLegal_completeEmit (h.withSeg h.seg.flush) _

/-! ### DEM -/

theorem execDemRearm_legal {s : State} (h : s.Inv) : AnswersLegal (execDemRearm s) := by
  refine answersLegal_complete ?_
  exact
  { h with
    dem := ⟨fun _ => ⟨rfl, rfl, rfl⟩, fun hp => absurd rfl hp⟩
    short := Stats.inv_empty _
    long := Stats.inv_empty _
    bits := Nat.zero_le _
    par := h.par.of_eq rfl rfl rfl }

/-- Calibration completes over at least one short pulse (R140). -/
theorem finishTone_legal {s : State} (h : s.Inv) : AnswersLegal (finishTone s) := by
  unfold finishTone
  split
  · next hdone =>
    have hc : s.stS.count ≠ 0 := Nat.ne_zero_of_lt hdone
    exact answersLegal_complete (h.withDem (d := { s.dem with phase := .decode, fsm := .unknown }) nofun fun _ => hc)
  · exact answersLegal_complete h

theorem addTone_legal {s : State} (h : s.Inv) {d : Nat} (hd : d < 2 ^ s.sizes.durW) : AnswersLegal (addTone d s) := by
  unfold addTone
  split
  · split
    · exact answersLegal_refuse h _
    · next hfull =>
      exact finishTone_legal (h.withStS (h.short.fold h.sizes (ne_of_not_countFull hfull) hd) (Nat.succ_ne_zero _))
  · have hc : Stats.empty.count ≠ 2 ^ s.sizes.cntW - 1 := by
      have := one_lt_two_pow_cntW h.sizes
      show 0 ≠ 2 ^ s.sizes.cntW - 1
      omega
    have hfold := (Stats.inv_empty s.sizes).fold h.sizes hc hd
    exact finishTone_legal ((h.withStS hfold (Nat.succ_ne_zero _)).withStL (Stats.inv_empty _) fun _ => rfl)

/-- A transition of the bit machine outside calibration, its bits within the capacity (R143 to R151). -/
theorem takeTransition_legal {s : State} (h : s.Inv) (hp : s.dem.phase ≠ .calib) {t : Transition}
    (hfit : s.bs.fits s.sizes.bsCap t.new.length = true) : AnswersLegal (takeTransition t s) := by
  have hbits : (s.bs.append t.new).bits.length ≤ s.sizes.bsCap := by
    rw [Bitstream.append_bits, List.length_append]
    exact of_decide_eq_true hfit
  exact answersLegal_complete
    ((h.withBs hbits).withDem (d := { s.dem with fsm := t.fsm, curBit := t.curBit }) (fun hc => absurd hc hp) h.dem.tone)

theorem addDuration_legal {s : State} (h : s.Inv) (hp : s.dem.phase ≠ .calib) {d : Nat} (hd : d < 2 ^ s.sizes.durW) :
    AnswersLegal (addDuration d s) := by
  unfold addDuration
  cases classifyPulse s.stS s.cfg.deltaPct d with
  | neither =>
    exact answersLegal_complete
      (h.withDem (d := { s.dem with phase := .lost, fsm := s.dem.fsm.absorb }) nofun fun _ => h.dem.tone hp)
  | short =>
    dsimp only
    split
    · exact answersLegal_refuse h _
    · next hfull =>
      have hs := h.withStS (h.short.fold h.sizes (ne_of_not_countFull hfull) hd) (Nat.succ_ne_zero _)
      split
      · exact answersLegal_refuse h _
      · next hfit => exact takeTransition_legal hs hp (by simpa using hfit)
  | long =>
    dsimp only
    split
    · exact answersLegal_refuse h _
    · next hfull =>
      have hl := h.withStL (h.long.fold h.sizes (ne_of_not_countFull hfull) hd) fun e => absurd e hp
      split
      · exact answersLegal_refuse h _
      · next hfit => exact takeTransition_legal hl hp (by simpa using hfit)

theorem execPushDur_legal {s : State} (h : s.Inv) (d : Duration) : AnswersLegal (execPushDur d s) := by
  have hd := durationOperand_lt s.sizes d
  unfold execPushDur
  split
  · exact answersLegal_refuse h _
  · exact addTone_legal h hd
  · next hp => exact addDuration_legal h (by rw [hp]; nofun) hd

/-! ### BS -/

theorem execBsReset_legal {s : State} (h : s.Inv) : AnswersLegal (execBsReset s) :=
  answersLegal_complete (h.withBs (b := s.bs.resetCursor) h.bits)

theorem execBsOffset_legal {s : State} (h : s.Inv) (n : BitVec 32) : AnswersLegal (execBsOffset n s) :=
  answersLegal_complete (h.withBs (b := { s.bs with cursor := s.bs.cursor.advance n.toNat }) h.bits)

theorem execBsHex_legal {s : State} (h : s.Inv) (w : BitVec 8) : AnswersLegal (execBsHex w s) := by
  unfold execBsHex
  split
  · exact answersLegal_refuse h _
  · split
    · exact answersLegal_refuse h _
    · exact answersLegal_complete h

theorem completeSearch_legal {s : State} (h : s.Inv) (r : Bool × Scan) : AnswersLegal (completeSearch r s) :=
  answersLegal_complete (h.withBs (b := s.bs.setScan r.2) h.bits)

theorem execBsFind_legal {s : State} (h : s.Inv) (w : BitVec 8) (target mask : BitVec 16) :
    AnswersLegal (execBsFind w target mask s) := by
  unfold execBsFind
  split
  · exact answersLegal_refuse h _
  · exact completeSearch_legal h _

theorem execBsTrim_legal {s : State} (h : s.Inv) : AnswersLegal (execBsTrim s) := by
  refine answersLegal_complete (h.withBs ?_)
  rw [Bitstream.trim_bits, List.length_drop]
  exact (Nat.sub_le _ _).trans h.bits

theorem execBsAppend_legal {s : State} (h : s.Inv) (w : BitVec 8) (v : BitVec 16) : AnswersLegal (execBsAppend w v s) := by
  unfold execBsAppend
  split
  · exact answersLegal_refuse h _
  · split
    · exact answersLegal_refuse h _
    · next hfit =>
      have hfit : s.bs.fits s.sizes.bsCap w.toNat = true := by simpa using hfit
      refine answersLegal_complete (h.withBs ?_)
      rw [Bitstream.append_bits, List.length_append, length_bitsOf]
      exact of_decide_eq_true hfit

/-! ### PAR -/

theorem State.Inv.bits_lt {s : State} (h : s.Inv) : s.bs.bits.length < 2 ^ 32 := by
  have := h.bits
  have := h.sizes.bits
  omega

theorem State.Inv.bits_le_payload {s : State} (h : s.Inv) : s.bs.bits.length ≤ 8 * s.sizes.payCap :=
  h.bits.trans h.sizes.bytes.2

theorem execParClassify_legal {s : State} (h : s.Inv) : AnswersLegal (execParClassify s) := by
  refine answersLegal_complete (h.storePar ?_ ?_)
  · exact (ParState.holdsUpTo_cleared _ (classify s.bs.bits).2).of_eq rfl rfl
  · exact ⟨nofun, nofun⟩

theorem completeAttempt_legal {s : State} (h : s.Inv) {r : DecodeCode × ParState} (hr : r.2.HoldsUpTo s.sizes.payCap) :
    AnswersLegal (completeAttempt r s) :=
  answersLegal_complete (h.storePar (p := r.2.conclude r.1) (hr.of_eq rfl rfl) beq_iff_eq)

theorem execParRadio_legal {s : State} (h : s.Inv) : AnswersLegal (execParRadio s) :=
  completeAttempt_legal h ((radioAttempt_holdsUpTo _ _).mono h.sizes.bytes.1)

theorem execParOrion_legal {s : State} (h : s.Inv) : AnswersLegal (execParOrion s) :=
  completeAttempt_legal h ((orionAttempt_holdsUpTo _ _).mono h.sizes.bytes.1)

theorem execParRaw_legal {s : State} (h : s.Inv) : AnswersLegal (execParRaw s) :=
  completeAttempt_legal h (rawAttempt_holdsUpTo h.bits_lt h.bits_le_payload)

theorem execParAuto_legal {s : State} (h : s.Inv) : AnswersLegal (execParAuto s) :=
  answersLegal_complete
    (h.storePar (autoAttempt_holdsUpTo s.wordOrder h.bits_lt h.sizes.bytes.1 h.bits_le_payload) beq_iff_eq)

/-! ### Every instruction and the step -/

/-- Every instruction keeps the legal states. -/
theorem exec_legal {s : State} (h : s.Inv) (i : Instr) : AnswersLegal (exec i s) := by
  cases i with
  | reset => exact execReset_legal h
  | rdreg reg => exact execRdreg_legal h reg
  | wrreg reg value => exact execWrreg_legal h reg value
  | rdhist cls bin => exact execRdhist_legal h cls bin
  | rdpay index => exact execRdpay_legal h index
  | segReset => exact execSegReset_legal h
  | segAcc l r => exact execSegAcc_legal h l r
  | segSample l r => exact execSegSample_legal h l r
  | segFlush => exact execSegFlush_legal h
  | demRearm => exact execDemRearm_legal h
  | pushDur d => exact execPushDur_legal h d
  | bsReset => exact execBsReset_legal h
  | bsOffset n => exact execBsOffset_legal h n
  | bsHex w => exact execBsHex_legal h w
  | bsFind w target mask => exact execBsFind_legal h w target mask
  | bsFindSync => exact completeSearch_legal h _
  | bsTrim => exact execBsTrim_legal h
  | bsAppend w v => exact execBsAppend_legal h w v
  | parClassify => exact execParClassify_legal h
  | parRadio => exact execParRadio_legal h
  | parOrion => exact execParOrion_legal h
  | parRaw => exact execParRaw_legal h
  | parAuto => exact execParAuto_legal h

/-- A step waits, carries out the instruction its word decodes to, or refuses the word (R16, R91, R278). -/
theorem step_legal {s : State} (h : s.Inv) : AnswersLegal (step s) := by
  intro t ht
  cases hc : s.cmds with
  | nil =>
    rw [step_of_cmds_eq_nil hc] at ht
    cases ht
    exact h
  | cons cw rest =>
    cases hd : decode cw with
    | ok i =>
      rw [step_of_decode_ok hc hd] at ht
      exact exec_legal (h.withCmds rest) i t ht
    | reserved e =>
      rw [step_of_decode_reserved hc hd] at ht
      exact answersLegal_refuse (h.withCmds rest) .op t ht

/-- Settles O7: the step by the cases of the command word, each instruction by its own lemma. -/
theorem everyStepKeepsInvariant : Obligations.EveryStepKeepsInvariant := fun _ t h ht => step_legal h t ht

end Sys2Proof.Machine

/-! PROOFS. When a command answers a next state, what it leaves in `SYS.fault` and in the response byte, and the one stop of the
model (spec/10_state.md R43, R47, spec/60_exceptions.md R269, log entry 4). -/

namespace Sys2Proof.Machine

/-! ### The ends of a command answer a next state -/

theorem CompletedFrom.exists_next {s : State} {clears : Bool} {r : Result} (h : CompletedFrom s clears r) :
    ∃ t, r = .next t := by
  obtain ⟨st, b, aux, val, u, rfl, -, -⟩ := h
  exact ⟨_, complete_eq ..⟩

theorem EndsFrom.exists_next {s : State} {r : Result} (h : EndsFrom s r) : ∃ t, r = .next t := by
  rcases h with ⟨f, rfl⟩ | h
  · exact ⟨_, refuse_eq ..⟩
  · exact h.exists_next

/-! ### The stop of `RDPAY` -/

theorem execRdpay_stops_iff (index : BitVec 32) (s : State) :
    execRdpay index s = .fault .payloadUnwritten ↔ index.toNat < s.df.npay.toNat ∧ s.pay.read index.toNat = none := by
  unfold execRdpay
  split
  · next h => exact ⟨nofun, fun ⟨hlt, _⟩ => absurd h (Nat.not_le.2 hlt)⟩
  · next h =>
    split
    · next hr => exact ⟨fun _ => ⟨Nat.not_le.1 h, hr⟩, fun _ => rfl⟩
    · next hr => exact ⟨nofun, fun ⟨_, hn⟩ => by rw [hr] at hn; cases hn⟩

theorem exec_stops_iff (i : Instr) (s : State) :
    (¬ ∃ t, exec i s = .next t) ↔
      ∃ index, i = .rdpay index ∧ index.toNat < s.df.npay.toNat ∧ s.pay.read index.toNat = none := by
  constructor
  · intro hstop
    rcases exec_ends i s with h | ⟨-, h⟩ | ⟨index, rfl, h⟩
    · exact absurd h.exists_next hstop
    · exact absurd h.exists_next hstop
    · exact ⟨index, rfl, (execRdpay_stops_iff index s).1 h⟩
  · rintro ⟨index, rfl, hunwritten⟩ ⟨t, ht⟩
    have hfault : exec (.rdpay index) s = .fault .payloadUnwritten := (execRdpay_stops_iff index s).2 hunwritten
    rw [hfault] at ht
    cases ht

/-- A legal payload memory holds a value at every address below `DF.npay` (R43). -/
theorem State.Inv.exists_read_pay {s : State} (h : s.Inv) {a : Nat} (ha : a < s.df.npay.toNat) :
    ∃ v, s.pay.read a = some v := by
  have hmem : a ∈ s.pay.map Prod.fst := by
    rw [h.par.addresses]
    exact List.mem_range.2 ha
  obtain ⟨c, hc, rfl⟩ := List.mem_map.1 hmem
  exact ⟨c.2, cellsRead_of_mem h.payload hc⟩

theorem State.Inv.exec_exists_next {s : State} (h : s.Inv) (i : Instr) : ∃ t, exec i s = .next t := by
  by_contra hstop
  obtain ⟨index, -, hlt, hnone⟩ := (exec_stops_iff i s).1 hstop
  obtain ⟨v, hv⟩ := h.exists_read_pay hlt
  rw [hnone] at hv
  cases hv

theorem State.Inv.step_exists_next {s : State} (h : s.Inv) : ∃ t, step s = .next t := by
  cases hc : s.cmds with
  | nil => exact ⟨s, step_of_cmds_eq_nil hc⟩
  | cons cw rest =>
    cases hd : decode cw with
    | ok i =>
      rw [step_of_decode_ok hc hd]
      exact (h.withCmds rest).exec_exists_next i
    | reserved e =>
      rw [step_of_decode_reserved hc hd]
      exact ⟨_, refuse_eq ..⟩

/-- Settles O9: in a legal state `PAY` holds a value below `DF.npay`, so the one stop of the model is out of reach. -/
theorem legalStatesNeverStop : Obligations.LegalStatesNeverStop :=
  ⟨fun _ h => h.step_exists_next, fun s i => exec_stops_iff i s⟩

/-! ### The fault register after a command -/

theorem CompletedFrom.statusByte_sysFault {s t : State} {clears : Bool} {r : Result} (h : CompletedFrom s clears r)
    (ht : r = .next t) : t.statusByte.toNat < 0xE0 ∧ t.sysFault = if clears then 0 else s.sysFault := by
  obtain ⟨st, b, aux, val, u, rfl, hst, hu⟩ := h
  obtain rfl := (complete_eq_next_iff ..).1 ht
  rw [statusByte_of_resp rfl]
  exact ⟨Status.code_lt_of_not_err hst, hu⟩

theorem statusByte_refusedWith (s : State) (bit code : BitVec 8) : (s.refusedWith bit code).statusByte = code :=
  statusByte_of_resp (State.refusedWith_resp s bit code)

/-- The response is no fault code and `SYS.fault` stays, or it is a fault's code and `SYS.fault` gains that fault's bit. -/
def AnswersItsFault (s t : State) : Prop :=
  (t.statusByte.toNat < 0xE0 ∧ t.sysFault = s.sysFault)
  ∨ ∃ p ∈ faultTable, t.statusByte = p.2 ∧ t.sysFault = s.sysFault ||| p.1

theorem answersItsFault_refuse {s t : State} {f : CmdFault} (ht : refuse f s = .next t) : AnswersItsFault s t := by
  obtain rfl := (refuse_eq_next_iff ..).1 ht
  exact .inr ⟨_, f.code_bit, statusByte_refusedWith .., State.refusedWith_sysFault ..⟩

theorem EndsFrom.answersItsFault {s t : State} {r : Result} (h : EndsFrom s r) (ht : r = .next t) : AnswersItsFault s t := by
  rcases h with ⟨f, rfl⟩ | h
  · exact answersItsFault_refuse ht
  · exact .inl (h.statusByte_sysFault ht)

theorem exec_answersItsFault {s t : State} {i : Instr} (hi : i ≠ .reset) (ht : exec i s = .next t) : AnswersItsFault s t := by
  rcases exec_ends i s with h | ⟨hreset, -⟩ | ⟨index, -, h⟩
  · exact h.answersItsFault ht
  · exact absurd hreset hi
  · rw [h] at ht
    cases ht

theorem exec_reset_sysFault {s t : State} (ht : exec .reset s = .next t) : t.sysFault = 0 := by
  obtain rfl := (complete_eq_next_iff ..).1 ht
  rfl

/-- Settles O12: `RESET` apart, the ends a command can have; a reserved word is refused with `F_OP`. -/
theorem faultBitsAreSticky : Obligations.FaultBitsAreSticky := by
  intro s t cw rest hc ht
  cases hd : decode cw with
  | ok i =>
    rw [step_of_decode_ok hc hd] at ht
    by_cases hi : i = .reset
    · subst hi
      exact .inl ⟨rfl, exec_reset_sysFault ht⟩
    · have hne : Decoded.ok i ≠ .ok .reset := fun e => hi (Decoded.ok.inj e)
      exact .inr ((exec_answersItsFault hi ht).imp (fun h => ⟨hne, h⟩) fun h => ⟨hne, h⟩)
  | reserved e =>
    rw [step_of_decode_reserved hc hd] at ht
    exact .inr ((answersItsFault_refuse ht).imp (fun h => ⟨nofun, h⟩) fun h => ⟨nofun, h⟩)

end Sys2Proof.Machine

/-! PROOFS. What a command can write, said once for every instruction (spec/10_state.md R22, R41, spec/20_memory.md R60,
spec/70_reset_and_hazards.md R293); from it, who owns each register group and that the cursor only grows within a scan. -/

namespace Sys2Proof.Machine

/-- The states a command can leave: one constructor per group of registers its unit writes, everything else as in `s`. -/
inductive Writes (s : State) : Instr → State → Prop
  /-- A refused command, a read. -/
  | response (i : Instr) (fault : BitVec 8) (resp : Option Word64) : Writes s i { s with sysFault := fault, resp := resp }
  | reset (resp : Option Word64) :
    Writes s .reset { State.reset with wordOrder := s.wordOrder, sizes := s.sizes, cmds := s.cmds, resp := resp }
  | cfg (reg : BitVec 8) (value : BitVec 32) (c : Cfg) (resp : Option Word64) :
    Writes s (.wrreg reg value) { s with cfg := c, resp := resp }
  | seg {i : Instr} (hi : unitOf i = .seg) (g : Seg) (resp : Option Word64) : Writes s i { s with seg := g, resp := resp }
  | rearm (resp : Option Word64) :
    Writes s .demRearm
      { s with dem := Dem.reset, stS := Stats.empty, stL := Stats.empty, bs := Bitstream.empty, resp := resp }
  /-- `PUSH_DUR`, the bits `new` appended. -/
  | push (d : Duration) (dem : Dem) (stS stL : Stats) (new : List Bool) (resp : Option Word64) :
    Writes s (.pushDur d) { s with dem := dem, stS := stS, stL := stL, bs := s.bs.append new, resp := resp }
  | rewind (resp : Option Word64) : Writes s .bsReset { s with bs := s.bs.resetCursor, resp := resp }
  /-- `BS_OFFSET` and the searches: the cursor does not fall. -/
  | scan {i : Instr} (hi : unitOf i = .bs) {c : Cursor} (hc : s.bs.cursor.toInt ≤ c.toInt) (inv : Bool) (resp : Option Word64) :
    Writes s i { s with bs := { s.bs with cursor := c, inv := inv }, resp := resp }
  | trim (resp : Option Word64) : Writes s .bsTrim { s with bs := s.bs.trim, resp := resp }
  | append (w : BitVec 8) (v : BitVec 16) (new : List Bool) (resp : Option Word64) :
    Writes s (.bsAppend w v) { s with bs := s.bs.append new, resp := resp }
  | parse {i : Instr} (hi : unitOf i = .par) (p : ParState) (resp : Option Word64) :
    Writes s i { storePar p s with resp := resp }

/-- A next state, if there is one, is among those the command can leave. -/
def AnswersWrites (s : State) (i : Instr) (r : Result) : Prop := ∀ t, r = .next t → Writes s i t

theorem answersWrites_refuse (s : State) (i : Instr) (f : CmdFault) : AnswersWrites s i (refuse f s) := by
  intro t ht
  obtain rfl := (refuse_eq_next_iff ..).1 ht
  exact .response i _ _

theorem answersWrites_complete {s u : State} {i : Instr} (h : ∀ resp, Writes s i { u with resp := resp }) {st : Status} {b : Bool}
    {aux : BitVec 16} {val : Reg32} : AnswersWrites s i (complete st b aux val u) := by
  intro t ht
  obtain rfl := (complete_eq_next_iff ..).1 ht
  exact h _

theorem answersWrites_read (s : State) (i : Instr) {st : Status} {b : Bool} {aux : BitVec 16} {val : Reg32} :
    AnswersWrites s i (complete st b aux val s) :=
  answersWrites_complete fun resp => .response i s.sysFault resp

/-! ### SYS -/

theorem execRdreg_writes (reg : BitVec 8) (s : State) : AnswersWrites s (.rdreg reg) (execRdreg reg s) := by
  unfold execRdreg
  split
  · exact answersWrites_refuse s _ _
  · exact answersWrites_read s _

theorem execWrreg_writes (reg : BitVec 8) (value : BitVec 32) (s : State) :
    AnswersWrites s (.wrreg reg value) (execWrreg reg value s) := by
  unfold execWrreg
  split
  · exact answersWrites_refuse s _ _
  · next c _ => exact answersWrites_complete fun resp => .cfg reg value c resp

theorem execRdhist_writes (cls : BitVec 8) (bin : BitVec 32) (s : State) :
    AnswersWrites s (.rdhist cls bin) (execRdhist cls bin s) := by
  unfold execRdhist
  split
  · exact answersWrites_refuse s _ _
  · split
    · exact answersWrites_read s _
    · exact answersWrites_refuse s _ _

theorem execRdpay_writes (index : BitVec 32) (s : State) : AnswersWrites s (.rdpay index) (execRdpay index s) := by
  unfold execRdpay
  split
  · exact answersWrites_refuse s _ _
  · split
    · exact fun _ => nofun
    · exact answersWrites_read s _

/-! ### SEG -/

theorem completeEmit_writes {s : State} {i : Instr} (hi : unitOf i = .seg) (emit : Option Nat) (g : Seg) :
    AnswersWrites s i (completeEmit emit { s with seg := g }) := by
  cases emit with
  | none => exact answersWrites_complete fun resp => .seg hi g resp
  | some d => exact answersWrites_complete fun resp => .seg hi g resp

theorem execSegAcc_writes (l r : Sample) (s : State) : AnswersWrites s (.segAcc l r) (execSegAcc l r s) := by
  unfold execSegAcc
  split
  · exact answersWrites_refuse s _ _
  · split
    · exact answersWrites_refuse s _ _
    · refine answersWrites_complete fun resp => ?_
      exact .seg rfl _ resp

theorem execSegSample_writes (l r : Sample) (s : State) : AnswersWrites s (.segSample l r) (execSegSample l r s) := by
  unfold execSegSample
  split
  · exact answersWrites_refuse s _ _
  · dsimp only
    split
    · exact completeEmit_writes rfl _ _
    · split
      · exact completeEmit_writes rfl _ _
      · split
        · exact answersWrites_refuse s _ _
        · exact completeEmit_writes rfl _ _

/-! ### DEM -/

/-- `PUSH_DUR` where no bit is appended. -/
theorem writes_push_nil (s : State) (d : Duration) (dem : Dem) (stS stL : Stats) (resp : Option Word64) :
    Writes s (.pushDur d) { s with dem := dem, stS := stS, stL := stL, resp := resp } := by
  have hbs : s.bs.append [] = s.bs := by rw [Bitstream.append, List.append_nil]
  exact hbs ▸ Writes.push d dem stS stL [] resp

theorem finishTone_writes (s : State) (d : Duration) (stS stL : Stats) :
    AnswersWrites s (.pushDur d) (finishTone { s with stS := stS, stL := stL }) := by
  unfold finishTone
  split
  · exact answersWrites_complete fun resp => writes_push_nil s d _ stS stL resp
  · exact answersWrites_complete fun resp => writes_push_nil s d s.dem stS stL resp

theorem addTone_writes (d : Duration) (x : Nat) (s : State) : AnswersWrites s (.pushDur d) (addTone x s) := by
  unfold addTone
  split
  · split
    · exact answersWrites_refuse s _ _
    · exact finishTone_writes s d _ s.stL
  · exact finishTone_writes s d _ _

theorem addDuration_writes (d : Duration) (x : Nat) (s : State) : AnswersWrites s (.pushDur d) (addDuration x s) := by
  unfold addDuration
  cases classifyPulse s.stS s.cfg.deltaPct x with
  | neither =>
    refine answersWrites_complete fun resp => ?_
    exact writes_push_nil s d _ s.stS s.stL resp
  | short =>
    dsimp only
    split
    · exact answersWrites_refuse s _ _
    · split
      · exact answersWrites_refuse s _ _
      · exact answersWrites_complete fun resp => .push d _ _ s.stL _ resp
  | long =>
    dsimp only
    split
    · exact answersWrites_refuse s _ _
    · split
      · exact answersWrites_refuse s _ _
      · exact answersWrites_complete fun resp => .push d _ s.stS _ _ resp

theorem execPushDur_writes (d : Duration) (s : State) : AnswersWrites s (.pushDur d) (execPushDur d s) := by
  unfold execPushDur
  split
  · exact answersWrites_refuse s _ _
  · exact addTone_writes d _ s
  · exact addDuration_writes d _ s

/-! ### BS -/

theorem Cursor.toInt_le_advance (c : Cursor) (n : Nat) : c.toInt ≤ (c.advance n).toInt := by
  cases c with
  | beforeStart =>
    cases n with
    | zero => exact Int.le_refl _
    | succ n => show (-1 : Int) ≤ n; omega
  | onBit p => show (p : Int) ≤ (p + n : Nat); omega

/-- A search that begins at the position after the cursor ends beyond the cursor (R176). -/
theorem Cursor.toInt_le_of_next_le {c : Cursor} {pos : Nat} (h : c.next ≤ pos) : c.toInt ≤ (Cursor.onBit pos).toInt := by
  cases c with
  | beforeStart => show (-1 : Int) ≤ pos; omega
  | onBit p =>
    have : p + 1 ≤ pos := h
    show (p : Int) ≤ pos
    omega

theorem start_le_findSync (bits : List Bool) (start : Nat) : start ≤ (findSync bits start).2.pos := by
  rcases findSync_cases bits start with ⟨p, v, he, hlo, -⟩ | he <;> rw [he]
  · exact Nat.le_add_right_of_le hlo
  · exact Nat.le_max_left _ _

theorem completeSearch_writes {s : State} {i : Instr} (hi : unitOf i = .bs) {r : Bool × Scan} (h : s.bs.cursor.next ≤ r.2.pos) :
    AnswersWrites s i (completeSearch r s) :=
  answersWrites_complete fun resp => .scan hi (Cursor.toInt_le_of_next_le h) _ resp

theorem execBsOffset_writes (n : BitVec 32) (s : State) : AnswersWrites s (.bsOffset n) (execBsOffset n s) :=
  answersWrites_complete fun resp => .scan rfl (Cursor.toInt_le_advance s.bs.cursor n.toNat) s.bs.inv resp

theorem execBsHex_writes (w : BitVec 8) (s : State) : AnswersWrites s (.bsHex w) (execBsHex w s) := by
  unfold execBsHex
  split
  · exact answersWrites_refuse s _ _
  · split
    · exact answersWrites_refuse s _ _
    · exact answersWrites_read s _

theorem execBsFind_writes (w : BitVec 8) (target mask : BitVec 16) (s : State) :
    AnswersWrites s (.bsFind w target mask) (execBsFind w target mask s) := by
  unfold execBsFind
  split
  · exact answersWrites_refuse s _ _
  · exact completeSearch_writes rfl (start_le_find ..)

theorem execBsAppend_writes (w : BitVec 8) (v : BitVec 16) (s : State) :
    AnswersWrites s (.bsAppend w v) (execBsAppend w v s) := by
  unfold execBsAppend
  split
  · exact answersWrites_refuse s _ _
  · split
    · exact answersWrites_refuse s _ _
    · exact answersWrites_complete fun resp => .append w v _ resp

/-! ### Every instruction -/

theorem exec_writes (i : Instr) (s : State) : AnswersWrites s i (exec i s) := by
  cases i with
  | reset =>
    refine answersWrites_complete fun resp => ?_
    exact .reset resp
  | rdreg reg => exact execRdreg_writes reg s
  | wrreg reg value => exact execWrreg_writes reg value s
  | rdhist cls bin => exact execRdhist_writes cls bin s
  | rdpay index => exact execRdpay_writes index s
  | segReset => exact answersWrites_complete fun resp => .seg rfl Seg.reset resp
  | segAcc l r => exact execSegAcc_writes l r s
  | segSample l r => exact execSegSample_writes l r s
  | segFlush => exact completeEmit_writes rfl _ _
  | demRearm => exact answersWrites_complete fun resp => .rearm resp
  | pushDur d => exact execPushDur_writes d s
  | bsReset => exact answersWrites_complete fun resp => .rewind resp
  | bsOffset n => exact execBsOffset_writes n s
  | bsHex w => exact execBsHex_writes w s
  | bsFind w target mask => exact execBsFind_writes w target mask s
  | bsFindSync => exact completeSearch_writes rfl (start_le_findSync ..)
  | bsTrim => exact answersWrites_complete fun resp => .trim resp
  | bsAppend w v => exact execBsAppend_writes w v s
  | parClassify => exact answersWrites_complete fun resp => .parse rfl _ resp
  | parRadio => exact answersWrites_complete fun resp => .parse rfl _ resp
  | parOrion => exact answersWrites_complete fun resp => .parse rfl _ resp
  | parRaw => exact answersWrites_complete fun resp => .parse rfl _ resp
  | parAuto => exact answersWrites_complete fun resp => .parse rfl _ resp

/-! ### The cursor within a scan (R41, R188) -/

/-- Every parse command begins a new scan (R203). -/
theorem beginsScan_of_unitOf_eq_par {i : Instr} (hi : unitOf i = .par) : beginsScan i = true := by
  cases i with
  | parClassify | parRadio | parOrion | parRaw | parAuto => rfl
  | _ => cases hi

/-- Settles O16: only a rewind, a trim, a parse, a new Bitstream or `RESET` leaves the cursor lower than it was. -/
theorem cursorOnlyGrowsWithinScan : Obligations.CursorOnlyGrowsWithinScan := by
  intro s t i hscan ht
  cases exec_writes i s t ht with
  | response | cfg | seg | push | append => exact Int.le_refl _
  | scan _ hc => exact hc
  | reset | rearm | rewind | trim => cases hscan
  | parse hi => rw [beginsScan_of_unitOf_eq_par hi] at hscan; cases hscan

/-! ### Ownership (R22, R60, R293) -/

theorem ne_pushDur_of_unitOf_ne_dem {i : Instr} (hi : unitOf i ≠ .dem) (d : Duration) : i ≠ .pushDur d := by
  rintro rfl
  exact hi rfl

/-- Settles O17: each clause in each group a command can write. -/
theorem onlyOwnersWrite : Obligations.OnlyOwnersWrite := by
  intro s t i ht
  cases exec_writes i s t ht with
  | response | reset | cfg | rearm | push | rewind | trim | append => simp [unitOf]
  | seg hi | scan hi | parse hi =>
    have hpush := ne_pushDur_of_unitOf_ne_dem (i := i) (by rw [hi]; nofun)
    simp [hi, hpush]

end Sys2Proof.Machine

/-! PROOFS. `RDREG` over the register map (spec/10_state.md R48, R49, spec/30_encoding.md R96, spec/44_system.md R243). -/

namespace Sys2Proof.Machine

/-! ### The word and the two answers of `RDREG` -/

theorem encodesAs_rdreg (reg : BitVec 8) : encodesAs (.rdreg reg) 0x02 reg.toNat 0 := commandWord_toNat 0x02 reg 0

theorem execRdreg_of_some {reg : BitVec 8} {r : Reg} (h : regOfNumber reg = some r) (s : State) :
    execRdreg reg s = .next { s with resp := answer 0x80 false s.bs.inv 0 (regValue s r) } := by
  rw [execRdreg, h]
  exact complete_eq ..

theorem execRdreg_of_none {reg : BitVec 8} (h : regOfNumber reg = none) (s : State) :
    execRdreg reg s = .next (s.refusedWith 0x02 0xE1) := by
  rw [execRdreg, h]
  exact refuse_eq ..

/-! ### Contents as integers: parts, codes, views and packed registers -/

theorem eq_ofInt_of_toNat_eq {x : BitVec 32} {v : Int} (h : (x.toNat : Int) = v) : x = BitVec.ofInt 32 v := by
  rw [← h, BitVec.ofInt_natCast, BitVec.ofNat_toNat, BitVec.setWidth_eq]

theorem part_zero (v : Int) : part v 0 = BitVec.ofInt 32 v := congrArg _ (Int.ediv_one v)

theorem part_one (v : Int) : part v 1 = BitVec.ofInt 32 (v / 2 ^ 32) := rfl

theorem part_two (v : Int) : part v 2 = BitVec.ofInt 32 (v / 2 ^ 64) := rfl

/-- `min` and `max` read 0 while the aggregate is empty (R36). -/
theorem part_zero_ite (n v : Nat) :
    part (if n = 0 then 0 else v : Nat) 0 = BitVec.ofInt 32 (if n = 0 then 0 else (v : Int)) := by
  rw [part_zero]
  split <;> rfl

theorem outcomeNumber_eq_code (c : DecodeCode) : outcomeNumber c = c.code := by cases c <;> rfl

/-- The two enumerated fields of `STATUS` are their codes (R31, R32, R48). -/
theorem statusOf_eq (s : State) :
    statusOf s = s.dem.phase.code.toNat + 4 * s.dem.fsm.code.toNat + 16 * s.dem.curBit.toNat + 32 * s.bs.inv.toNat
      + 64 * s.seg.isOpen.toNat + 256 * s.sysFault.toNat := by
  unfold statusOf
  cases s.dem.phase <;> cases s.dem.fsm <;> rfl

theorem statusWord_toNat (s : State) : (statusWord s).toNat = statusOf s := by
  simp only [statusWord, toNat_append_eq_add, toNat_ofBool_eq_toNat, BitVec.ofNat_eq_ofNat, BitVec.toNat_zero, statusOf_eq]
  omega

theorem append_bytes_toNat (a b c d : Byte) :
    (a ++ b ++ c ++ d).toNat = 2 ^ 24 * a.toNat + 2 ^ 16 * b.toNat + 2 ^ 8 * c.toNat + d.toNat := by
  simp only [toNat_append_eq_add]
  omega

/-! ### The register map -/

/-- The number and content of a register of the map are those the model gives to some register. -/
def Shown (s : State) (p : Nat × Int) : Prop :=
  ∃ r, regOfNumber (BitVec.ofNat 8 p.1) = some r ∧ regValue s r = BitVec.ofInt 32 p.2

theorem shown_systemRegisters (s : State) : ∀ p ∈ systemRegisters s, Shown s p := by
  simp only [systemRegisters, List.forall_mem_cons]
  refine ⟨⟨.cfgChannel, rfl, ?channel⟩, ⟨.cfgDeltaPct, rfl, eq_ofInt_of_toNat_eq ?delta⟩, ⟨.cfgToneLen, rfl, part_zero _⟩,
    ⟨.status, rfl, eq_ofInt_of_toNat_eq (congrArg _ (statusWord_toNat s))⟩, ⟨.bsLen, rfl, (BitVec.ofInt_natCast ..).symm⟩,
    ⟨.bsCursor, rfl, ?cursor⟩, nofun⟩
  case channel =>
    dsimp only [regValue]
    cases s.cfg.channel <;> rfl
  case delta => exact congrArg _ (BitVec.toNat_setWidth_of_le (by decide))
  case cursor =>
    dsimp only [regValue]
    cases s.bs.cursor with
    | beforeStart => rfl
    | onBit c =>
      rw [Cursor.code, ← BitVec.ofInt_natCast, Nat.cast_min, Nat.cast_succ]

theorem shown_shortRegisters (s : State) : ∀ p ∈ statsRegisters 0x10 s.stS, Shown s p := by
  simp only [statsRegisters, List.forall_mem_cons]
  exact ⟨⟨.sCount, rfl, part_zero _⟩, ⟨.sSum0, rfl, part_zero _⟩, ⟨.sSum1, rfl, part_one _⟩, ⟨.sSq0, rfl, part_zero _⟩,
    ⟨.sSq1, rfl, part_one _⟩, ⟨.sSq2, rfl, part_two _⟩, ⟨.sMin, rfl, part_zero_ite ..⟩, ⟨.sMax, rfl, part_zero_ite ..⟩, nofun⟩

theorem shown_longRegisters (s : State) : ∀ p ∈ statsRegisters 0x18 s.stL, Shown s p := by
  simp only [statsRegisters, List.forall_mem_cons]
  exact ⟨⟨.lCount, rfl, part_zero _⟩, ⟨.lSum0, rfl, part_zero _⟩, ⟨.lSum1, rfl, part_one _⟩, ⟨.lSq0, rfl, part_zero _⟩,
    ⟨.lSq1, rfl, part_one _⟩, ⟨.lSq2, rfl, part_two _⟩, ⟨.lMin, rfl, part_zero_ite ..⟩, ⟨.lMax, rfl, part_zero_ite ..⟩, nofun⟩

theorem shown_segmenterRegisters (s : State) : ∀ p ∈ segmenterRegisters s.seg, Shown s p := by
  simp only [segmenterRegisters, List.forall_mem_cons]
  exact ⟨⟨.segN, rfl, part_zero _⟩, ⟨.segSum0, rfl, part_zero _⟩, ⟨.segSum1, rfl, part_one _⟩, ⟨.segCur, rfl, part_zero _⟩,
    ⟨.segRun, rfl, part_zero _⟩, nofun⟩

theorem shown_resultRegisters (s : State) : ∀ p ∈ resultRegisters s.df, Shown s p := by
  simp only [resultRegisters, List.forall_mem_cons, outcomeNumber_eq_code]
  refine ⟨⟨.dfClass, rfl, eq_ofInt_of_toNat_eq ?outcomes⟩, ⟨.dfBase, rfl, eq_ofInt_of_toNat_eq ?base⟩,
    ⟨.dfEnd, rfl, BitVec.ofInt_toInt.symm⟩, ⟨.dfLen, rfl, BitVec.ofInt_toInt.symm⟩, ⟨.dfNpay, rfl, eq_ofInt_of_toNat_eq rfl⟩,
    ⟨.dfCk, rfl, eq_ofInt_of_toNat_eq ?checksums⟩, ⟨.dfName0, rfl, eq_ofInt_of_toNat_eq ?name0⟩,
    ⟨.dfName1, rfl, eq_ofInt_of_toNat_eq ?name1⟩, ⟨.dfFlags, rfl, eq_ofInt_of_toNat_eq ?flags⟩, nofun⟩
  case base => exact congrArg _ (BitVec.toNat_setWidth_of_le (by decide))
  case outcomes =>
    dsimp only [regValue]
    rw [append_bytes_toNat, BitVec.ofNat_eq_ofNat, BitVec.toNat_zero]
    omega
  case checksums =>
    dsimp only [regValue]
    rw [toNat_append_eq_add]
    omega
  case name0 | name1 =>
    dsimp only [regValue]
    rw [append_bytes_toNat]
    omega
  case flags =>
    dsimp only [regValue]
    rw [toNat_append_eq_add, toNat_append_eq_add, toNat_ofBool_eq_toNat, BitVec.ofNat_eq_ofNat, BitVec.toNat_zero]
    cases s.df.nameKind <;> simp [NameKind.code, add_comm]

theorem shown_registerMap (s : State) : ∀ p ∈ registerMap s, Shown s p := by
  simp only [registerMap, List.forall_mem_append]
  exact ⟨⟨⟨⟨shown_systemRegisters s, shown_shortRegisters s⟩, shown_longRegisters s⟩, shown_segmenterRegisters s⟩,
    shown_resultRegisters s⟩

/-- A number that names a register is one of the 36 of R49. -/
theorem mem_registerMap_of_regOfNumber {reg : BitVec 8} {r : Reg} (h : regOfNumber reg = some r) (s : State) :
    reg.toNat ∈ (registerMap s).map Prod.fst := by
  unfold regOfNumber at h
  split at h <;> cases h
  all_goals
    next hn =>
    rw [hn]
    exact List.mem_of_elem_eq_true rfl

/-- Settles O19: the registers of the map group by group, and no other number names a register. -/
theorem rdregReadsRegisterMap : Obligations.RdregReadsRegisterMap := by
  refine ⟨encodesAs_rdreg, fun s => ⟨fun p hp => ?_, fun reg hreg => execRdreg_of_none ?_ s⟩⟩
  · obtain ⟨r, hr, hv⟩ := shown_registerMap s p hp
    rw [← hv]
    exact execRdreg_of_some hr s
  · exact Option.eq_none_iff_forall_ne_some.2 fun r hr => hreg (mem_registerMap_of_regOfNumber hr s)

end Sys2Proof.Machine

/-! PROOFS. The memories under the commands (spec/20_memory.md R64, R66, R70, R76): what a refusal leaves, what the reads leave,
the bits of the Bitstream after each command, and the window `BS_HEX` reads. -/

namespace Sys2Proof.Machine

/-! ### Refusals (R76, R268) -/

theorem faultTable_codes_nodup : (faultTable.map Prod.snd).Nodup := by decide

theorem le_code_of_mem_faultTable : ∀ p ∈ faultTable, 0xE0 ≤ p.2.toNat := by simp [faultTable]

/-- The code in the response tells which fault refused the command (R269). -/
theorem eq_refusedWith_of_refuse {s t : State} {f : CmdFault} (ht : refuse f s = .next t) {p : BitVec 8 × BitVec 8}
    (hp : p ∈ faultTable) (hcode : t.statusByte = p.2) : t = s.refusedWith p.1 p.2 := by
  obtain rfl := (refuse_eq_next_iff ..).1 ht
  rw [statusByte_refusedWith] at hcode
  obtain rfl := List.inj_on_of_nodup_map faultTable_codes_nodup f.code_bit hp hcode
  rfl

theorem CompletedFrom.statusByte_ne {s t : State} {clears : Bool} {r : Result} (h : CompletedFrom s clears r) (ht : r = .next t)
    {p : BitVec 8 × BitVec 8} (hp : p ∈ faultTable) : t.statusByte ≠ p.2 := by
  intro hcode
  have hlt := (h.statusByte_sysFault ht).1
  have hle := le_code_of_mem_faultTable p hp
  rw [hcode] at hlt
  omega

theorem exec_eq_refusedWith {s t : State} {i : Instr} (ht : exec i s = .next t) {p : BitVec 8 × BitVec 8} (hp : p ∈ faultTable)
    (hcode : t.statusByte = p.2) : t = s.refusedWith p.1 p.2 := by
  rcases exec_ends i s with (⟨f, h⟩ | h) | ⟨-, h⟩ | ⟨index, -, h⟩
  · exact eq_refusedWith_of_refuse (h ▸ ht) hp hcode
  · exact absurd hcode (h.statusByte_ne ht hp)
  · exact absurd hcode (h.statusByte_ne ht hp)
  · rw [h] at ht
    cases ht

/-- Settles O11: of the ends a command can have, a refusal alone answers a fault code; a reserved word is refused too. -/
theorem refusalChangesOnlyItsBit : Obligations.RefusalChangesOnlyItsBit := by
  intro s t cw rest hc ht p hp hcode
  cases hd : decode cw with
  | ok i =>
    rw [step_of_decode_ok hc hd] at ht
    exact exec_eq_refusedWith ht hp hcode
  | reserved e =>
    rw [step_of_decode_reserved hc hd] at ht
    exact eq_refusedWith_of_refuse ht hp hcode

/-! ### Reads (R70) -/

/-- How a read can end: refused, completed from the very state it reads, or, `RDPAY` alone, stopped (log entry 4). -/
inductive EndsAsRead (s : State) : Result → Prop
  | refused (f : CmdFault) : EndsAsRead s (refuse f s)
  | answered (val : Reg32) : EndsAsRead s (complete .done false 0 val s)
  | stopped : EndsAsRead s (.fault .payloadUnwritten)

theorem execRdreg_endsAsRead (reg : BitVec 8) (s : State) : EndsAsRead s (execRdreg reg s) := by
  unfold execRdreg
  split
  · exact .refused _
  · exact .answered _

theorem execRdhist_endsAsRead (cls : BitVec 8) (bin : BitVec 32) (s : State) : EndsAsRead s (execRdhist cls bin s) := by
  unfold execRdhist
  split
  · exact .refused _
  · split
    · exact .answered _
    · exact .refused _

theorem execRdpay_endsAsRead (index : BitVec 32) (s : State) : EndsAsRead s (execRdpay index s) := by
  unfold execRdpay
  split
  · exact .refused _
  · split
    · exact .stopped
    · exact .answered _

theorem execBsHex_endsAsRead (w : BitVec 8) (s : State) : EndsAsRead s (execBsHex w s) := by
  unfold execBsHex
  split
  · exact .refused _
  · split
    · exact .refused _
    · exact .answered _

theorem CmdFault.code_ne_done (f : CmdFault) : f.code ≠ 0x80 := by cases f <;> decide

theorem EndsAsRead.frame {s t : State} {r : Result} (h : EndsAsRead s r) (ht : r = .next t) :
    t = { s with resp := t.resp, sysFault := t.sysFault } ∧ (t.statusByte = 0x80 → t.sysFault = s.sysFault) := by
  cases h with
  | refused f =>
    obtain rfl := (refuse_eq_next_iff ..).1 ht
    rw [statusByte_refusedWith]
    exact ⟨rfl, fun hdone => absurd hdone f.code_ne_done⟩
  | answered val =>
    obtain rfl := (complete_eq_next_iff ..).1 ht
    exact ⟨rfl, fun _ => rfl⟩
  | stopped => cases ht

/-- Settles O14: each of the four commands ends as a read. -/
theorem readsChangeNothing : Obligations.ReadsChangeNothing := by
  rintro s t i (⟨reg, rfl⟩ | ⟨cls, bin, rfl⟩ | ⟨index, rfl⟩ | ⟨w, rfl⟩) ht
  · exact (execRdreg_endsAsRead reg s).frame ht
  · exact (execRdhist_endsAsRead cls bin s).frame ht
  · exact (execRdpay_endsAsRead index s).frame ht
  · exact (execBsHex_endsAsRead w s).frame ht

/-! ### The bits of the Bitstream (R66, R137, R182, R241) -/

theorem Writes.bits_prefix {s t : State} {i : Instr} (h : Writes s i t) (hreset : i ≠ .reset) (hrearm : i ≠ .demRearm)
    (htrim : i ≠ .bsTrim) : s.bs.bits <+: t.bs.bits := by
  cases h with
  | reset => exact absurd rfl hreset
  | rearm => exact absurd rfl hrearm
  | trim => exact absurd rfl htrim
  | push _ _ _ _ new | append _ _ new => exact List.prefix_append _ new
  | response | cfg | seg | rewind | scan | parse => exact List.prefix_rfl

theorem Writes.bits_length_le {s t : State} {i : Instr} (h : Writes s i t) (hpush : ∀ d, i ≠ .pushDur d)
    (happend : ∀ w v, i ≠ .bsAppend w v) : t.bs.bits.length ≤ s.bs.bits.length := by
  cases h with
  | push d => exact absurd rfl (hpush d)
  | append w v => exact absurd rfl (happend w v)
  | reset | rearm => exact Nat.zero_le _
  | trim => exact (List.drop_suffix ..).length_le
  | response | cfg | seg | rewind | scan | parse => exact Nat.le_refl _

theorem exec_bsTrim_bits_suffix {s t : State} (ht : exec .bsTrim s = .next t) : t.bs.bits <:+ s.bs.bits := by
  obtain rfl := (complete_eq_next_iff ..).1 ht
  exact List.drop_suffix ..

theorem exec_reset_bits {s t : State} (ht : exec .reset s = .next t) : t.bs.bits = [] := by
  obtain rfl := (complete_eq_next_iff ..).1 ht
  rfl

theorem exec_demRearm_bits {s t : State} (ht : exec .demRearm s = .next t) : t.bs.bits = [] := by
  obtain rfl := (complete_eq_next_iff ..).1 ht
  rfl

/-- Settles O15: the first and the last clause in each group a command can write, the others by the command they name. -/
theorem bitMemoryIsAppendOnly : Obligations.BitMemoryIsAppendOnly := by
  intro s t i ht
  have hwrites := exec_writes i s t ht
  refine ⟨hwrites.bits_prefix, ?_, ?_, hwrites.bits_length_le⟩
  · rintro rfl
    exact exec_bsTrim_bits_suffix ht
  · rintro (rfl | rfl)
    · exact exec_reset_bits ht
    · exact exec_demRearm_bits ht

/-! ### `BS_HEX` (R64, R171, R175) -/

theorem encodesAs_bsHex (w : BitVec 8) : encodesAs (.bsHex w) 0x32 w.toNat 0 := commandWord_toNat 0x32 w 0

theorem widthLegal_iff (w : BitVec 8) : widthLegal w = true ↔ 1 ≤ w.toNat ∧ w.toNat ≤ 16 := by
  rw [widthLegal, Bool.and_eq_true, decide_eq_true_eq, decide_eq_true_eq, Config.wMax]

theorem execBsHex_of_width_illegal {w : BitVec 8} (h : w.toNat = 0 ∨ 16 < w.toNat) (s : State) :
    execBsHex w s = .next (s.refusedWith 0x02 0xE1) := by
  have hw : ¬ widthLegal w = true := by rw [widthLegal_iff]; omega
  rw [execBsHex, Bool.eq_false_of_not_eq_true hw]
  exact refuse_eq ..

theorem execBsHex_of_beforeStart {w : BitVec 8} {s : State} (hw : widthLegal w = true) (hc : s.bs.cursor = .beforeStart) :
    execBsHex w s = .next (s.refusedWith 0x04 0xE2) := by
  rw [execBsHex, hw, hc]
  exact refuse_eq ..

theorem execBsHex_of_onBit {w : BitVec 8} {s : State} {c : Nat} (hw : widthLegal w = true) (hc : s.bs.cursor = .onBit c) :
    execBsHex w s = .next { s with
      resp := answer 0x80 false s.bs.inv 0 (BitVec.ofNat 32 (windowValue s.bs.bits c s.bs.inv w.toNat)) } := by
  rw [execBsHex, hw, hc, ← hex_eq_windowValue s.bs.bits { pos := c, inv := s.bs.inv }]
  exact complete_eq ..

/-- Settles O40: the three paths of `BS_HEX` in the order it tests them. -/
theorem bsHexReadsWindow : Obligations.BsHexReadsWindow := fun s w =>
  ⟨encodesAs_bsHex w, fun hw => execBsHex_of_width_illegal hw s,
    fun hlo hhi hc => execBsHex_of_beforeStart ((widthLegal_iff w).2 ⟨hlo, hhi⟩) hc,
    fun _ hlo hhi hc => execBsHex_of_onBit ((widthLegal_iff w).2 ⟨hlo, hhi⟩) hc⟩

end Sys2Proof.Machine

/-! PROOFS. The decoder and the encoder are each other's inverse, the rows of the opcode table are the encodings, and the reserved
words are the words that decode to nothing (spec/30_encoding.md R85 to R92, R101). -/

namespace Sys2Proof

open Sys2Proof.Machine (toNat_append_eq_add)

/-! ### The formats on an encoded word, and the word behind an accepted one (R86, R87) -/

theorem fieldOp_encode (i : Instr) : fieldOp (encode i) = i.opcode := fieldOp_commandWord ..

theorem formatN_commandWord (op : BitVec 8) (i : Instr) : formatN (commandWord op 0 0) i = .ok i := by simp [formatN]

theorem formatI_commandWord (op : BitVec 8) (imm : BitVec 32) (f : BitVec 32 → Instr) :
    formatI (commandWord op 0 imm) f = .ok (f imm) := by simp [formatI]

theorem formatF_commandWord (op : BitVec 8) (l r : Sample) (f : Sample → Sample → Instr) :
    formatF (commandWord op 0 (l ++ r)) f = .ok (f l r) := by simp [formatF]

theorem formatW_commandWord (op w : BitVec 8) (f : BitVec 8 → Instr) : formatW (commandWord op w 0) f = .ok (f w) := by
  simp [formatW]

theorem formatWI_commandWord (op w : BitVec 8) (imm : BitVec 32) (f : BitVec 8 → BitVec 32 → Instr) :
    formatWI (commandWord op w imm) f = .ok (f w imm) := by simp [formatWI]

theorem formatWP_commandWord (op w : BitVec 8) (hi lo : BitVec 16) (f : BitVec 8 → BitVec 16 → BitVec 16 → Instr) :
    formatWP (commandWord op w (hi ++ lo)) f = .ok (f w hi lo) := by simp [formatWP]

theorem formatWV_commandWord (op w : BitVec 8) (v : BitVec 16) (f : BitVec 8 → BitVec 16 → Instr) :
    formatWV (commandWord op w ((0 : BitVec 16) ++ v)) f = .ok (f w v) := by
  simp only [formatWV, fieldZ_commandWord, fieldImmHi_commandWord, fieldW_commandWord, fieldImmLo_commandWord, and_self, if_true]

theorem decode_encode (i : Instr) : decode (encode i) = .ok i := by
  unfold decode
  rw [fieldOp_encode]
  cases i with
  | reset | segReset | segFlush | demRearm | bsReset | bsFindSync | bsTrim | parClassify | parRadio | parOrion | parRaw
  | parAuto =>
    exact formatN_commandWord ..
  | rdpay | pushDur | bsOffset => exact formatI_commandWord ..
  | segAcc | segSample => exact formatF_commandWord ..
  | rdreg | bsHex => exact formatW_commandWord ..
  | wrreg | rdhist => exact formatWI_commandWord ..
  | bsFind => exact formatWP_commandWord ..
  | bsAppend => exact formatWV_commandWord ..

/-- Settles O1: the opcode of the encoded word selects the arm of its instruction, and the arm's format hands the operands on. -/
theorem decodeOfEncode : Obligations.DecodeOfEncode := decode_encode

section

variable {cw : Word64} {i : Instr}

theorem ite_ok_eq_ok_iff {p : Prop} [Decidable p] {j : Instr} {e : DecodeError} :
    (if p then Decoded.ok j else .reserved e) = .ok i ↔ p ∧ j = i := by
  split <;> simp [*]

theorem formatN_eq_ok_iff {j : Instr} :
    formatN cw j = .ok i ↔ (fieldW cw = 0 ∧ fieldZ cw = 0 ∧ fieldImm cw = 0) ∧ j = i := ite_ok_eq_ok_iff

theorem formatI_eq_ok_iff {f : BitVec 32 → Instr} :
    formatI cw f = .ok i ↔ (fieldW cw = 0 ∧ fieldZ cw = 0) ∧ f (fieldImm cw) = i := ite_ok_eq_ok_iff

theorem formatF_eq_ok_iff {f : Sample → Sample → Instr} :
    formatF cw f = .ok i ↔ (fieldW cw = 0 ∧ fieldZ cw = 0) ∧ f (fieldImmHi cw) (fieldImmLo cw) = i := ite_ok_eq_ok_iff

theorem formatW_eq_ok_iff {f : BitVec 8 → Instr} :
    formatW cw f = .ok i ↔ (fieldZ cw = 0 ∧ fieldImm cw = 0) ∧ f (fieldW cw) = i := ite_ok_eq_ok_iff

theorem formatWI_eq_ok_iff {f : BitVec 8 → BitVec 32 → Instr} :
    formatWI cw f = .ok i ↔ fieldZ cw = 0 ∧ f (fieldW cw) (fieldImm cw) = i := ite_ok_eq_ok_iff

theorem formatWP_eq_ok_iff {f : BitVec 8 → BitVec 16 → BitVec 16 → Instr} :
    formatWP cw f = .ok i ↔ fieldZ cw = 0 ∧ f (fieldW cw) (fieldImmHi cw) (fieldImmLo cw) = i := ite_ok_eq_ok_iff

theorem formatWV_eq_ok_iff {f : BitVec 8 → BitVec 16 → Instr} :
    formatWV cw f = .ok i ↔ (fieldZ cw = 0 ∧ fieldImmHi cw = 0) ∧ f (fieldW cw) (fieldImmLo cw) = i := ite_ok_eq_ok_iff

/-! ### Every word that decodes is an encoding -/

/-- A word with `z` = 0 is the encoding of an instruction that holds its other fields (R85). -/
theorem encode_eq_of_fields (hop : (fieldOp cw).toNat = i.opcode.toNat) (hz : fieldZ cw = 0) (hw : i.wField = fieldW cw)
    (himm : i.immField = fieldImm cw) : encode i = cw := by
  rw [encode, ← BitVec.eq_of_toNat_eq hop, hw, himm]
  exact commandWord_fields hz

/-- Settles O2: the arm that decodes the word has its opcode, its format keeps every other bit or requires it to be 0. -/
theorem encodeOfDecode : Obligations.EncodeOfDecode := by
  intro cw i h
  unfold decode at h
  split at h
  case h_1 hop | h_6 hop | h_9 hop | h_10 hop | h_12 hop | h_16 hop | h_17 hop | h_19 hop | h_20 hop
      | h_21 hop | h_22 hop | h_23 hop =>
    obtain ⟨⟨hw, hz, himm⟩, rfl⟩ := formatN_eq_ok_iff.1 h
    exact encode_eq_of_fields hop hz hw.symm himm.symm
  case h_5 hop | h_11 hop | h_13 hop =>
    obtain ⟨⟨hw, hz⟩, rfl⟩ := formatI_eq_ok_iff.1 h
    exact encode_eq_of_fields hop hz hw.symm rfl
  case h_7 hop | h_8 hop =>
    obtain ⟨⟨hw, hz⟩, rfl⟩ := formatF_eq_ok_iff.1 h
    exact encode_eq_of_fields hop hz hw.symm (fieldImm_eq_halves cw).symm
  case h_2 hop | h_14 hop =>
    obtain ⟨⟨hz, himm⟩, rfl⟩ := formatW_eq_ok_iff.1 h
    exact encode_eq_of_fields hop hz rfl himm.symm
  case h_3 hop | h_4 hop =>
    obtain ⟨hz, rfl⟩ := formatWI_eq_ok_iff.1 h
    exact encode_eq_of_fields hop hz rfl rfl
  case h_15 hop =>
    obtain ⟨hz, rfl⟩ := formatWP_eq_ok_iff.1 h
    exact encode_eq_of_fields hop hz rfl (fieldImm_eq_halves cw).symm
  case h_18 hop =>
    obtain ⟨⟨hz, hhi⟩, rfl⟩ := formatWV_eq_ok_iff.1 h
    refine encode_eq_of_fields hop hz rfl ?_
    rw [fieldImm_eq_halves, hhi]
    rfl
  case h_24 => cases h

theorem decode_eq_ok_iff : decode cw = .ok i ↔ encode i = cw :=
  ⟨encodeOfDecode cw i, fun h => h ▸ decode_encode i⟩

theorem encode_injective : Function.Injective encode := fun _ j h =>
  Decoded.ok.inj ((decode_eq_ok_iff.2 h).symm.trans (decode_encode j))

/-! ### The worked encodings (R101) -/

/-- Settles O5: each listed instruction encodes to its word, so that the word decodes to it. -/
theorem workedEncodings : Obligations.WorkedEncodings := by
  intro p hp
  have henc : encode p.2 = p.1 := by
    revert p
    decide
  exact ⟨decode_eq_ok_iff.2 henc, henc⟩

/-! ### The rows of the opcode table (R90) -/

open Laws.EncodesUnderItsRow in
/-- The word of every instruction is selected by the row of its mnemonic. -/
theorem encodesUnderItsRow : ∀ i : Instr, Statement i
  | .reset => reset
  | .rdreg r => rdreg r
  | .wrreg r v => wrreg r v
  | .rdhist c b => rdhist c b
  | .rdpay k => rdpay k
  | .segReset => segReset
  | .segAcc l r => segAcc l r
  | .segSample l r => segSample l r
  | .segFlush => segFlush
  | .demRearm => demRearm
  | .pushDur d => pushDur d
  | .bsReset => bsReset
  | .bsOffset n => bsOffset n
  | .bsHex w => bsHex w
  | .bsFind w t m => bsFind w t m
  | .bsFindSync => bsFindSync
  | .bsTrim => bsTrim
  | .bsAppend w v => bsAppend w v
  | .parClassify => parClassify
  | .parRadio => parRadio
  | .parOrion => parOrion
  | .parRaw => parRaw
  | .parAuto => parAuto

/-- The halves `imm[31:16]` and `imm[15:0]`. -/
def highHalf (imm : BitVec 32) : BitVec 16 := imm.extractLsb' 16 16
def lowHalf (imm : BitVec 32) : BitVec 16 := imm.extractLsb' 0 16

theorem halves_append (imm : BitVec 32) : highHalf imm ++ lowHalf imm = imm := by
  apply BitVec.eq_of_toNat_eq
  rw [toNat_append_eq_add]
  simp only [highHalf, lowHalf, BitVec.extractLsb'_toNat, Nat.shiftRight_eq_div_pow]
  omega

/-- A field that a mask of ones holds. -/
theorem eq_of_and_ones {n : Nat} {x y : BitVec n} (h : x &&& BitVec.allOnes n = y) : x = y := BitVec.and_allOnes.symm.trans h

/-- The mask of format WV holds the high half. -/
theorem zero_append_lowHalf {imm : BitVec 32} (h : imm &&& 0xFFFF0000 = 0) : (0 : BitVec 16) ++ lowHalf imm = imm := by
  have hmask : (highHalf imm ++ lowHalf imm) &&& (BitVec.allOnes 16 ++ (0 : BitVec 16)) = highHalf imm ++ (0 : BitVec 16) := by
    rw [BitVec.and_append, BitVec.and_allOnes]
    exact congrArg _ BitVec.and_zero
  rw [halves_append] at hmask
  have hhi := congrArg BitVec.toNat (hmask.symm.trans h)
  rw [toNat_append_eq_add] at hhi
  have : highHalf imm = 0 := BitVec.eq_of_toNat_eq (by simpa using hhi)
  rw [← this, halves_append]

/-- Every word the row selects is the encoding of an instruction of its mnemonic. -/
def OpcodeRow.SelectsEncodings (row : OpcodeRow) : Prop :=
  ∀ cw : Word64, cw &&& row.mask = row.pattern → ∃ i, encode i = cw ∧ i.mnemonic = row.mnemonic

/-- A row selects encodings when every choice of the bits its mask leaves free is an instruction's (R86, R90). -/
theorem selectsEncodings_of_fields {name : String} {mask : Word64} {op mw : BitVec 8} {mimm : BitVec 32}
    (f : BitVec 8 → BitVec 32 → Instr) (hmask : mask = wordOfFields 0xFF mw 0xFFFF mimm)
    (hf : ∀ w imm, w &&& mw = 0 → imm &&& mimm = 0 → encode (f w imm) = commandWord op w imm ∧ (f w imm).mnemonic = name) :
    OpcodeRow.SelectsEncodings ⟨name, wordOfFields op 0 0 0, mask⟩ := by
  intro cw h
  rw [hmask, and_mask_eq_iff] at h
  obtain ⟨hop, hw, hz, himm⟩ := h
  obtain ⟨henc, hname⟩ := hf _ _ hw himm
  refine ⟨_, henc.trans ?_, hname⟩
  rw [← hop, show fieldOp cw &&& 0xFF = fieldOp cw from BitVec.and_allOnes]
  exact commandWord_fields (eq_of_and_ones hz)

theorem selectsEncodings_formatN (i : Instr) : OpcodeRow.SelectsEncodings ⟨i.mnemonic, encode i, 0xFFFFFFFFFFFFFFFF⟩ :=
  fun _ h => ⟨i, h.symm.trans BitVec.and_allOnes, rfl⟩

theorem selectsEncodings_formatI {name : String} (f : BitVec 32 → Instr) (op : BitVec 8)
    (hf : ∀ imm, encode (f imm) = commandWord op 0 imm ∧ (f imm).mnemonic = name) :
    OpcodeRow.SelectsEncodings ⟨name, wordOfFields op 0 0 0, 0xFFFFFFFF00000000⟩ :=
  selectsEncodings_of_fields (mw := 0xFF) (mimm := 0) (fun _ imm => f imm) rfl fun _ imm hw _ => eq_of_and_ones hw ▸ hf imm

theorem selectsEncodings_formatF {name : String} (f : Sample → Sample → Instr) (op : BitVec 8)
    (hf : ∀ l r, encode (f l r) = commandWord op 0 (l ++ r) ∧ (f l r).mnemonic = name) :
    OpcodeRow.SelectsEncodings ⟨name, wordOfFields op 0 0 0, 0xFFFFFFFF00000000⟩ :=
  selectsEncodings_formatI (fun imm => f (highHalf imm) (lowHalf imm)) op fun imm => by
    simpa only [halves_append] using hf (highHalf imm) (lowHalf imm)

theorem selectsEncodings_formatW {name : String} (f : BitVec 8 → Instr) (op : BitVec 8)
    (hf : ∀ w, encode (f w) = commandWord op w 0 ∧ (f w).mnemonic = name) :
    OpcodeRow.SelectsEncodings ⟨name, wordOfFields op 0 0 0, 0xFF00FFFFFFFFFFFF⟩ :=
  selectsEncodings_of_fields (mw := 0) (mimm := 0xFFFFFFFF) (fun w _ => f w) rfl fun w _ _ himm => eq_of_and_ones himm ▸ hf w

theorem selectsEncodings_formatWI {name : String} (f : BitVec 8 → BitVec 32 → Instr) (op : BitVec 8)
    (hf : ∀ w imm, encode (f w imm) = commandWord op w imm ∧ (f w imm).mnemonic = name) :
    OpcodeRow.SelectsEncodings ⟨name, wordOfFields op 0 0 0, 0xFF00FFFF00000000⟩ :=
  selectsEncodings_of_fields (mw := 0) (mimm := 0) f rfl fun w imm _ _ => hf w imm

theorem selectsEncodings_formatWP {name : String} (f : BitVec 8 → BitVec 16 → BitVec 16 → Instr) (op : BitVec 8)
    (hf : ∀ w hi lo, encode (f w hi lo) = commandWord op w (hi ++ lo) ∧ (f w hi lo).mnemonic = name) :
    OpcodeRow.SelectsEncodings ⟨name, wordOfFields op 0 0 0, 0xFF00FFFF00000000⟩ :=
  selectsEncodings_formatWI (fun w imm => f w (highHalf imm) (lowHalf imm)) op fun w imm => by
    simpa only [halves_append] using hf w (highHalf imm) (lowHalf imm)

theorem selectsEncodings_formatWV {name : String} (f : BitVec 8 → BitVec 16 → Instr) (op : BitVec 8)
    (hf : ∀ w v, encode (f w v) = commandWord op w ((0 : BitVec 16) ++ v) ∧ (f w v).mnemonic = name) :
    OpcodeRow.SelectsEncodings ⟨name, wordOfFields op 0 0 0, 0xFF00FFFFFFFF0000⟩ :=
  selectsEncodings_of_fields (mw := 0) (mimm := 0xFFFF0000) (fun w imm => f w (lowHalf imm)) rfl fun w imm _ himm => by
    simpa only [zero_append_lowHalf himm] using hf w (lowHalf imm)

theorem opcodeRows_selectEncodings : ∀ row ∈ opcodeRows, row.SelectsEncodings := by
  simp only [opcodeRows, List.cons_append, List.nil_append, List.forall_mem_cons]
  exact ⟨selectsEncodings_formatN .reset,
    selectsEncodings_formatW .rdreg 0x02 (fun _ => ⟨rfl, rfl⟩),
    selectsEncodings_formatWI .wrreg 0x03 (fun _ _ => ⟨rfl, rfl⟩),
    selectsEncodings_formatWI .rdhist 0x04 (fun _ _ => ⟨rfl, rfl⟩),
    selectsEncodings_formatI .rdpay 0x05 (fun _ => ⟨rfl, rfl⟩),
    selectsEncodings_formatN .segReset,
    selectsEncodings_formatF .segAcc 0x11 (fun _ _ => ⟨rfl, rfl⟩),
    selectsEncodings_formatF .segSample 0x12 (fun _ _ => ⟨rfl, rfl⟩),
    selectsEncodings_formatN .segFlush,
    selectsEncodings_formatN .demRearm,
    selectsEncodings_formatI .pushDur 0x21 (fun _ => ⟨rfl, rfl⟩),
    selectsEncodings_formatN .bsReset,
    selectsEncodings_formatI .bsOffset 0x31 (fun _ => ⟨rfl, rfl⟩),
    selectsEncodings_formatW .bsHex 0x32 (fun _ => ⟨rfl, rfl⟩),
    selectsEncodings_formatWP .bsFind 0x33 (fun _ _ _ => ⟨rfl, rfl⟩),
    selectsEncodings_formatN .bsFindSync,
    selectsEncodings_formatN .bsTrim,
    selectsEncodings_formatWV .bsAppend 0x36 (fun _ _ => ⟨rfl, rfl⟩),
    selectsEncodings_formatN .parClassify,
    selectsEncodings_formatN .parRadio,
    selectsEncodings_formatN .parOrion,
    selectsEncodings_formatN .parRaw,
    selectsEncodings_formatN .parAuto, nofun⟩

theorem opcodeRows_mnemonics_nodup : (opcodeRows.map OpcodeRow.mnemonic).Nodup := by decide

/-- Settles O3: the rows and the instructions name each other, and two rows that select one word carry the mnemonic of one
instruction. -/
theorem decodeFollowsOpcodeTable : Obligations.DecodeFollowsOpcodeTable := by
  intro cw
  have hrow : ∀ i, decode cw = .ok i → ∃ row ∈ opcodeRows, cw &&& row.mask = row.pattern ∧ row.mnemonic = i.mnemonic := by
    intro i h
    obtain ⟨row, hmem, hname, hsel⟩ := encodesUnderItsRow i
    exact ⟨row, hmem, decode_eq_ok_iff.1 h ▸ hsel, hname⟩
  refine ⟨⟨?_, ?_⟩, hrow, ?_⟩
  · rintro ⟨i, h⟩
    obtain ⟨row, hmem, hsel, -⟩ := hrow i h
    exact ⟨row, hmem, hsel⟩
  · rintro ⟨row, hmem, hsel⟩
    obtain ⟨i, hi, -⟩ := opcodeRows_selectEncodings row hmem cw hsel
    exact ⟨i, decode_eq_ok_iff.2 hi⟩
  · intro row hmem row' hmem' hsel hsel'
    obtain ⟨i, hi, hname⟩ := opcodeRows_selectEncodings row hmem cw hsel
    obtain ⟨j, hj, hname'⟩ := opcodeRows_selectEncodings row' hmem' cw hsel'
    obtain rfl := encode_injective (hi.trans hj.symm)
    exact List.inj_on_of_nodup_map opcodeRows_mnemonics_nodup hmem hmem' (hname.symm.trans hname')

/-! ### The reserved words (R91) -/

theorem fieldOp_toNat (cw : Word64) : (fieldOp cw).toNat = cw.toNat / 2 ^ 56 := by
  have := cw.isLt
  simp only [fieldOp, BitVec.extractLsb'_toNat, Nat.shiftRight_eq_div_pow]
  omega

theorem fieldW_toNat (cw : Word64) : (fieldW cw).toNat = cw.toNat / 2 ^ 48 % 2 ^ 8 := by
  rw [fieldW, BitVec.extractLsb'_toNat, Nat.shiftRight_eq_div_pow]

theorem fieldZ_toNat (cw : Word64) : (fieldZ cw).toNat = cw.toNat / 2 ^ 32 % 2 ^ 16 := by
  rw [fieldZ, BitVec.extractLsb'_toNat, Nat.shiftRight_eq_div_pow]

theorem fieldImm_toNat (cw : Word64) : (fieldImm cw).toNat = cw.toNat % 2 ^ 32 := BitVec.extractLsb'_toNat ..

theorem fieldImmHi_toNat (cw : Word64) : (fieldImmHi cw).toNat = (fieldImm cw).toNat / 2 ^ 16 := by
  have := (fieldImmLo cw).isLt
  rw [fieldImm_eq_halves, toNat_append_eq_add]
  omega

/-- R91 over the fields of the word. -/
theorem reservedWord_iff (cw : Word64) : reservedWord cw ↔
    (fieldOp cw).toNat ∉ opcodesN ++ opcodesIF ++ opcodesW ++ opcodesWIWP ++ opcodesWV
    ∨ fieldZ cw ≠ 0
    ∨ ((fieldOp cw).toNat ∈ opcodesN ++ opcodesIF ∧ fieldW cw ≠ 0)
    ∨ ((fieldOp cw).toNat ∈ opcodesN ++ opcodesW ∧ fieldImm cw ≠ 0)
    ∨ ((fieldOp cw).toNat ∈ opcodesWV ∧ fieldImmHi cw ≠ 0) := by
  have eq_zero_iff {n : Nat} (x : BitVec n) : x = 0 ↔ x.toNat = 0 := BitVec.toNat_eq
  simp only [reservedWord, ← fieldOp_toNat, ← fieldW_toNat, ← fieldZ_toNat, ← fieldImm_toNat, ← fieldImmHi_toNat, ne_eq,
    eq_zero_iff]

/-- A word is reserved exactly when its format, if its opcode has one, rejects it. -/
theorem exists_decode_eq_ok_iff_not_reserved : (∃ i, decode cw = .ok i) ↔ ¬ reservedWord cw := by
  rw [reservedWord_iff]
  unfold decode
  split
  case h_24 =>
    refine iff_of_false (fun ⟨_, h⟩ => nomatch h) (not_not_intro (.inl ?_))
    simp_all [opcodesN, opcodesIF, opcodesW, opcodesWIWP, opcodesWV]
  all_goals
    next hop =>
    rw [hop]
    simp [formatN_eq_ok_iff, formatI_eq_ok_iff, formatF_eq_ok_iff, formatW_eq_ok_iff, formatWI_eq_ok_iff, formatWP_eq_ok_iff,
      formatWV_eq_ok_iff, opcodesN, opcodesIF, opcodesW, opcodesWIWP, opcodesWV, and_comm, and_left_comm, and_assoc]

/-- Settles O4: a word that is not reserved decodes and is carried out; a reserved one decodes to nothing and is refused. -/
theorem reservedEncodingsRefused : Obligations.ReservedEncodingsRefused := by
  intro s cw rest hc
  rw [iff_not_comm.1 exists_decode_eq_ok_iff_not_reserved, not_not]
  constructor
  · intro hnone
    cases hd : decode cw with
    | ok i => exact absurd ⟨i, hd⟩ hnone
    | reserved e => exact (Machine.step_of_decode_reserved hc hd).trans (Machine.refuse_eq ..)
  · rintro ⟨i, hd⟩
    exact ⟨i, hd, Machine.step_of_decode_ok hc hd⟩

end

end Sys2Proof

/-! PROOFS. The ends of the structured decodes (spec/43_parser.md R206 to R219, R228): one equation per case of each step, then the
body, `PAR_RADIO` and `PAR_ORION`. -/

namespace Sys2Proof.Machine

/-! ### Bytes of the tape and the payload stored from them -/

theorem hex_eq_tapeByte (bits : List Bool) (sc : Scan) (n : Nat) :
    hex bits (sc.advance n) 8 = tapeByte bits sc.inv (sc.pos + n) := hex_eq_windowValue ..

theorem tapeByte_lt (bits : List Bool) (inv : Bool) (a : Nat) : tapeByte bits inv a < 2 ^ 8 := by
  rw [tapeByte, ← hex_eq_windowValue bits { pos := a, inv := inv }]
  exact hex_lt ..

theorem tapeByte_toNat (bits : List Bool) (inv : Bool) (a : Nat) :
    (BitVec.ofNat 8 (tapeByte bits inv a)).toNat = tapeByte bits inv a := Nat.mod_eq_of_lt (tapeByte_lt ..)

theorem ofNat_tapeByte_ne_zero_iff (bits : List Bool) (inv : Bool) (a : Nat) :
    BitVec.ofNat 8 (tapeByte bits inv a) ≠ 0 ↔ tapeByte bits inv a ≠ 0 := by
  rw [Ne, ← BitVec.toNat_inj, tapeByte_toNat]
  rfl

/-- The payload stored from a scan position, address by address. -/
theorem read_payloadFrom_readBytes (bits : List Bool) (n : Nat) (sc : Scan) (i : Nat) :
    ((payloadFrom 0 (readBytes bits n sc).1).read i).map (fun b => b.toNat)
      = if i < n then some (tapeByte bits sc.inv (sc.pos + 8 * i)) else none := by
  rw [read_payloadFrom_zero]
  split
  · next h => rw [getElem?_readBytes bits sc h, Option.map_some, hex_eq_tapeByte, tapeByte_toNat]
  · next h => rw [List.getElem?_eq_none (by simpa using h), Option.map_none]

/-! ### The steps of the body (R208 to R215) -/

section

variable {wo : WordOrder} {bits : List Bool} {p : ParState}

theorem readWord_ok_of_lt {sc : Scan} (h : bits.length < sc.pos + 16) : (readWord wo bits sc).ok = false := by
  rw [readWord_ok]
  exact decide_eq_false (by omega)

theorem readWord_ok_of_le {sc : Scan} (h : sc.pos + 16 ≤ bits.length) : (readWord wo bits sc).ok = true := by
  rw [readWord_ok]
  exact decide_eq_true h

theorem body_of_lt (h : bits.length < p.scan.pos + 16) : body wo bits p = (.noBase, { p with scan := p.scan.advance 16 }) := by
  simp only [body, readWord_ok_of_lt h, readWord_scan, Scan.advance_advance]
  rfl

/-- The parser once it holds `base` (R208). -/
def ParState.withBase (p : ParState) (base : Word16) : ParState :=
  { p with scan := p.scan.advance 16, df := { p.df with base := base } }

theorem body_of_le (h : p.scan.pos + 16 ≤ bits.length) :
    body wo bits p = bodyEnd wo bits (p.withBase (readWord wo bits p.scan).value) := by
  simp only [body, readWord_ok_of_le h, readWord_scan, Scan.advance_advance]
  rfl

theorem bodyEnd_of_lt (h : bits.length < p.scan.pos + 16) :
    bodyEnd wo bits p = (.noLength, { p with scan := p.scan.advance 16 }) := by
  simp only [bodyEnd, readWord_ok_of_lt h, readWord_scan, Scan.advance_advance]
  rfl

/-- `DF.len` (R210): the length from `base` to the address `last`, both included. -/
def frameLength (base last : Word16) : Int := (last.toNat : Int) - base.toNat + 1

theorem frameLength_toNat_lt (base last : Word16) : (frameLength base last).toNat < 2 ^ 32 := by
  have := last.isLt
  unfold frameLength
  omega

/-- The parser once it holds `end` and the length (R209, R210). -/
def ParState.withEnd (p : ParState) (last : Word16) : ParState :=
  { p with
    scan := p.scan.advance 16
    df := { p.df with endAddr := BitVec.ofNat 32 last.toNat, len := BitVec.ofInt 32 (frameLength p.df.base last) } }

theorem bodyEnd_of_neg {last : Word16} (h : p.scan.pos + 16 ≤ bits.length) (hlast : (readWord wo bits p.scan).value = last)
    (hneg : frameLength p.df.base last < 0) : bodyEnd wo bits p = (.negativeLength, p.withEnd last) := by
  simp only [bodyEnd, readWord_ok_of_le h, readWord_scan, Scan.advance_advance, ← BitVec.ofNat_toNat, hlast]
  exact if_pos hneg

theorem bodyEnd_of_not_neg {last : Word16} (h : p.scan.pos + 16 ≤ bits.length) (hlast : (readWord wo bits p.scan).value = last)
    (hlen : ¬ frameLength p.df.base last < 0) :
    bodyEnd wo bits p = bodyPayload wo bits (frameLength p.df.base last).toNat (p.withEnd last) := by
  simp only [bodyEnd, readWord_ok_of_le h, readWord_scan, Scan.advance_advance, ← BitVec.ofNat_toNat, hlast]
  exact if_neg hlen

/-- The parser once step 4 has stored `stored` bytes and read `tried` (R212, R213). -/
def ParState.withPayload (p : ParState) (bits : List Bool) (stored tried : Nat) : ParState :=
  { scan := p.scan.advance (8 * tried)
    df := { p.df with npay := BitVec.ofNat 32 stored }
    pay := payloadFrom 0 (readBytes bits stored p.scan).1 }

theorem payloadLoop_of_holds_nil (hp : p.Holds []) {len : Nat} (hlen : len < 2 ^ 32) :
    payloadLoop bits len p = (decide (len ≤ (bits.length - p.scan.pos) / 8),
      p.withPayload bits (min len ((bits.length - p.scan.pos) / 8)) (min len ((bits.length - p.scan.pos) / 8 + 1))) := by
  obtain ⟨⟨scan, df, pay⟩, stored, rfl, heq, ⟨hpay, -⟩, hdf, hscan⟩ :=
    payloadLoop_eq bits len p [] hp (by rwa [List.length_nil, Nat.zero_add])
  simp only [List.length_nil, Nat.zero_add, List.nil_append] at hdf hpay hscan
  rw [heq, hpay, hdf, hscan]
  rfl

theorem bodyPayload_of_lt (hp : p.Holds []) {len : Nat} (hlen : len < 2 ^ 32) (h : (bits.length - p.scan.pos) / 8 < len) :
    bodyPayload wo bits len p = (.wrongLength, p.withPayload bits (min len ((bits.length - p.scan.pos) / 8))
      (min len ((bits.length - p.scan.pos) / 8) + 1)) := by
  rw [bodyPayload, payloadLoop_of_holds_nil hp hlen, decide_eq_false (Nat.not_le.2 h), Nat.min_eq_right h, Nat.min_eq_right h.le]
  rfl

theorem bodyPayload_of_le (hp : p.Holds []) {len : Nat} (hlen : len < 2 ^ 32) (h : len ≤ (bits.length - p.scan.pos) / 8) :
    bodyPayload wo bits len p
      = bodyChecksum wo bits (p.withPayload bits (min len ((bits.length - p.scan.pos) / 8)) len) := by
  rw [bodyPayload, payloadLoop_of_holds_nil hp hlen, decide_eq_true h, Nat.min_eq_left (h.trans (Nat.le_succ _))]
  rfl

theorem bodyChecksum_of_not_found (hp : p.scan.pos ≤ bits.length) (h : (findSync bits (p.scan.pos + 1)).1 = false) :
    bodyChecksum wo bits p = (.noSyncCrc, { p with scan := { pos := bits.length + 1, inv := false } }) := by
  simp only [bodyChecksum, h, findSync_snd_of_false h, Nat.max_eq_right (Nat.succ_le_succ hp)]
  rfl

theorem bodyChecksum_of_lt (h : (findSync bits (p.scan.pos + 1)).1 = true)
    (hlt : bits.length < (findSync bits (p.scan.pos + 1)).2.pos + 16) :
    bodyChecksum wo bits p = (.noCrc, { p with scan := (findSync bits (p.scan.pos + 1)).2.advance 16 }) := by
  simp only [bodyChecksum, h, readWord_ok_of_lt hlt, readWord_scan, Scan.advance_advance]
  rfl

theorem bodyChecksum_of_le (h : (findSync bits (p.scan.pos + 1)).1 = true)
    (hle : (findSync bits (p.scan.pos + 1)).2.pos + 16 ≤ bits.length) :
    bodyChecksum wo bits p = bodyVerdict { p with
      scan := (findSync bits (p.scan.pos + 1)).2.advance 16
      df := { p.df with ckRead := (readWord wo bits (findSync bits (p.scan.pos + 1)).2).value } } := by
  simp only [bodyChecksum, h, readWord_ok_of_le hle, readWord_scan, Scan.advance_advance]
  rfl

theorem bodyVerdict_of_npay {stored : Nat} (h : p.df.npay.toNat = stored) :
    bodyVerdict p = (if p.df.ckRead = checksum (p.pay.bytesBelow stored) then .ok else .badCrc, { p with
      df := { p.df with
        nameKind := if p.df.nameKind = .none then .checksum else p.df.nameKind
        ckCalc := checksum (p.pay.bytesBelow stored) } }) := by
  rw [← h]
  rfl

end

/-! ### The ends of an attempt -/

/-- The block after an attempt that ended as `r` (R206, R216). -/
def attempted (r : DecodeCode × ParState) (s : State) : State :=
  { storePar (r.2.conclude r.1) s with
    resp := answer (outcomeNumber r.1) (r.1 == .ok) r.2.scan.inv 0 r.2.df.npay }

theorem completeAttempt_eq (r : DecodeCode × ParState) (s : State) : completeAttempt r s = .next (attempted r s) := by
  unfold attempted
  rw [outcomeNumber_eq_code]
  exact complete_eq ..

theorem attempted_ends (code : DecodeCode) (q : ParState) (s : State) :
    (attempted (code, q) s).bs.cursor = .onBit q.scan.pos
    ∧ (attempted (code, q) s).df = { q.df with cls := code, attempt := code, save := decide (code = .ok) } := ⟨rfl, rfl⟩

/-- An attempt changes the Bitstream's cursor and flag, `DF`, `PAY` and the response, and nothing else. -/
theorem attempted_frame (r : DecodeCode × ParState) (s : State) :
    attempted r s = { s with
      bs := { s.bs with cursor := (attempted r s).bs.cursor, inv := (attempted r s).bs.inv }
      df := (attempted r s).df
      pay := (attempted r s).pay
      resp := answer (outcomeNumber (attempted r s).df.cls) (attempted r s).df.save (attempted r s).bs.inv 0
        (attempted r s).df.npay } := rfl

/-- The steps of the body tried in order: each split is a test of `BodyEnds`, and the equation for `r` follows it. -/
theorem bodyEnds_attempted {wo : WordOrder} {bits : List Bool} {p : ParState} {r : DecodeCode × ParState}
    (hr : r = body wo bits p) (hp : p.Holds []) (s : State) :
    BodyEnds wo bits p.scan.pos p.scan.inv p.df (attempted r s) := by
  unfold BodyEnds
  intro n base last len stored addressed read second recorded computed ends holds
  split
  · next h =>
    obtain rfl := hr.trans (body_of_lt h)
    exact ⟨attempted_ends .., hp.pay, rfl⟩
  · next h16 =>
    rw [body_of_le (Nat.not_lt.1 h16)] at hr
    split
    · next h =>
      obtain rfl := hr.trans (bodyEnd_of_lt h)
      exact ⟨attempted_ends .., hp.pay, rfl⟩
    · next h32 =>
      replace h32 := Nat.not_lt.1 h32
      split
      · next hneg =>
        obtain rfl := hr.trans (bodyEnd_of_neg h32 rfl hneg)
        exact ⟨attempted_ends .., hp.pay, rfl⟩
      · next hpos =>
        replace hr := hr.trans (bodyEnd_of_not_neg h32 rfl hpos)
        have hq : ((p.withBase base).withEnd last).Holds [] := hp.of_eq rfl rfl
        have hlen : len.toNat < 2 ^ 32 := frameLength_toNat_lt base last
        split
        · next h =>
          have hfew : (n - (p.scan.pos + 32)) / 8 < len.toNat := by omega
          obtain rfl := hr.trans (bodyPayload_of_lt hq hlen hfew)
          exact ⟨attempted_ends .., fun _ => read_payloadFrom_readBytes .., rfl⟩
        · next hpayload =>
          have henough : len.toNat ≤ (n - (p.scan.pos + 32)) / 8 := by omega
          replace hr := hr.trans (bodyPayload_of_le hq hlen henough)
          split
          · next h =>
            obtain rfl := hr.trans (bodyChecksum_of_not_found (Nat.not_lt.1 hpayload) h)
            exact ⟨attempted_ends .., fun _ => read_payloadFrom_readBytes .., rfl⟩
          · next hfound =>
            replace hfound : second.1 = true := Bool.eq_true_of_not_eq_false hfound
            split
            · next h =>
              obtain rfl := hr.trans (bodyChecksum_of_lt hfound h)
              exact ⟨attempted_ends .., fun _ => read_payloadFrom_readBytes .., rfl⟩
            · next h =>
              replace hr := hr.trans (bodyChecksum_of_le hfound (Nat.not_lt.1 h))
              have hstored : (BitVec.ofNat 32 stored).toNat = stored := Nat.mod_eq_of_lt (by omega)
              obtain rfl := hr.trans (bodyVerdict_of_npay hstored)
              exact ⟨attempted_ends .., fun _ => read_payloadFrom_readBytes .., rfl⟩

/-! ### `PAR_RADIO` (R206, R207) -/

section

variable {wo : WordOrder} {bits : List Bool}

/-- A search for the first marker that fails stands one past the end (R207, R216). -/
theorem findSync_zero_of_not_found (h : (findSync bits 0).1 = false) :
    (findSync bits 0).2 = { pos := bits.length + 1, inv := false } := by
  rw [findSync_snd_of_false h, Nat.max_eq_right (Nat.zero_le _)]

theorem radioAttempt_of_not_found (h : (findSync bits 0).1 = false) :
    radioAttempt wo bits = (.noSync, ParState.cleared { pos := bits.length + 1, inv := false }) := by
  simp only [radioAttempt, h, findSync_zero_of_not_found h]
  rfl

theorem radioAttempt_of_found (h : (findSync bits 0).1 = true) :
    radioAttempt wo bits = body wo bits (ParState.cleared (findSync bits 0).2) := by
  simp only [radioAttempt, h]
  rfl

end

/-- Settles O55: the search for the marker, then the ends of the body. -/
theorem radioOutcomes : Obligations.RadioOutcomes := by
  refine ⟨rfl, fun s => ⟨_, completeAttempt_eq .., attempted_frame .., fun h => ?_, fun h => ?_⟩⟩
  · rw [radioAttempt_of_not_found h]
    exact ⟨rfl, rfl, rfl, rfl⟩
  · rw [radioAttempt_of_found h]
    exact bodyEnds_attempted rfl (ParState.holds_cleared _) s

/-! ### `PAR_ORION` (R216 to R219) -/

theorem sanitize_eq_sanitized (v : Byte) : sanitize v = sanitized v := by
  refine if_congr ?_ rfl rfl
  simp only [printable, Bool.or_eq_true, Bool.not_eq_true', Bool.and_eq_false_iff, decide_eq_false_iff_not, Nat.not_le,
    beq_iff_eq, or_assoc]
  rfl

/-- The name of `good` header bytes (R217). -/
def headerName (bits : List Bool) (sc : Scan) (good : Nat) : Vector Byte 8 :=
  Vector.ofFn fun k : Fin 8 => if k.val < good then sanitized (BitVec.ofNat 8 (tapeByte bits sc.inv (sc.pos + 8 * k.val))) else 0

/-- The parser once step 2 of the orion attempt has read `tried` header bytes (R217, R228). -/
def ParState.withHeader (bits : List Bool) (sc : Scan) (tried : Nat) (kind : NameKind) : ParState :=
  { scan := sc.advance (8 * tried)
    df := { DataFile.cleared with name := headerName bits sc (min 8 ((bits.length - sc.pos) / 8)), nameKind := kind }
    pay := [] }

section

variable {wo : WordOrder} {bits : List Bool} {sc : Scan} {p : ParState}

theorem nameLoop_cleared (bits : List Bool) (sc : Scan) :
    nameLoop bits 8 (ParState.cleared sc) = (decide (8 ≤ (bits.length - sc.pos) / 8),
      ParState.withHeader bits sc (min 8 ((bits.length - sc.pos) / 8 + 1)) .none) := by
  obtain ⟨⟨scan, df, pay⟩, good, rfl, heq, hpay, hscan, name, hdf, hname⟩ :=
    nameLoop_eq bits 8 (ParState.cleared sc) (by decide)
  have hhead : name = headerName bits sc (min 8 ((bits.length - sc.pos) / 8)) := by
    refine Vector.ext fun k hk => (hname ⟨k, hk⟩).trans ?_
    rw [headerName, Vector.getElem_ofFn]
    refine if_congr ?_ ?_ ?_
    · rw [Nat.sub_self, Nat.zero_add, and_iff_right (Nat.zero_le _)]
      rfl
    · rw [sanitize_eq_sanitized, hex_eq_tapeByte]
      rfl
    · exact Vector.getElem_replicate ..
  simp only at hpay hscan hdf
  rw [heq, hpay, hscan, hdf, hhead]
  rfl

/-- One of the bytes read is not 0 exactly when one of those windows is not. -/
theorem readBytes_any_ne_zero_iff (n : Nat) :
    (readBytes bits n sc).1.any (fun v => v != 0) = true ↔ ∃ k, k < n ∧ tapeByte bits sc.inv (sc.pos + 8 * k) ≠ 0 := by
  simp only [List.any_eq_true, bne_iff_ne, mem_readBytes, hex_eq_tapeByte]
  constructor
  · rintro ⟨_, ⟨k, hk, rfl⟩, hne⟩
    exact ⟨k, hk, (ofNat_tapeByte_ne_zero_iff ..).1 hne⟩
  · rintro ⟨k, hk, hne⟩
    exact ⟨_, ⟨k, hk, rfl⟩, (ofNat_tapeByte_ne_zero_iff ..).2 hne⟩

theorem orionZeros_of_ne_zero (h : ∃ k, k < 8 ∧ tapeByte bits p.scan.inv (p.scan.pos + 8 * k) ≠ 0) :
    orionZeros wo bits p = (.notOrion, { p with scan := p.scan.advance 64 }) := by
  rw [orionZeros, show Config.zeroBytes = 8 from rfl, readBytes_scan]
  exact if_pos ((readBytes_any_ne_zero_iff 8).2 h)

theorem orionZeros_of_zero (h : ¬ ∃ k, k < 8 ∧ tapeByte bits p.scan.inv (p.scan.pos + 8 * k) ≠ 0) :
    orionZeros wo bits p = body wo bits { p with scan := p.scan.advance 72 } := by
  rw [orionZeros, show Config.zeroBytes = 8 from rfl, readBytes_scan]
  exact if_neg (mt (readBytes_any_ne_zero_iff 8).1 h)

theorem orionAttempt_of_not_found (h : (findSync bits 0).1 = false) :
    orionAttempt wo bits = (.noSync, ParState.cleared { pos := bits.length + 1, inv := false }) := by
  simp only [orionAttempt, h, findSync_zero_of_not_found h]
  rfl

theorem orionAttempt_of_lt (h : (findSync bits 0).1 = true) (hsc : (findSync bits 0).2 = sc) (hlt : bits.length < sc.pos + 64) :
    orionAttempt wo bits
      = (.noHeader, ParState.withHeader bits sc (min 8 ((bits.length - sc.pos) / 8) + 1) .none) := by
  have hshort : (bits.length - sc.pos) / 8 < 8 := by omega
  simp only [orionAttempt, h, hsc, Config.hdrBytes, nameLoop_cleared, decide_eq_false (Nat.not_le.2 hshort),
    Nat.min_eq_right hshort, Nat.min_eq_right hshort.le]
  rfl

theorem orionAttempt_of_le (h : (findSync bits 0).1 = true) (hsc : (findSync bits 0).2 = sc) (hle : sc.pos + 64 ≤ bits.length) :
    orionAttempt wo bits = orionZeros wo bits (ParState.withHeader bits sc 8 .header) := by
  have hfull : 8 ≤ (bits.length - sc.pos) / 8 := by omega
  simp only [orionAttempt, h, hsc, Config.hdrBytes, nameLoop_cleared, decide_eq_true hfull,
    Nat.min_eq_left (Nat.le_succ_of_le hfull)]
  rfl

end

/-- Settles O56: the search for the marker, the name, the zero bytes, then the ends of the body. -/
theorem orionOutcomes : Obligations.OrionOutcomes := by
  refine ⟨rfl, fun s => ⟨_, completeAttempt_eq .., attempted_frame .., fun h => ?_, fun h m inv hsc => ?_⟩⟩
  · rw [orionAttempt_of_not_found h]
    exact ⟨rfl, rfl, rfl, rfl⟩
  · intro good name
    split
    · next hlt =>
      rw [orionAttempt_of_lt h hsc hlt]
      exact ⟨rfl, rfl, rfl, rfl⟩
    · next hle =>
      rw [orionAttempt_of_le h hsc (Nat.not_lt.1 hle)]
      split
      · next hne =>
        rw [orionZeros_of_ne_zero hne]
        exact ⟨rfl, rfl, rfl, rfl⟩
      · next hzero =>
        rw [orionZeros_of_zero hzero]
        exact bodyEnds_attempted (p := { ParState.withHeader s.bs.bits { pos := m, inv := inv } 8 .header with
          scan := { pos := m + 136, inv := inv } }) rfl ⟨rfl, rfl⟩ s

end Sys2Proof.Machine

/-! PROOFS. The segmenter (spec/40_segmenter.md R111 to R120): the sample of a frame and the filter as the statements spell them,
one equation per case of each command, and the samples of a pass counted through its durations. -/

namespace Sys2Proof.Machine

/-! ### Words -/

/-- Format F with `w` = 0: the left sample stands above the right one in `imm` (R86, R87). -/
theorem frameWord_toNat (op : BitVec 8) (l r : Sample) :
    (commandWord op 0 (l ++ r)).toNat = op.toNat * 2 ^ 56 + 0 * 2 ^ 48 + (l.toNat * 2 ^ 16 + r.toNat) := by
  rw [commandWord_toNat, toNat_append_eq_add]
  rfl

theorem encodesAs_segAcc (l r : Sample) : encodesAs (.segAcc l r) 0x11 0 (l.toNat * 2 ^ 16 + r.toNat) :=
  frameWord_toNat 0x11 l r

theorem encodesAs_segSample (l r : Sample) : encodesAs (.segSample l r) 0x12 0 (l.toNat * 2 ^ 16 + r.toNat) :=
  frameWord_toNat 0x12 l r

/-! ### The sample of a frame (R111) and the filter (R116) -/

theorem sampleOperand_isSample {z : Sizes} (hz : z.Legal) (x : Sample) : IsSample z.sampleW x (sampleOperand z x) :=
  ⟨sampleOperand_fits (Nat.le_of_succ_le hz.sample.1) x, sampleOperand_of_fits⟩

/-- Division by the positive 2 rounds toward minus infinity under both spellings. -/
theorem selectSample_eq_selected (c : Channel) (l r : Int) : selectSample c l r = selected c l r := by
  cases c with
  | left => rfl
  | right => rfl
  | both => exact Int.fdiv_eq_ediv_of_nonneg _ (by decide)

theorem frameSample_eq_selected (s : State) (l r : Sample) :
    s.frameSample l r = selected s.cfg.channel (sampleOperand s.sizes l) (sampleOperand s.sizes r) :=
  selectSample_eq_selected ..

theorem smooth_eq_tdiv (cur x : Int) : smooth cur x = (2 * cur + 3 * x).tdiv 5 := rfl

theorem smooth_eq_smoothed (s : State) (x : Int) : smooth s.seg.cur x = smoothed s x := rfl

/-- A quotient truncated toward zero, from above 0: the remainder is that of the floor. -/
theorem tdiv_five_of_nonneg {v : Int} (h : 0 ≤ v) : 5 * v.tdiv 5 ≤ v ∧ v < 5 * v.tdiv 5 + 5 := by
  rw [Int.tdiv_eq_ediv_of_nonneg h]
  omega

/-- From below 0 the quotient is the negated one of `-v`. -/
theorem tdiv_five_of_nonpos {v : Int} (h : v ≤ 0) : 5 * v.tdiv 5 - 5 < v ∧ v ≤ 5 * v.tdiv 5 := by
  have := tdiv_five_of_nonneg (Int.neg_nonneg_of_nonpos h)
  rw [Int.neg_tdiv] at this
  omega

/-- Settles O25: the filter is one division truncated toward zero, which is odd in its dividend. -/
theorem smoothTruncatesTowardZero : Obligations.SmoothTruncatesTowardZero := by
  refine ⟨fun cur x => ?_, by decide⟩
  rw [smooth_eq_tdiv]
  exact ⟨tdiv_five_of_nonneg, tdiv_five_of_nonpos⟩

/-! ### `SEG_RESET` (R112) -/

/-- Settles O23: the segmenter takes its reset value, and the response is that of a completed command. -/
theorem segResetClearsSegmenter : Obligations.SegResetClearsSegmenter :=
  ⟨by decide, fun _ => complete_eq ..⟩

/-! ### `SEG_ACC` (R113, R115) -/

theorem exec_segAcc_of_open {s : State} (ho : s.seg.isOpen = true) (l r : Sample) :
    exec (.segAcc l r) s = .next (s.refusedWith 0x04 0xE2) := by
  dsimp only [exec, execSegAcc]
  rw [if_pos ho]
  exact refuse_eq ..

theorem exec_segAcc_of_full {s : State} (ho : s.seg.isOpen = false) (hn : s.seg.n = 2 ^ s.sizes.cntW - 1) (l r : Sample) :
    exec (.segAcc l r) s = .next (s.refusedWith 0x10 0xE4) := by
  dsimp only [exec, execSegAcc]
  rw [if_neg (Bool.eq_false_iff.1 ho), if_pos ((countFull_iff ..).2 hn)]
  exact refuse_eq ..

theorem exec_segAcc_of_room {s : State} (ho : s.seg.isOpen = false) (hn : s.seg.n ≠ 2 ^ s.sizes.cntW - 1) (l r : Sample) :
    exec (.segAcc l r) s = .next { s with
      seg := { s.seg with n := s.seg.n + 1, sum := s.seg.sum + s.frameSample l r }
      resp := answer 0x80 false s.bs.inv 0 (BitVec.ofNat 32 (s.seg.n + 1)) } := by
  dsimp only [exec, execSegAcc]
  rw [if_neg (Bool.eq_false_iff.1 ho), if_neg (mt (countFull_iff ..).1 hn)]
  exact complete_eq ..

/-- The sum of legal registers fits SEG_SUM_W: `n` samples below the full count reach no further than R13 allows. -/
theorem Seg.Inv.sum_fits {z : Sizes} {g : Seg} (h : g.Inv z) (hz : z.Legal) : fitsSigned z.segSumW g.sum := by
  have hn : (g.n : Int) ≤ 2 ^ z.cntW - 1 := by
    have := h.n
    zify at this
    omega
  have hp : (0 : Int) < 2 ^ (z.sampleW - 1) := by positivity
  have hs : (0 : Int) < 2 ^ (z.segSumW - 1) := by positivity
  have hcap : (2 ^ (z.sampleW - 1) : Int) * (2 ^ z.cntW - 1) ≤ 2 ^ (z.segSumW - 1) := by
    have := hz.segSum
    zify [Nat.one_le_two_pow (n := z.cntW)] at this
    exact this
  have hmul : (2 ^ (z.sampleW - 1) : Int) * g.n ≤ 2 ^ (z.sampleW - 1) * (2 ^ z.cntW - 1) :=
    mul_le_mul_of_nonneg_left hn hp.le
  have hlow := h.sumLow
  have hhigh := h.sumHigh
  refine ⟨by omega, ?_⟩
  rcases Nat.eq_zero_or_pos g.n with h0 | hpos
  · rw [h0, Nat.cast_zero, mul_zero] at hhigh
    exact hhigh.trans_lt hs
  · rw [sub_one_mul] at hhigh
    omega

/-- Settles O24: the three cases of the command; the new registers are legal where the old ones are, so their sum fits. -/
theorem segAccAddsSelectedSample : Obligations.SegAccAddsSelectedSample := by
  intro s l r hz
  refine ⟨encodesAs_segAcc l r, fun ho => exec_segAcc_of_open ho l r, fun ho hn => exec_segAcc_of_full ho hn l r,
    fun ho hn => ⟨_, _, sampleOperand_isSample hz l, sampleOperand_isSample hz r, ?_⟩⟩
  rw [← frameSample_eq_selected]
  exact ⟨exec_segAcc_of_room ho hn l r, fun h => (h.accumulate ho hn (frameSample_fits hz l r)).sum_fits hz⟩

/-! ### `SEG_SAMPLE` (R117, R118) -/

theorem above_iff (g : Seg) (v : Int) : g.above v = true ↔ v * g.n > g.sum := decide_eq_true_iff

/-- R114, R118: a crossing is a change of `Above`. -/
theorem crosses_iff (s : State) (x : Int) : crosses s x ↔ s.seg.above (smoothed s x) ≠ s.seg.above s.seg.cur := by
  rw [crosses, ← above_iff, ← above_iff, ← Bool.eq_iff_iff]

/-- The sides compared as the command compares them. -/
theorem above_bne_iff_crosses (s : State) (x : Int) :
    (s.seg.above (smooth s.seg.cur x) != s.seg.above s.seg.cur) = true ↔ crosses s x := by
  rw [bne_iff_ne, crosses_iff, smooth_eq_smoothed]

/-- What a command that may give a duration answers. -/
theorem completeEmit_eq (emit : Option Nat) (s : State) :
    completeEmit emit s
      = .next { s with resp := answer 0x80 emit.isSome s.bs.inv 0 (BitVec.ofNat 32 (emit.getD 0)) } := by
  cases emit with
  | none => exact complete_eq ..
  | some d => exact complete_eq ..

theorem exec_segSample_of_no_mean {s : State} (hn : s.seg.n = 0) (l r : Sample) :
    exec (.segSample l r) s = .next (s.refusedWith 0x04 0xE2) := by
  dsimp only [exec, execSegSample]
  rw [if_pos hn]
  exact refuse_eq ..

theorem exec_segSample_of_closed {s : State} (hn : s.seg.n ≠ 0) (ho : s.seg.isOpen = false) (l r : Sample) :
    exec (.segSample l r) s = .next { s with
      seg := { s.seg with isOpen := true, run := 1, cur := smoothed s (s.frameSample l r) }
      resp := answer 0x80 false s.bs.inv 0 0 } := by
  dsimp only [exec, execSegSample]
  rw [if_neg hn, if_pos (by rw [ho]; rfl)]
  exact completeEmit_eq ..

theorem exec_segSample_of_crosses {s : State} {l r : Sample} (hn : s.seg.n ≠ 0) (ho : s.seg.isOpen = true)
    (hc : crosses s (s.frameSample l r)) :
    exec (.segSample l r) s = .next { s with
      seg := { s.seg with run := 1, cur := smoothed s (s.frameSample l r) }
      resp := answer 0x80 true s.bs.inv 0 (BitVec.ofNat 32 s.seg.run) } := by
  dsimp only [exec, execSegSample]
  rw [if_neg hn, if_neg (by rw [ho]; decide), if_pos ((above_bne_iff_crosses ..).2 hc)]
  exact completeEmit_eq ..

theorem exec_segSample_of_room {s : State} {l r : Sample} (hn : s.seg.n ≠ 0) (ho : s.seg.isOpen = true)
    (hc : ¬ crosses s (s.frameSample l r)) (hr : s.seg.run ≠ 2 ^ s.sizes.durW - 1) :
    exec (.segSample l r) s = .next { s with
      seg := { s.seg with run := s.seg.run + 1, cur := smoothed s (s.frameSample l r) }
      resp := answer 0x80 false s.bs.inv 0 0 } := by
  dsimp only [exec, execSegSample]
  rw [if_neg hn, if_neg (by rw [ho]; decide), if_neg (mt (above_bne_iff_crosses ..).1 hc), if_neg (mt (countFull_iff ..).1 hr)]
  exact completeEmit_eq ..

theorem exec_segSample_of_full {s : State} {l r : Sample} (hn : s.seg.n ≠ 0) (ho : s.seg.isOpen = true)
    (hc : ¬ crosses s (s.frameSample l r)) (hr : s.seg.run = 2 ^ s.sizes.durW - 1) :
    exec (.segSample l r) s = .next (s.refusedWith 0x10 0xE4) := by
  dsimp only [exec, execSegSample]
  rw [if_neg hn, if_neg (by rw [ho]; decide), if_neg (mt (above_bne_iff_crosses ..).1 hc), if_pos ((countFull_iff ..).2 hr)]
  exact refuse_eq ..

/-- Settles O26: the five cases of the command, the sample being the selected one of the frame's operands. -/
theorem segSampleEmitsAtCrossings : Obligations.SegSampleEmitsAtCrossings := by
  intro s l r hz
  exact ⟨encodesAs_segSample l r, fun hn => exec_segSample_of_no_mean hn l r, fun hn =>
    ⟨_, _, s.frameSample l r, sampleOperand_isSample hz l, sampleOperand_isSample hz r, frameSample_eq_selected s l r,
      fun ho => exec_segSample_of_closed hn ho l r, exec_segSample_of_crosses hn, exec_segSample_of_room hn,
      exec_segSample_of_full hn⟩⟩

/-! ### `SEG_FLUSH` (R120) -/

/-- The samples of the open run; none where no run is open, whatever `SEG.run` holds. -/
def Seg.openRun (g : Seg) : Nat := if g.isOpen then g.run else 0

theorem Seg.openRun_of_open {g : Seg} (h : g.isOpen = true) : g.openRun = g.run := if_pos h

theorem Seg.openRun_of_closed {g : Seg} (h : g.isOpen = false) : g.openRun = 0 := if_neg (Bool.eq_false_iff.1 h)

theorem exec_segFlush (s : State) : exec .segFlush s = .next { s with
    seg := { s.seg with isOpen := false, run := 0, cur := 0 }
    resp := answer 0x80 s.seg.isOpen s.bs.inv 0 (BitVec.ofNat 32 s.seg.openRun) } := by
  dsimp only [exec, execSegFlush]
  rw [completeEmit_eq]
  cases ho : s.seg.isOpen with
  | true => rw [Seg.openRun_of_open ho]; rfl
  | false => rw [Seg.openRun_of_closed ho]; rfl

/-- Settles O27: the duration given is the open run, if any. -/
theorem segFlushEmitsOpenRun : Obligations.SegFlushEmitsOpenRun := ⟨by decide, exec_segFlush⟩

/-! ### The durations of a pass (R119) -/

theorem emitted_of_resp_true {t : State} {st : BitVec 8} {inv : Bool} {aux : BitVec 16} {d : Nat} (hd : d < 2 ^ 32)
    (h : t.resp = answer st true inv aux (BitVec.ofNat 32 d)) : emitted t = d := by
  rw [emitted, resultBit_of_resp h, if_pos rfl, resultVal_of_resp h, BitVec.toNat_ofNat, Nat.mod_eq_of_lt hd]

theorem emitted_of_resp_false {t : State} {st : BitVec 8} {inv : Bool} {aux : BitVec 16} {val : BitVec 32}
    (h : t.resp = answer st false inv aux val) : emitted t = 0 := by
  rw [emitted, resultBit_of_resp h, if_neg Bool.false_ne_true]

/-- From `s` to `t` one sample was taken and no fault raised: it stands in the open run or has left in a duration. -/
structure CountsOneSample (s t : State) : Prop where
  sizes : t.sizes = s.sizes
  mean : t.seg.n = s.seg.n
  fault : t.sysFault = s.sysFault
  counted : emitted t + t.seg.openRun = s.seg.openRun + 1

/-- R119: while the open run has room, `SEG_SAMPLE` loses no sample and counts none twice. -/
theorem exec_segSample_counts {s : State} (hw : s.sizes.durW ≤ 32) (hn : s.seg.n ≠ 0)
    (hrun : s.seg.openRun + 1 < 2 ^ s.sizes.durW) (l r : Sample) :
    ∃ t, exec (.segSample l r) s = .next t ∧ CountsOneSample s t := by
  cases ho : s.seg.isOpen with
  | false =>
    refine ⟨_, exec_segSample_of_closed hn ho l r, rfl, rfl, rfl, ?_⟩
    rw [emitted_of_resp_false rfl, Seg.openRun_of_closed ho]
    rfl
  | true =>
    rw [Seg.openRun_of_open ho] at hrun
    by_cases hc : crosses s (s.frameSample l r)
    · have hd : s.seg.run < 2 ^ 32 := (Nat.lt_of_succ_lt hrun).trans_le (Nat.pow_le_pow_right (by decide) hw)
      refine ⟨_, exec_segSample_of_crosses hn ho hc, rfl, rfl, rfl, ?_⟩
      rw [emitted_of_resp_true hd rfl, Seg.openRun_of_open (g := s.seg) ho]
      exact congrArg (s.seg.run + ·) (Seg.openRun_of_open ho)
    · refine ⟨_, exec_segSample_of_room hn ho hc (by omega), rfl, rfl, rfl, ?_⟩
      rw [emitted_of_resp_false rfl, Seg.openRun_of_open (g := s.seg) ho]
      exact (Nat.zero_add _).trans (Seg.openRun_of_open ho)

theorem samplePass_cons_of_next {l r : Sample} {s t : State} (h : exec (.segSample l r) s = .next t)
    (frames : List (Sample × Sample)) :
    samplePass ((l, r) :: frames) s = ((samplePass frames t).1, emitted t + (samplePass frames t).2) := by
  rw [samplePass, h]

/-- `SEG_FLUSH` gives every sample of the open run. -/
theorem exec_segFlush_emits {s : State} (hrun : s.seg.openRun < 2 ^ 32) :
    ∃ t, exec .segFlush s = .next t ∧ emitted t = s.seg.openRun ∧ t.sysFault = s.sysFault := by
  refine ⟨_, exec_segFlush s, ?_, rfl⟩
  cases ho : s.seg.isOpen with
  | true => exact emitted_of_resp_true hrun rfl
  | false => rw [emitted_of_resp_false rfl, Seg.openRun_of_closed ho]

/-- A pass that begins with a run already open: the durations sum to that run and the frames. -/
theorem samplePass_flush_sum (frames : List (Sample × Sample)) {s : State} (hw : s.sizes.durW ≤ 32) (hn : s.seg.n ≠ 0)
    (hlen : s.seg.openRun + frames.length < 2 ^ s.sizes.durW) :
    ∃ t, exec .segFlush (samplePass frames s).1 = .next t
      ∧ (samplePass frames s).2 + emitted t = s.seg.openRun + frames.length
      ∧ t.sysFault = s.sysFault := by
  induction frames generalizing s with
  | nil =>
    obtain ⟨t, ht, hemit, hfault⟩ := exec_segFlush_emits (hlen.trans_le (Nat.pow_le_pow_right (by decide) hw))
    exact ⟨t, ht, (Nat.zero_add _).trans hemit, hfault⟩
  | cons frame frames ih =>
    obtain ⟨l, r⟩ := frame
    rw [List.length_cons] at hlen ⊢
    obtain ⟨u, hu, hsizes, hmean, hfault, hcount⟩ := exec_segSample_counts hw hn (by omega) l r
    rw [samplePass_cons_of_next hu]
    obtain ⟨t, ht, hsum, hfault'⟩ := ih (s := u) (by rwa [hsizes]) (by rwa [hmean]) (by rw [hsizes]; omega)
    exact ⟨t, ht, by omega, hfault'.trans hfault⟩

/-- Settles O28: a pass from no open run, by induction over its frames with the open run's samples counted. -/
theorem durationsSumToSamples : Obligations.DurationsSumToSamples := by
  intro frames s hw ho hn hlen
  have h0 := Seg.openRun_of_closed ho
  obtain ⟨t, ht, hsum, hfault⟩ := samplePass_flush_sum frames hw hn (by omega)
  exact ⟨t, ht, by omega, hfault⟩

end Sys2Proof.Machine

/-! PROOFS. The demodulator (spec/41_demodulator.md R131 to R153): the tolerance test over the rationals, one equation per case of
each phase, and the runs of `PUSH_DUR` of the calibration and of the crafted sequence. -/

namespace Sys2Proof.Machine

/-! ### The tolerance test (R131 to R134) -/

theorem check_of_sum_eq_zero {st : Stats} (h : st.sum = 0) (delta : BitVec 7) (d : Nat) (width : Int) :
    check st delta d width = false := by
  rw [Bool.eq_false_iff, Ne, check_iff, h, Nat.cast_zero, mul_zero, mul_zero]
  exact fun ⟨hlow, hhigh⟩ => lt_asymm hlow hhigh

/-- The test of R132 divided by `100 * count` is the band of R131. -/
theorem check_iff_band {st : Stats} (h : st.count ≠ 0) (delta : BitVec 7) (d : Nat) (width : Int) :
    check st delta d width = true ↔
      ((width : ℚ) - delta.toNat / 100) * (st.sum / st.count) < d
      ∧ (d : ℚ) < (width + delta.toNat / 100) * (st.sum / st.count) := by
  have hden : (0 : ℚ) < 100 * st.count := by positivity
  have hlow : (width : ℚ) - delta.toNat / 100 = (100 * width - delta.toNat) / 100 := by ring
  have hhigh : (width : ℚ) + delta.toNat / 100 = (100 * width + delta.toNat) / 100 := by ring
  have hmid : (d : ℚ) * (100 * st.count) = 100 * d * st.count := by ring
  rw [check_iff, hlow, hhigh, div_mul_div_comm, div_mul_div_comm, div_lt_iff₀ hden, lt_div_iff₀ hden, hmid]
  exact_mod_cast Iff.rfl

/-- Settles O31: both bounds are multiplied by `100 * count`; over a sum of 0 they are both 0. -/
theorem toleranceBandIsOpenAndExact : Obligations.ToleranceBandIsOpenAndExact :=
  fun _ delta d width _ => ⟨fun hc => check_iff_band hc delta d width, fun hs => check_of_sum_eq_zero hs delta d width⟩

/-- The mean of identical non-zero durations is that duration, which is inside its own band. -/
theorem check_of_identical {st : Stats} {d : Nat} (hsum : st.sum = st.count * d) (hc : st.count ≠ 0) (hd : d ≠ 0)
    {delta : BitVec 7} (hdelta : 1 ≤ delta.toNat) : check st delta d 1 = true := by
  have hpos : (0 : Int) < delta.toNat * (st.count * d) := by positivity
  rw [check_iff, hsum]
  push_cast
  constructor <;> linarith

/-! ### The operand -/

theorem durationOperand_isDuration (z : Sizes) (field : Duration) : IsDuration z.durW field (durationOperand z field) :=
  ⟨durationOperand_lt z field, durationOperand_of_lt⟩

/-! ### `DEM_REARM` (R137) -/

theorem exec_demRearm (s : State) : exec .demRearm s = .next { s with
    dem := Dem.reset, stS := Stats.empty, stL := Stats.empty, bs := Bitstream.empty, resp := answer 0x80 false false 0 0 } :=
  complete_eq ..

/-- Settles O29: the reset values written out. -/
theorem demRearmBeginsCycle : Obligations.DemRearmBeginsCycle := ⟨by decide, exec_demRearm⟩

/-! ### `PUSH_DUR` by phase (R138, R152) -/

theorem exec_pushDur_of_lost {s : State} (hp : s.dem.phase = .lost) (d : Duration) :
    exec (.pushDur d) s = .next (s.refusedWith 0x04 0xE2) := by
  dsimp only [exec, execPushDur]
  rw [hp]
  exact refuse_eq ..

theorem exec_pushDur_of_calib {s : State} (hp : s.dem.phase = .calib) (d : Duration) :
    exec (.pushDur d) s = addTone (durationOperand s.sizes d) s := by
  dsimp only [exec, execPushDur]
  rw [hp]

theorem exec_pushDur_of_decode {s : State} (hp : s.dem.phase = .decode) (d : Duration) :
    exec (.pushDur d) s = addDuration (durationOperand s.sizes d) s := by
  dsimp only [exec, execPushDur]
  rw [hp]

theorem completePush_eq (c : DemCode) (before : Nat) (s : State) :
    completePush c before s = .next { s with
      resp := answer c.code (decide (before < s.bs.bits.length)) s.bs.inv 0 (BitVec.ofNat 32 s.bs.bits.length) } :=
  complete_eq ..

/-- A command that appends nothing answers `b` = 0. -/
theorem completePush_same_length (c : DemCode) (s : State) :
    completePush c s.bs.bits.length s = .next { s with
      resp := answer c.code false s.bs.inv 0 (BitVec.ofNat 32 s.bs.bits.length) } := by
  rw [completePush_eq, decide_eq_false (lt_irrefl _)]

/-! ### Phase `CALIB` (R139, R140) -/

/-- The end of every duration of the calibration: it completes once the count exceeds `CFG.tone_len` (R140). -/
theorem finishTone_eq (s : State) : finishTone s = .next { s with
    dem := if s.cfg.toneLen < s.stS.count then { phase := .decode, fsm := .unknown, curBit := s.dem.curBit } else s.dem
    resp := answer (if s.cfg.toneLen < s.stS.count then 0x31 else 0x30) false s.bs.inv 0
      (BitVec.ofNat 32 s.bs.bits.length) } := by
  unfold finishTone
  split <;> exact completePush_same_length ..

theorem addTone_of_full {s : State} {d : Nat} (hb : check s.stS s.cfg.deltaPct d 1 = true)
    (hc : s.stS.count = 2 ^ s.sizes.cntW - 1) : addTone d s = .next (s.refusedWith 0x10 0xE4) := by
  rw [addTone, if_pos hb, if_pos ((countFull_iff ..).2 hc)]
  exact refuse_eq ..

theorem addTone_of_inBand {s : State} {d : Nat} (hb : check s.stS s.cfg.deltaPct d 1 = true)
    (hc : s.stS.count ≠ 2 ^ s.sizes.cntW - 1) :
    addTone d s = finishTone { s with stS := s.stS.fold s.sizes.histBins d } := by
  rw [addTone, if_pos hb, if_neg (mt (countFull_iff ..).1 hc)]

theorem addTone_of_outOfBand {s : State} {d : Nat} (hb : check s.stS s.cfg.deltaPct d 1 = false) :
    addTone d s = finishTone { s with stS := Stats.empty.fold s.sizes.histBins d, stL := Stats.empty } := by
  rw [addTone, if_neg (Bool.eq_false_iff.1 hb)]

/-- Settles O33: the duration is the operand's; inside the band the aggregate is folded or full, outside it restarts. -/
theorem calibrationFoldsOrRestarts : Obligations.CalibrationFoldsOrRestarts := by
  intro s field hp
  refine ⟨_, durationOperand_isDuration s.sizes field, ?_⟩
  rw [exec_pushDur_of_calib hp]
  refine ⟨addTone_of_full, fun hroom => ?_⟩
  cases hb : check s.stS s.cfg.deltaPct (durationOperand s.sizes field) 1 with
  | true =>
    have hc := hroom.resolve_left (by rw [hb]; nofun)
    rw [addTone_of_inBand hb hc, finishTone_eq]
    rfl
  | false =>
    rw [addTone_of_outOfBand hb, finishTone_eq]
    rfl

/-! ### The runs of the calibration (R140) -/

theorem pushAll_cons_of_next {d : Duration} {s t : State} (h : exec (.pushDur d) s = .next t) (ds : List Duration) :
    pushAll (d :: ds) s = pushAll ds t := by
  rw [pushAll, h]

/-- `PUSH_DUR` never stops, so a list of durations is pushed part by part. -/
theorem pushAll_append (ds es : List Duration) (s : State) : pushAll (ds ++ es) s = pushAll es (pushAll ds s) := by
  induction ds generalizing s with
  | nil => rfl
  | cons d ds ih =>
    obtain ⟨t, ht⟩ := (execPushDur_ends d s).exists_next
    rw [List.cons_append, pushAll_cons_of_next ht, pushAll_cons_of_next ht, ih]

/-- `t` is in phase `CALIB` under the sizes and the configuration of `s`, and `ST[S]` has counted `n` durations `d`. -/
structure HoldsTone (s : State) (d n : Nat) (t : State) : Prop where
  sizes : t.sizes = s.sizes
  cfg : t.cfg = s.cfg
  phase : t.dem.phase = .calib
  count : t.stS.count = n
  sum : t.stS.sum = n * d

theorem holdsTone_of_empty {s : State} (hp : s.dem.phase = .calib) (hst : s.stS = Stats.empty) (d : Nat) :
    HoldsTone s d 0 s := by
  refine ⟨rfl, rfl, hp, ?_, ?_⟩ <;> rw [hst]
  · rfl
  · exact (Nat.zero_mul d).symm

/-- One more identical duration counts as one more: an empty aggregate restarts with it, a filled one holds it inside the band. -/
theorem HoldsTone.push {s t : State} {d : Duration} {n : Nat} (h : HoldsTone s d.toNat n t) (hd : d ≠ 0)
    (hfit : d.toNat < 2 ^ s.sizes.durW) (hdelta : 1 ≤ s.cfg.deltaPct.toNat) (hroom : n ≠ 2 ^ s.sizes.cntW - 1) :
    ∃ u : State, exec (.pushDur d) t = finishTone u ∧ HoldsTone s d.toNat (n + 1) u := by
  obtain ⟨hsizes, hcfg, hphase, hcount, hsum⟩ := h
  rw [exec_pushDur_of_calib hphase, durationOperand_of_lt (by rwa [hsizes])]
  rcases Nat.eq_zero_or_pos n with rfl | hn
  · refine ⟨_, addTone_of_outOfBand (check_of_sum_eq_zero (by rw [hsum, Nat.zero_mul]) ..), hsizes, hcfg, hphase, rfl, ?_⟩
    exact (Nat.zero_add _).trans (Nat.one_mul _).symm
  · have hband : check t.stS t.cfg.deltaPct d.toNat 1 = true :=
      check_of_identical (by rw [hsum, hcount]) (by omega) (fun h0 => hd (BitVec.eq_of_toNat_eq h0)) (by rwa [hcfg])
    refine ⟨_, addTone_of_inBand hband (by rwa [hcount, hsizes]), hsizes, hcfg, hphase, congrArg (· + 1) hcount, ?_⟩
    rw [Stats.fold_sum, hsum, Nat.succ_mul]

/-- The calibration goes on while the count is at most `CFG.tone_len`. -/
theorem HoldsTone.finishTone_continues {s t : State} {d n : Nat} (h : HoldsTone s d n t) (hn : n ≤ s.cfg.toneLen) :
    ∃ u, finishTone t = .next u ∧ HoldsTone s d n u := by
  have hlen : ¬ t.cfg.toneLen < t.stS.count := by
    rw [h.cfg, h.count]
    exact Nat.not_lt.2 hn
  refine ⟨_, finishTone_eq t, h.sizes, h.cfg, ?_, h.count, h.sum⟩
  rw [if_neg hlen]
  exact h.phase

/-- `k` more identical durations, counted one by one. -/
theorem HoldsTone.pushAll_replicate {s t : State} {d : Duration} {n k : Nat} (h : HoldsTone s d.toNat n t) (hd : d ≠ 0)
    (hfit : d.toNat < 2 ^ s.sizes.durW) (hdelta : 1 ≤ s.cfg.deltaPct.toNat) (hlen : n + k ≤ s.cfg.toneLen)
    (hroom : n + k < 2 ^ s.sizes.cntW) : HoldsTone s d.toNat (n + k) (pushAll (List.replicate k d) t) := by
  induction k generalizing n t with
  | zero => exact h
  | succ k ih =>
    obtain ⟨u, hpush, hu⟩ := h.push hd hfit hdelta (by omega)
    obtain ⟨v, hfin, hv⟩ := hu.finishTone_continues (by omega)
    rw [List.replicate_succ, pushAll_cons_of_next (hpush.trans hfin), ← Nat.succ_add_eq_add_succ]
    exact ih hv (by omega) (by omega)

/-- One duration more than `CFG.tone_len` completes the calibration. -/
theorem HoldsTone.push_completes {s t : State} {d : Duration} (h : HoldsTone s d.toNat s.cfg.toneLen t) (hd : d ≠ 0)
    (hfit : d.toNat < 2 ^ s.sizes.durW) (hdelta : 1 ≤ s.cfg.deltaPct.toNat) (hroom : s.cfg.toneLen < 2 ^ s.sizes.cntW - 1) :
    (pushAll [d] t).dem.phase = .decode ∧ (pushAll [d] t).dem.fsm = .unknown ∧ (pushAll [d] t).statusByte = 0x31 := by
  obtain ⟨u, hpush, hu⟩ := h.push hd hfit hdelta hroom.ne
  have hlen : u.cfg.toneLen < u.stS.count := by
    rw [hu.cfg, hu.count]
    exact Nat.lt_succ_self _
  have hnext := hpush.trans (finishTone_eq u)
  rw [if_pos hlen, if_pos hlen] at hnext
  rw [pushAll_cons_of_next hnext]
  exact ⟨rfl, rfl, statusByte_of_resp rfl⟩

/-- A duration outside the band restarts the calibration, which a count of 1 does not complete. -/
theorem exec_pushDur_restarts {s : State} {d : Duration} (hp : s.dem.phase = .calib) (htone : 1 ≤ s.cfg.toneLen)
    (hb : check s.stS s.cfg.deltaPct (durationOperand s.sizes d) 1 = false) :
    exec (.pushDur d) s = .next { s with
      stS := Stats.empty.fold s.sizes.histBins (durationOperand s.sizes d)
      stL := Stats.empty
      resp := answer 0x30 false s.bs.inv 0 (BitVec.ofNat 32 s.bs.bits.length) } := by
  have hlen : ¬ s.cfg.toneLen < (Stats.empty.fold s.sizes.histBins (durationOperand s.sizes d)).count := Nat.not_lt.2 htone
  rw [exec_pushDur_of_calib hp, addTone_of_outOfBand hb, finishTone_eq, if_neg hlen, if_neg hlen]

/-- Durations outside the band of `ST[S]` and then each of the one before restart the calibration every time. -/
theorem pushAll_unfitting (ds : List Duration) {s : State} (hp : s.dem.phase = .calib) (htone : 1 ≤ s.cfg.toneLen)
    (hcount : s.stS.count ≤ 1) (hfit : ∀ d ∈ ds, d.toNat < 2 ^ s.sizes.durW)
    (hfirst : ∀ d ∈ ds.head?, check s.stS s.cfg.deltaPct d.toNat 1 = false)
    (hchain : ds.IsChain fun a b => check (Stats.empty.fold s.sizes.histBins a.toNat) s.cfg.deltaPct b.toNat 1 = false) :
    (pushAll ds s).dem.phase = .calib ∧ (pushAll ds s).stS.count ≤ 1 := by
  induction ds generalizing s with
  | nil => exact ⟨hp, hcount⟩
  | cons d ds ih =>
    obtain ⟨hnext, htail⟩ := List.isChain_cons.1 hchain
    obtain ⟨hd, hds⟩ := List.forall_mem_cons.1 hfit
    have hop : durationOperand s.sizes d = d.toNat := durationOperand_of_lt hd
    rw [pushAll_cons_of_next (exec_pushDur_restarts hp htone (by rw [hop]; exact hfirst d rfl)), hop]
    exact ih hp htone le_rfl hds hnext htail

/-- Settles O34: the aggregate counts identical durations one by one, and holds one duration after every unfitting one. -/
theorem calibrationConvergesExactly : Obligations.CalibrationConvergesExactly := by
  intro s _ hcfg hp hst
  refine ⟨fun d k hd hfit hlen hroom => ?_, fun d hd hfit hroom => ?_, fun ds hfit hchain => ?_⟩
  · have h := (holdsTone_of_empty hp hst d.toNat).pushAll_replicate (k := k) hd hfit hcfg.delta.1 (by omega) (by omega)
    exact ⟨h.phase, h.count.trans (Nat.zero_add k)⟩
  · have h := (holdsTone_of_empty hp hst d.toNat).pushAll_replicate (k := s.cfg.toneLen) hd hfit hcfg.delta.1 (by omega)
      (by omega)
    rw [Nat.zero_add] at h
    rw [List.replicate_succ', pushAll_append]
    exact h.push_completes hd hfit hcfg.delta.1 hroom
  · exact pushAll_unfitting ds hp hcfg.tone.1 (by rw [hst]; exact Nat.zero_le 1) hfit
      (fun d _ => check_of_sum_eq_zero (by rw [hst]; rfl) ..) hchain

/-! ### Phase `LOST` (R152) -/

/-- Settles O30: re-armed, the statistics are empty and the duration restarts the calibration, whatever the operand field holds. -/
theorem lostToneRefusesUntilRearm : Obligations.LostToneRefusesUntilRearm :=
  fun s d hp => ⟨exec_pushDur_of_lost hp d, fun hcfg => ⟨_, _, exec_demRearm s,
    exec_pushDur_restarts rfl hcfg.tone.1 (check_of_sum_eq_zero rfl ..), statusByte_of_resp rfl⟩⟩

/-! ### Phase `DECODE` (R141 to R151) -/

theorem exec_pushDur_of_neither {s : State} {field : Duration} (hp : s.dem.phase = .decode)
    (hshort : check s.stS s.cfg.deltaPct (durationOperand s.sizes field) 1 = false)
    (hlong : check s.stS s.cfg.deltaPct (durationOperand s.sizes field) 2 = false) :
    exec (.pushDur field) s = .next { s with
      dem := { s.dem with phase := .lost, fsm := s.dem.fsm.absorb }
      resp := answer 0x36 false s.bs.inv 0 (BitVec.ofNat 32 s.bs.bits.length) } := by
  have hclass : classifyPulse s.stS s.cfg.deltaPct (durationOperand s.sizes field) = .neither := by
    rw [classifyPulse, if_neg (Bool.eq_false_iff.1 hshort), if_neg (Bool.eq_false_iff.1 hlong)]
  rw [exec_pushDur_of_decode hp, addDuration, hclass]
  exact completePush_same_length ..

theorem Fsm.absorb_eq_ite (f : Fsm) : f.absorb = if f = .modulError then .full else f := by cases f <;> rfl

/-- Settles O37: the machine's state is kept but for `modul_error`. -/
theorem neitherBandLosesTone : Obligations.NeitherBandLosesTone := by
  intro s field hp
  refine ⟨_, durationOperand_isDuration s.sizes field, fun hshort hlong => ?_⟩
  rw [exec_pushDur_of_neither hp hshort hlong, Fsm.absorb_eq_ite]

/-- A row of the statements' table as a transition of the model. -/
def tableTransition (f : Fsm) (cur long : Bool) : Transition :=
  ⟨(bitMachine f cur long).1, (bitMachine f cur long).2.1, (bitMachine f cur long).2.2⟩

theorem shortTransition_eq_table (f : Fsm) (cur : Bool) : shortTransition f cur = tableTransition f cur false := by
  cases f <;> rfl

theorem longTransition_eq_table (f : Fsm) (cur : Bool) : longTransition f cur = tableTransition f cur true := by
  cases f <;> rfl

theorem Fsm.outcome_code (f : Fsm) : f.outcome.code = machineCode f := by cases f <;> rfl

/-- The aggregate of a class. -/
def State.statsOf (s : State) (long : Bool) : Stats := if long then s.stL else s.stS

/-- `s` with a duration folded into the aggregate of its class (R143). -/
def State.foldInto (s : State) (long : Bool) (d : Nat) : State :=
  { s with
    stS := if long then s.stS else s.stS.fold s.sizes.histBins d
    stL := if long then s.stL.fold s.sizes.histBins d else s.stL }

/-- A classified duration: the full count first, then the full bit memory, then the transition of the table (R141, R270). -/
theorem addDuration_of_classifiedAs {s : State} {d : Nat} {long : Bool} (h : ClassifiedAs s d long) :
    addDuration d s =
      if countFull s.sizes.cntW (s.statsOf long).count then refuse .statOvf s
      else if !s.bs.fits s.sizes.bsCap (tableTransition s.dem.fsm s.dem.curBit long).new.length then refuse .bsFull s
      else takeTransition (tableTransition s.dem.fsm s.dem.curBit long) (s.foldInto long d) := by
  cases long with
  | false =>
    have hshort : check s.stS s.cfg.deltaPct d 1 = true := h
    have hclass : classifyPulse s.stS s.cfg.deltaPct d = .short := by rw [classifyPulse, if_pos hshort]
    rw [addDuration, hclass, ← shortTransition_eq_table]
    rfl
  | true =>
    obtain ⟨hshort, hlong⟩ : check s.stS s.cfg.deltaPct d 1 = false ∧ check s.stS s.cfg.deltaPct d 2 = true := h
    have hclass : classifyPulse s.stS s.cfg.deltaPct d = .long := by
      rw [classifyPulse, if_neg (Bool.eq_false_iff.1 hshort), if_pos hlong]
    rw [addDuration, hclass, ← longTransition_eq_table]
    rfl

/-- A transition taken: `b` = 1 exactly when bits were appended (R138). -/
theorem takeTransition_eq (t : Transition) (s : State) : takeTransition t s = .next { s with
    dem := { s.dem with fsm := t.fsm, curBit := t.curBit }
    bs := s.bs.append t.new
    resp := answer (machineCode t.fsm) (decide (t.new ≠ [])) s.bs.inv 0
      (BitVec.ofNat 32 (s.bs.bits.length + t.new.length)) } := by
  have hgrew : s.bs.bits.length < (s.bs.append t.new).bits.length ↔ t.new ≠ [] := by
    rw [Bitstream.append_bits, List.length_append, Nat.lt_add_right_iff_pos, List.length_pos_iff]
  rw [takeTransition, completePush_eq, decide_eq_decide.2 hgrew, ← Fsm.outcome_code, ← List.length_append]
  rfl

section
variable {s : State} {d : Nat} {long : Bool}

theorem addDuration_of_full (h : ClassifiedAs s d long) (hc : (s.statsOf long).count = 2 ^ s.sizes.cntW - 1) :
    addDuration d s = .next (s.refusedWith 0x10 0xE4) := by
  rw [addDuration_of_classifiedAs h, if_pos ((countFull_iff ..).2 hc)]
  exact refuse_eq ..

theorem addDuration_of_no_room (h : ClassifiedAs s d long) (hc : (s.statsOf long).count ≠ 2 ^ s.sizes.cntW - 1)
    (hb : s.sizes.bsCap < s.bs.bits.length + (bitMachine s.dem.fsm s.dem.curBit long).2.2.length) :
    addDuration d s = .next (s.refusedWith 0x08 0xE3) := by
  have hfit : s.bs.fits s.sizes.bsCap (tableTransition s.dem.fsm s.dem.curBit long).new.length = false :=
    decide_eq_false (Nat.not_le.2 hb)
  rw [addDuration_of_classifiedAs h, if_neg (mt (countFull_iff ..).1 hc), hfit]
  exact refuse_eq ..

theorem addDuration_of_room (h : ClassifiedAs s d long) (hc : (s.statsOf long).count ≠ 2 ^ s.sizes.cntW - 1)
    (hb : s.bs.bits.length + (bitMachine s.dem.fsm s.dem.curBit long).2.2.length ≤ s.sizes.bsCap) :
    addDuration d s = takeTransition (tableTransition s.dem.fsm s.dem.curBit long) (s.foldInto long d) := by
  have hfit : s.bs.fits s.sizes.bsCap (tableTransition s.dem.fsm s.dem.curBit long).new.length = true := decide_eq_true hb
  rw [addDuration_of_classifiedAs h, if_neg (mt (countFull_iff ..).1 hc), hfit]
  rfl

end

/-- Every row of the table, from every state of the machine. -/
theorem followsBitMachine (s : State) (field : Duration) (long : Bool) : FollowsBitMachine s field long := by
  intro hp
  refine ⟨_, durationOperand_isDuration s.sizes field, fun h hc hb => ?_⟩
  rw [exec_pushDur_of_decode hp, addDuration_of_room h hc hb, takeTransition_eq, ← hp]
  rfl

/-- Settles O35: the rows that the source states are rows of the table. -/
theorem decodePhaseFollowsTable : Obligations.DecodePhaseFollowsTable := fun s d long _ => followsBitMachine s d long

/-- Settles O36: the rows that the spec infers are rows of the same table. -/
theorem leadInGoesOnAndErrorResyncs : Obligations.LeadInGoesOnAndErrorResyncs := fun s d long _ => followsBitMachine s d long

/-- Settles O38: the full count is tested before the capacity. -/
theorem decodePhaseRefusals : Obligations.DecodePhaseRefusals := by
  intro s field long hp
  refine ⟨_, durationOperand_isDuration s.sizes field, fun h => ?_⟩
  rw [exec_pushDur_of_decode hp]
  exact ⟨addDuration_of_full h, addDuration_of_no_room h⟩

/-! ### The crafted sequence (R153) -/

/-- Phase `DECODE` with the machine in state `f` and current bit `cur`, the sizes being `z`. -/
structure MachineAt (z : Sizes) (f : Fsm) (cur : Bool) (s : State) : Prop where
  sizes : s.sizes = z
  dem : s.dem = { phase := .decode, fsm := f, curBit := cur }

/-- A classified duration that no fault refuses takes its row of the table. -/
theorem MachineAt.push {z : Sizes} {f : Fsm} {cur long : Bool} {s t : State} {d : Duration} (h : MachineAt z f cur s)
    (hfit : d.toNat < 2 ^ z.durW) (hclass : ClassifiedAs s d.toNat long) (ht : exec (.pushDur d) s = .next t)
    (hok : t.statusByte.toNat < 0xE0) :
    MachineAt z (bitMachine f cur long).1 (bitMachine f cur long).2.1 t
      ∧ t.bs.bits = s.bs.bits ++ (bitMachine f cur long).2.2 := by
  obtain ⟨rfl, hdem⟩ := h
  have hp : s.dem.phase = .decode := by rw [hdem]
  rw [exec_pushDur_of_decode hp, durationOperand_of_lt hfit] at ht
  by_cases hc : (s.statsOf long).count = 2 ^ s.sizes.cntW - 1
  · rw [addDuration_of_full hclass hc, Host.Outcome.next.injEq] at ht
    rw [← ht, statusByte_refusedWith] at hok
    exact absurd hok (by decide)
  · by_cases hb : s.bs.bits.length + (bitMachine s.dem.fsm s.dem.curBit long).2.2.length ≤ s.sizes.bsCap
    · rw [addDuration_of_room hclass hc hb, takeTransition_eq, hdem, Host.Outcome.next.injEq] at ht
      subst ht
      exact ⟨⟨rfl, congrArg (Dem.mk · _ _) hp⟩, rfl⟩
    · rw [addDuration_of_no_room hclass hc (Nat.not_le.1 hb), Host.Outcome.next.injEq] at ht
      rw [← ht, statusByte_refusedWith] at hok
      exact absurd hok (by decide)

/-- Settles O39: the five rows one after another. -/
theorem craftedSequenceDecodes : Obligations.CraftedSequenceDecodes := by
  intro s0 s1 s2 s3 s4 s5 d1 d2 d3 d4 d5 hdem hfit c1 c2 c3 c4 c5 e1 e2 e3 e4 e5 hok
  simp only [List.forall_mem_cons] at hfit hok
  obtain ⟨f1, f2, f3, f4, f5, -⟩ := hfit
  obtain ⟨k1, k2, k3, k4, k5, -⟩ := hok
  have m0 : MachineAt s0.sizes .unknown false s0 := ⟨rfl, hdem⟩
  obtain ⟨m1, b1⟩ := m0.push f1 c1 e1 k1
  obtain ⟨m2, b2⟩ := m1.push f2 c2 e2 k2
  obtain ⟨m3, b3⟩ := m2.push f3 c3 e3 k3
  obtain ⟨m4, b4⟩ := m3.push f4 c4 e4 k4
  obtain ⟨m5, b5⟩ := m4.push f5 c5 e5 k5
  refine ⟨?_, congrArg Dem.fsm m1.dem, congrArg Dem.fsm m2.dem, congrArg Dem.fsm m3.dem, congrArg Dem.fsm m4.dem,
    congrArg Dem.fsm m5.dem⟩
  rw [b5, b4, b3, b2, b1]
  simp only [bitMachine, List.append_assoc]
  rfl

end Sys2Proof.Machine

/-! PROOFS. The saturating cursor register (spec/42_bitstream.md R187). Saturation is written as one update of the state; each
command, run from the saturated state, answers what it answers from the state itself, up to saturation. -/

namespace Sys2Proof.Machine

/-! ### Saturation -/

/-- `BS.cursor` in a register that saturates at `cap` + 1. -/
def Cursor.saturate (cap : Nat) : Cursor → Cursor
  | .beforeStart => .beforeStart
  | .onBit c => .onBit (min c (cap + 1))

@[simp] theorem Cursor.saturate_saturate (cap : Nat) (c : Cursor) : (c.saturate cap).saturate cap = c.saturate cap := by
  cases c with
  | beforeStart => rfl
  | onBit c => exact congrArg Cursor.onBit (by omega)

/-- The cursor code shows no more than the register holds (R174, R187). -/
@[simp] theorem Cursor.code_saturate (c : Cursor) (cap : Nat) : (c.saturate cap).code cap = c.code cap := by
  cases c with
  | beforeStart => rfl
  | onBit c => exact congrArg (BitVec.ofNat 32) (by omega)

theorem Cursor.code_eq_of_saturate_eq {c c' : Cursor} {cap : Nat} (h : c'.saturate cap = c.saturate cap) :
    c'.code cap = c.code cap := by
  rw [← Cursor.code_saturate c', h, Cursor.code_saturate]

/-- `saturated` as one update, whatever the cursor. -/
def State.saturate (s : State) : State := { s with bs := { s.bs with cursor := s.bs.cursor.saturate s.sizes.bsCap } }

theorem saturated_eq_saturate (s : State) : saturated s = s.saturate := by
  obtain ⟨cfg, seg, dem, stS, stL, ⟨bits, cursor, inv⟩, df, pay, sysFault, wordOrder, sizes, cmds, resp⟩ := s
  cases cursor <;> rfl

section
variable (s : State)

@[simp] theorem State.saturate_cfg : s.saturate.cfg = s.cfg := rfl
@[simp] theorem State.saturate_dem : s.saturate.dem = s.dem := rfl
@[simp] theorem State.saturate_stS : s.saturate.stS = s.stS := rfl
@[simp] theorem State.saturate_bits : s.saturate.bs.bits = s.bs.bits := rfl
@[simp] theorem State.saturate_inv : s.saturate.bs.inv = s.bs.inv := rfl
@[simp] theorem State.saturate_cursor : s.saturate.bs.cursor = s.bs.cursor.saturate s.sizes.bsCap := rfl
@[simp] theorem State.saturate_df : s.saturate.df = s.df := rfl
@[simp] theorem State.saturate_pay : s.saturate.pay = s.pay := rfl
@[simp] theorem State.saturate_sizes : s.saturate.sizes = s.sizes := rfl
@[simp] theorem State.saturate_resp : s.saturate.resp = s.resp := rfl

@[simp] theorem State.saturate_saturate : s.saturate.saturate = s.saturate := by
  simp only [State.saturate, Cursor.saturate_saturate]

end

/-! ### Answers up to a map of the next state -/

/-- An answer with its next state, if it has one, mapped by `f`. -/
def mapNext (f : State → State) : Result → Result
  | .next t => .next (f t)
  | .fault r => .fault r
  | .refused r => .refused r

/-- The answer from the saturated state is the same up to saturation. -/
def AnswersAlike (r r' : Result) : Prop := mapNext State.saturate r' = mapNext State.saturate r

theorem AnswersAlike.of_eq {r r' : Result} (h : r' = r) : AnswersAlike r r' := congrArg _ h

theorem AnswersAlike.of_saturates {r r' : Result} (h : r' = mapNext State.saturate r) : AnswersAlike r r' := by
  rw [AnswersAlike, h]
  cases r with
  | next t => exact congrArg Host.Outcome.next t.saturate_saturate
  | fault | refused => rfl

theorem AnswersAlike.exists_next {r r' : Result} {t : State} (h : AnswersAlike r r') (ht : r = .next t) :
    ∃ t', r' = .next t' ∧ t'.saturate = t.saturate ∧ t'.resp = t.resp := by
  subst ht
  cases r' with
  | next t' =>
    have hsat : t'.saturate = t.saturate := Host.Outcome.next.inj h
    exact ⟨t', rfl, hsat, by rw [← State.saturate_resp t', hsat, State.saturate_resp]⟩
  | fault | refused => cases h

section
variable (s : State)

theorem mapNext_complete (st : Status) (b : Bool) (aux : BitVec 16) (val : Reg32) :
    mapNext State.saturate (complete st b aux val s) = complete st b aux val s.saturate := rfl

theorem mapNext_refuse (f : CmdFault) : mapNext State.saturate (refuse f s) = refuse f s.saturate := rfl

theorem mapNext_ite (p : Prop) [Decidable p] (r r' : Result) :
    mapNext State.saturate (if p then r else r') = if p then mapNext State.saturate r else mapNext State.saturate r' :=
  apply_ite ..

theorem answersAlike_complete {u u' : State} (h : u'.saturate = u.saturate) {st : Status} {b : Bool} {aux : BitVec 16}
    {val : Reg32} : AnswersAlike (complete st b aux val u) (complete st b aux val u') := by
  rw [AnswersAlike, mapNext_complete, mapNext_complete, h]

end

/-! ### The commands that neither move the cursor nor test it -/

section
variable (s : State)

theorem regValue_saturate (r : Reg) : regValue s.saturate r = regValue s r := by
  cases r with
  | bsCursor => exact Cursor.code_saturate ..
  | _ => rfl

theorem execRdreg_saturate (reg : BitVec 8) : execRdreg reg s.saturate = mapNext State.saturate (execRdreg reg s) := by
  unfold execRdreg
  cases regOfNumber reg with
  | none => rfl
  | some r => simp only [regValue_saturate, mapNext_complete]

theorem execWrreg_saturate (reg : BitVec 8) (value : BitVec 32) :
    execWrreg reg value s.saturate = mapNext State.saturate (execWrreg reg value s) := by
  simp only [execWrreg, State.saturate_sizes, State.saturate_cfg]
  cases writeCfg s.sizes s.cfg reg value <;> rfl

theorem execRdhist_saturate (cls : BitVec 8) (bin : BitVec 32) :
    execRdhist cls bin s.saturate = mapNext State.saturate (execRdhist cls bin s) := by
  have hcls : statsOfClass s.saturate cls = statsOfClass s cls := rfl
  simp only [execRdhist, hcls]
  cases statsOfClass s cls with
  | none => rfl
  | some st =>
    simp only [mapNext_ite]
    rfl

theorem execRdpay_saturate (index : BitVec 32) :
    execRdpay index s.saturate = mapNext State.saturate (execRdpay index s) := by
  simp only [execRdpay, mapNext_ite, mapNext_refuse, State.saturate_df, State.saturate_pay]
  cases s.pay.read index.toNat <;> rfl

theorem completeEmit_saturate (emit : Option Nat) :
    completeEmit emit s.saturate = mapNext State.saturate (completeEmit emit s) := by
  cases emit <;> rfl

theorem execSegAcc_saturate (l r : Sample) : execSegAcc l r s.saturate = mapNext State.saturate (execSegAcc l r s) := by
  simp only [execSegAcc, mapNext_ite]
  rfl

theorem execSegSample_saturate (l r : Sample) :
    execSegSample l r s.saturate = mapNext State.saturate (execSegSample l r s) := by
  simp only [execSegSample, mapNext_ite]
  rfl

theorem execSegFlush_saturate : execSegFlush s.saturate = mapNext State.saturate (execSegFlush s) :=
  completeEmit_saturate { s with seg := { s.seg with isOpen := false, run := 0, cur := 0 } } _

theorem finishTone_saturate : finishTone s.saturate = mapNext State.saturate (finishTone s) := by
  simp only [finishTone, mapNext_ite]
  rfl

theorem addTone_saturate (d : Nat) : addTone d s.saturate = mapNext State.saturate (addTone d s) := by
  simp only [addTone, mapNext_ite, ← finishTone_saturate]
  rfl

theorem addDuration_saturate (d : Nat) : addDuration d s.saturate = mapNext State.saturate (addDuration d s) := by
  simp only [addDuration, State.saturate_stS, State.saturate_cfg]
  cases classifyPulse s.stS s.cfg.deltaPct d with
  | neither => rfl
  | short | long =>
    simp only [mapNext_ite]
    rfl

theorem execPushDur_saturate (d : Duration) : execPushDur d s.saturate = mapNext State.saturate (execPushDur d s) := by
  simp only [execPushDur, State.saturate_dem]
  cases s.dem.phase with
  | lost => rfl
  | calib => exact addTone_saturate ..
  | decode => exact addDuration_saturate ..

theorem execBsAppend_saturate (w : BitVec 8) (v : BitVec 16) :
    execBsAppend w v s.saturate = mapNext State.saturate (execBsAppend w v s) := by
  simp only [execBsAppend, mapNext_ite]
  rfl

end

/-! ### The commands that read or move the cursor: beyond the end every position is alike -/

/-- A window that begins beyond the end reads the padding alone (R64, R171). -/
theorem hex_saturate {bits : List Bool} {cap : Nat} (hcap : bits.length ≤ cap) (c : Nat) (inv : Bool) (w : Nat) :
    hex bits { pos := min c (cap + 1), inv := inv } w = hex bits { pos := c, inv := inv } w := by
  rcases Nat.le_total c (cap + 1) with h | h
  · rw [Nat.min_eq_left h]
  · rw [Nat.min_eq_right h, hex_of_length_le (Nat.le_succ_of_le hcap), hex_of_length_le ((Nat.le_succ_of_le hcap).trans h)]

/-- A search from beyond the end tests no position (R176). -/
theorem find_of_length_lt {bits : List Bool} {start : Nat} (h : bits.length < start) (t m w : Nat) :
    find bits t m w start = (false, { pos := start, inv := false }) := by
  rw [find, Nat.sub_eq_zero_of_le h, findLoop]

theorem findSync_of_length_lt {bits : List Bool} {start : Nat} (h : bits.length < start) :
    findSync bits start = (false, { pos := start, inv := false }) := by
  rw [findSync_eq, find_of_length_lt h]
  rfl

theorem Cursor.saturate_eq_self_or (c : Cursor) (cap : Nat) :
    c.saturate cap = c ∨ ∃ p, c = .onBit p ∧ cap + 1 < p ∧ c.saturate cap = .onBit (cap + 1) := by
  cases c with
  | beforeStart => exact .inl rfl
  | onBit p =>
    rcases Nat.lt_or_ge (cap + 1) p with h | h
    · exact .inr ⟨p, rfl, h, congrArg Cursor.onBit (Nat.min_eq_right h.le)⟩
    · exact .inl (congrArg Cursor.onBit (Nat.min_eq_left h))

theorem Cursor.saturate_advance (c : Cursor) (cap n : Nat) :
    ((c.saturate cap).advance n).saturate cap = (c.advance n).saturate cap := by
  cases c with
  | beforeStart => rfl
  | onBit p => exact congrArg Cursor.onBit (by omega)

theorem Bitstream.inBounds_saturate_advance {b : Bitstream} {cap : Nat} (hcap : b.bits.length ≤ cap) (n : Nat) :
    ({ b with cursor := (b.cursor.saturate cap).advance n } : Bitstream).inBounds
      = ({ b with cursor := b.cursor.advance n } : Bitstream).inBounds := by
  cases hc : b.cursor with
  | beforeStart => rfl
  | onBit p =>
    have hiff : min p (cap + 1) + n ≤ b.bits.length ↔ p + n ≤ b.bits.length := by omega
    exact decide_eq_decide.2 hiff

/-- A command that moves the cursor to positions that saturate alike, and answers the cursor code. -/
theorem answersAlike_moved {s : State} {c c' : Cursor} (h : c'.saturate s.sizes.bsCap = c.saturate s.sizes.bsCap)
    {b b' : Bool} (hb : b' = b) {st : Status} {inv : Bool} {aux : BitVec 16} :
    AnswersAlike (complete st b aux (c.code s.sizes.bsCap) { s with bs := { s.bs with cursor := c, inv := inv } })
      (complete st b' aux (c'.code s.sizes.bsCap) { s.saturate with bs := { s.bs with cursor := c', inv := inv } }) := by
  rw [hb, Cursor.code_eq_of_saturate_eq h]
  refine answersAlike_complete ?_
  simp only [State.saturate, h]

section
variable {s : State} (hcap : s.bs.bits.length ≤ s.sizes.bsCap)
include hcap

theorem execBsHex_saturate (w : BitVec 8) : execBsHex w s.saturate = mapNext State.saturate (execBsHex w s) := by
  simp only [execBsHex, mapNext_ite, State.saturate_cursor]
  cases s.bs.cursor with
  | beforeStart => rfl
  | onBit c =>
    simp only [Cursor.saturate, State.saturate_bits, State.saturate_inv, hex_saturate hcap]
    rfl

theorem execBsOffset_alike (n : BitVec 32) : AnswersAlike (execBsOffset n s) (execBsOffset n s.saturate) :=
  answersAlike_moved (Cursor.saturate_advance ..) (Bitstream.inBounds_saturate_advance hcap n.toNat)

/-- A search that tests no position beyond the end leaves the scan beyond the capacity where it began beyond it. -/
theorem completeSearch_alike {search : Nat → Bool × Scan}
    (hsearch : ∀ start, s.bs.bits.length < start → search start = (false, { pos := start, inv := false })) :
    AnswersAlike (completeSearch (search s.bs.cursor.next) s) (completeSearch (search s.saturate.bs.cursor.next) s.saturate) := by
  rcases Cursor.saturate_eq_self_or s.bs.cursor s.sizes.bsCap with hself | ⟨p, hc, hp, hsat⟩
  · rw [State.saturate_cursor, hself]
    exact .of_eq rfl
  · have hfar : search (Cursor.onBit p).next = (false, { pos := p + 1, inv := false }) := hsearch (p + 1) (by omega)
    have hnear : search (Cursor.onBit (s.sizes.bsCap + 1)).next = (false, { pos := s.sizes.bsCap + 1 + 1, inv := false }) :=
      hsearch (s.sizes.bsCap + 1 + 1) (by omega)
    have hcur : (Cursor.onBit (s.sizes.bsCap + 1 + 1)).saturate s.sizes.bsCap = (Cursor.onBit (p + 1)).saturate s.sizes.bsCap :=
      congrArg Cursor.onBit (by omega)
    rw [State.saturate_cursor, hsat, hc, hfar, hnear]
    exact answersAlike_moved hcur rfl

theorem execBsFind_alike (w : BitVec 8) (target mask : BitVec 16) :
    AnswersAlike (execBsFind w target mask s) (execBsFind w target mask s.saturate) := by
  unfold execBsFind
  split
  · exact .of_saturates rfl
  · exact completeSearch_alike hcap fun start h => find_of_length_lt h ..

theorem execBsFindSync_alike : AnswersAlike (execBsFindSync s) (execBsFindSync s.saturate) :=
  completeSearch_alike hcap fun _ h => findSync_of_length_lt h

theorem trim_saturate : s.saturate.bs.trim = s.bs.trim := by
  have hcount : s.saturate.bs.trimCount = s.bs.trimCount := by
    simp only [Bitstream.trimCount, State.saturate_cursor]
    cases s.bs.cursor with
    | beforeStart => rfl
    | onBit c =>
      show min (min c (s.sizes.bsCap + 1)) s.bs.bits.length = min c s.bs.bits.length
      omega
  rw [Bitstream.trim, hcount]
  rfl

theorem execBsTrim_saturate : execBsTrim s.saturate = execBsTrim s := by
  rw [execBsTrim, trim_saturate hcap]
  rfl

/-! ### Every instruction -/

theorem exec_alike (i : Instr) : AnswersAlike (exec i s) (exec i s.saturate) := by
  cases i with
  | reset | demRearm | bsReset | parClassify | parRadio | parOrion | parRaw | parAuto => exact .of_eq rfl
  | rdreg reg => exact .of_saturates (execRdreg_saturate s reg)
  | wrreg reg value => exact .of_saturates (execWrreg_saturate s reg value)
  | rdhist cls bin => exact .of_saturates (execRdhist_saturate s cls bin)
  | rdpay index => exact .of_saturates (execRdpay_saturate s index)
  | segReset => exact .of_saturates rfl
  | segAcc l r => exact .of_saturates (execSegAcc_saturate s l r)
  | segSample l r => exact .of_saturates (execSegSample_saturate s l r)
  | segFlush => exact .of_saturates (execSegFlush_saturate s)
  | pushDur d => exact .of_saturates (execPushDur_saturate s d)
  | bsOffset n => exact execBsOffset_alike hcap n
  | bsHex w => exact .of_saturates (execBsHex_saturate hcap w)
  | bsFind w target mask => exact execBsFind_alike hcap w target mask
  | bsFindSync => exact execBsFindSync_alike hcap
  | bsTrim => exact .of_eq (execBsTrim_saturate hcap)
  | bsAppend w v => exact .of_saturates (execBsAppend_saturate s w v)

end

/-- Settles O48: every command answers alike from the saturated state. -/
theorem cursorSaturationIsInvisible : Obligations.CursorSaturationIsInvisible := by
  intro i s t hcap ht
  simp only [saturated_eq_saturate]
  exact (exec_alike hcap i).exists_next ht

end Sys2Proof.Machine

/-! PROOFS. The commands of unit BS (spec/42_bitstream.md R172 to R186): one equation per command in the terms of the
statements, the one padded match of the byte marker, and the host's loop. -/

namespace Sys2Proof.Machine

/-! ### `BS_RESET` (R173) and `BS_OFFSET` (R174) -/

/-- Settles O41: the end of the command with the new Bitstream written out. -/
theorem bsResetRewinds : Obligations.BsResetRewinds := ⟨by decide, fun _ => complete_eq ..⟩

theorem encodesAs_bsOffset (n : BitVec 32) : encodesAs (.bsOffset n) 0x31 0 n.toNat := commandWord_toNat 0x31 0 n

theorem Cursor.toInt_advance (c : Cursor) (n : Nat) : (c.advance n).toInt = c.toInt + n := by
  cases c with
  | beforeStart =>
    cases n with
    | zero => rfl
    | succ n => show (n : Int) = -1 + (n + 1 : Nat); omega
  | onBit p => show ((p + n : Nat) : Int) = p + n; omega

theorem Cursor.code_eq_cursorWord (c : Cursor) (cap : Nat) : c.code cap = cursorWord cap c := by cases c <;> rfl

theorem Bitstream.inBounds_eq (b : Bitstream) : b.inBounds = decide (b.cursor.toInt ≤ b.bits.length) := by
  obtain ⟨bits, c, inv⟩ := b
  cases c with
  | beforeStart => exact (decide_eq_true (by show (-1 : Int) ≤ bits.length; omega)).symm
  | onBit p => exact decide_eq_decide.2 Int.ofNat_le.symm

/-- Settles O42: the new cursor is the advanced one. -/
theorem bsOffsetMovesCursor : Obligations.BsOffsetMovesCursor := by
  refine fun s n => ⟨encodesAs_bsOffset n, s.bs.cursor.advance n.toNat, Cursor.toInt_advance .., ?_⟩
  rw [← Cursor.code_eq_cursorWord, ← Bitstream.inBounds_eq { s.bs with cursor := s.bs.cursor.advance n.toNat }]
  exact complete_eq ..

/-! ### The searches (R176, R179, R180) -/

/-- The block after a search that ended as `r`. -/
def searched (r : Bool × Scan) (s : State) : State :=
  { s with
    bs := { bits := s.bs.bits, cursor := .onBit r.2.pos, inv := r.2.inv }
    resp := answer 0x80 r.1 r.2.inv 0 (cursorWord s.sizes.bsCap (.onBit r.2.pos)) }

theorem completeSearch_eq (r : Bool × Scan) (s : State) : completeSearch r s = .next (searched r s) := complete_eq ..

theorem encodesAs_bsFind (w : BitVec 8) (target mask : BitVec 16) :
    encodesAs (.bsFind w target mask) 0x33 w.toNat (target.toNat * 2 ^ 16 + mask.toNat) := by
  rw [encodesAs, ← toNat_append_eq_add]
  exact commandWord_toNat 0x33 w (target ++ mask)

theorem valueFits_iff (v : BitVec 16) (w : BitVec 8) : valueFits v w = true ↔ v.toNat < 2 ^ w.toNat := decide_eq_true_iff

theorem execBsFind_of_illegal {w : BitVec 8} {target mask : BitVec 16}
    (h : w.toNat = 0 ∨ 16 < w.toNat ∨ 2 ^ w.toNat ≤ target.toNat ∨ 2 ^ w.toNat ≤ mask.toNat) (s : State) :
    execBsFind w target mask s = .next (s.refusedWith 0x02 0xE1) := by
  have hops : ¬ (widthLegal w && valueFits target w && valueFits mask w) = true := by
    rw [Bool.and_eq_true, Bool.and_eq_true, widthLegal_iff, valueFits_iff, valueFits_iff]
    omega
  rw [execBsFind, Bool.eq_false_of_not_eq_true hops]
  exact refuse_eq ..

theorem execBsFind_of_legal {w : BitVec 8} {target mask : BitVec 16} (hw : widthLegal w = true)
    (ht : valueFits target w = true) (hm : valueFits mask w = true) (s : State) :
    execBsFind w target mask s = .next (searched (find s.bs.bits target.toNat mask.toNat w.toNat s.bs.cursor.next) s) := by
  rw [execBsFind, hw, ht, hm]
  exact completeSearch_eq ..

theorem windowMatches_iff (bits : List Bool) (t m w : Nat) (sc : Scan) :
    windowMatches bits t m w sc = true ↔ hits bits t m w sc.pos sc.inv := by
  rw [windowMatches, beq_iff_eq, hex_eq_windowValue, hits]

theorem windowMatches_eq_false_iff (bits : List Bool) (t m w : Nat) (sc : Scan) :
    windowMatches bits t m w sc = false ↔ ¬ hits bits t m w sc.pos sc.inv := by
  rw [← windowMatches_iff, Bool.not_eq_true]

/-- The first position `Find` tests is the cursor plus one, before start counting as -1 (R39, R176). -/
theorem Cursor.next_eq_toInt (c : Cursor) : (c.next : Int) = c.toInt + 1 := by cases c <;> rfl

/-- Settles O43: the two ends of `Find`. -/
theorem bsFindStandsOnLowestMatch : Obligations.BsFindStandsOnLowestMatch := by
  refine fun s w target mask => ⟨encodesAs_bsFind w target mask, fun h => execBsFind_of_illegal h s, fun hlo hhi ht hm => ?_⟩
  have hnext := s.bs.cursor.next_eq_toInt
  have hexec := execBsFind_of_legal ((widthLegal_iff w).2 ⟨hlo, hhi⟩) ((valueFits_iff ..).2 ht) ((valueFits_iff ..).2 hm) s
  rcases find_cases s.bs.bits target.toNat mask.toNat w.toNat s.bs.cursor.next with
    ⟨sc, hfind, hstart, hend, hmatch, hpolarity, hlower⟩ | ⟨hfind, hnone⟩
  · rw [hfind] at hexec
    refine ⟨true, sc.inv, sc.pos, hexec, fun _ => ⟨by omega, hend, (windowMatches_iff ..).1 hmatch, fun hinv =>
      (windowMatches_eq_false_iff ..).1 (hpolarity hinv)⟩, fun p hp _ hlt v => ?_, nofun⟩
    exact (windowMatches_eq_false_iff ..).1 (hlower p v (by omega) (hlt rfl))
  · rw [hfind] at hexec
    refine ⟨false, false, max s.bs.cursor.next (s.bs.bits.length + 1), hexec, nofun, fun p hp hend _ v => ?_,
      fun _ => ⟨by omega, rfl⟩⟩
    exact (windowMatches_eq_false_iff ..).1 (hnone p v (by omega) hend)

theorem exec_bsFindSync (s : State) : exec .bsFindSync s = .next (searched (findSync s.bs.bits s.bs.cursor.next) s) :=
  completeSearch_eq ..

theorem exec_bsFind_marker (s : State) :
    exec (.bsFind 8 0xE6 0xFF) s = .next (searched (find s.bs.bits 0xE6 0xFF 8 s.bs.cursor.next) s) :=
  execBsFind_of_legal (by decide) (by decide) (by decide) s

/-- Settles O44: `FindSync` is `Find` of the byte marker and, where that succeeded, the step over it. -/
theorem bsFindSyncIsFindThenStep : Obligations.BsFindSyncIsFindThenStep := by
  refine ⟨by decide, fun s => ⟨_, _, exec_bsFind_marker s, rfl, ?_⟩⟩
  rw [exec_bsFindSync, findSync_eq, resultBit_of_resp rfl]
  split <;> rfl

/-! ### The one padded match of the byte marker (R177) -/

theorem testBit_memRead {bits : List Bool} {a n k : Nat} (h : k < n) :
    (memRead bits a n).testBit (n - 1 - k) = bits[a + k]?.getD false := by
  induction n with
  | zero => exact absurd h (Nat.not_lt_zero k)
  | succ n ih =>
    have hbit := bitAt_le_one bits (a + n)
    rw [memRead]
    rcases Nat.lt_or_eq_of_le (Nat.le_of_lt_succ h) with hlt | rfl
    · have hshift : n + 1 - 1 - k = n - 1 - k + 1 := by omega
      have hhalf : (2 * memRead bits a n + bitAt bits (a + n)) / 2 = memRead bits a n := by omega
      rw [hshift, Nat.testBit_succ, hhalf, ih hlt]
    · rw [Nat.add_sub_cancel, Nat.sub_self, Nat.testBit_zero, Nat.mul_add_mod, bitAt]
      cases bits[a + k]?.getD false <;> rfl

/-- The last bits of a stream are those of the window over them. -/
theorem drop_eq_bitsOf_memRead {bits : List Bool} {a n : Nat} (h : a + n = bits.length) :
    bits.drop a = bitsOf (memRead bits a n) n := by
  refine List.ext_getElem? fun k => ?_
  rw [List.getElem?_drop]
  rcases Nat.lt_or_ge k n with hk | hk
  · rw [getElem?_bitsOf hk, testBit_memRead hk, List.getElem?_eq_getElem (by omega), Option.getD_some]
  · rw [List.getElem?_eq_none (by omega), List.getElem?_eq_none (by rwa [length_bitsOf])]

/-- The byte marker at a position whose window leaves the bits held: seven bits and one padded 0, not inverted. -/
theorem marker_past_end {bits : List Bool} {p : Nat} {inv : Bool} (hpast : bits.length < p + 8)
    (hmark : hex bits { pos := p, inv := inv } 8 = 0xE6) :
    p + 7 = bits.length ∧ inv = false ∧ memRead bits p 7 = 0x73 := by
  have hlast : memRead bits (p + 7) 1 = 0 := memRead_of_length_le (by omega) 1
  have hsplit : memRead bits p 8 = memRead bits p 7 * 2 ^ 1 + memRead bits (p + 7) 1 := memRead_add bits p 7 1
  have hlt := memRead_lt bits p 8
  have hvalue : (if inv then 2 ^ 8 - 1 - memRead bits p 8 else memRead bits p 8) = 0xE6 := (hex_eq ..).symm.trans hmark
  cases inv with
  | true =>
    rw [if_pos rfl] at hvalue
    omega
  | false =>
    rw [if_neg Bool.false_ne_true] at hvalue
    refine ⟨?_, rfl, by omega⟩
    by_contra hshort
    have hlast2 : memRead bits (p + 6) 2 = 0 := memRead_of_length_le (by omega) 2
    have hsplit2 : memRead bits p 8 = memRead bits p 6 * 2 ^ 2 + memRead bits (p + 6) 2 := memRead_add bits p 6 2
    omega

/-- Settles O45: a match inside the bits held, or the padded one. -/
theorem onlyPaddedSyncMatch : Obligations.OnlyPaddedSyncMatch := by
  intro s t ht hfound
  rw [exec_bsFindSync] at ht
  obtain rfl := Host.Outcome.next.inj ht
  rw [resultBit_of_resp rfl] at hfound
  rcases findSync_cases s.bs.bits s.bs.cursor.next with ⟨p, inv, hsync, -, hp, -, hmark⟩ | hsync
  · rw [hsync]
    refine ⟨p + 8, rfl, ?_⟩
    rcases Nat.lt_or_ge s.bs.bits.length (p + 8) with hpast | hin
    · obtain ⟨hend, hinv, hbits⟩ := marker_past_end hpast hmark
      have hsuffix := List.drop_suffix p s.bs.bits
      rw [drop_eq_bitsOf_memRead hend, hbits] at hsuffix
      exact .inr ⟨by omega, hinv, hsuffix⟩
    · exact .inl hin
  · rw [hsync] at hfound
    cases hfound

/-! ### `BS_TRIM` (R182) and `BS_APPEND` (R183) -/

theorem Bitstream.trimCount_eq (b : Bitstream) : b.trimCount = (min (max b.cursor.toInt 0) b.bits.length).toNat := by
  obtain ⟨bits, c, inv⟩ := b
  cases c with
  | beforeStart => show 0 = (min (max (-1 : Int) 0) bits.length).toNat; omega
  | onBit p => show min p bits.length = (min (max (p : Int) 0) bits.length).toNat; omega

theorem exec_bsTrim (s : State) : exec .bsTrim s = .next { s with
    bs := s.bs.trim, resp := answer 0x80 false false 0 (BitVec.ofNat 32 s.bs.trim.bits.length) } := complete_eq ..

theorem windowValue_drop (bits : List Bool) {k a : Nat} (h : k ≤ a) (inv : Bool) (w : Nat) :
    windowValue (bits.drop k) (a - k) inv w = windowValue bits a inv w := by
  simp only [windowValue, ← memRead_eq_windowSum, memRead_drop, Nat.add_sub_cancel' h]

/-- Settles O46: the bits kept are those from the trim count on. -/
theorem bsTrimDropsPrefix : Obligations.BsTrimDropsPrefix := by
  refine ⟨by decide, fun s => ⟨s.bs.bits.drop s.bs.trimCount, exec_bsTrim s, ?_, ?_⟩⟩
  · rw [List.length_drop, Bitstream.trimCount_eq]
  · rw [← Bitstream.trimCount_eq]
    exact fun a w inv h => windowValue_drop s.bs.bits h inv w

theorem encodesAs_bsAppend (w : BitVec 8) (v : BitVec 16) : encodesAs (.bsAppend w v) 0x36 w.toNat v.toNat := by
  have himm : ((0 : BitVec 16) ++ v).toNat = v.toNat := by rw [toNat_append_eq_add]; simp
  rw [encodesAs, ← himm]
  exact commandWord_toNat 0x36 w ((0 : BitVec 16) ++ v)

theorem execBsAppend_of_illegal {w : BitVec 8} {v : BitVec 16} (h : w.toNat = 0 ∨ 16 < w.toNat ∨ 2 ^ w.toNat ≤ v.toNat)
    (s : State) : execBsAppend w v s = .next (s.refusedWith 0x02 0xE1) := by
  have hops : ¬ (widthLegal w && valueFits v w) = true := by
    rw [Bool.and_eq_true, widthLegal_iff, valueFits_iff]
    omega
  rw [execBsAppend, Bool.eq_false_of_not_eq_true hops]
  exact refuse_eq ..

section
variable {w : BitVec 8} {v : BitVec 16} {s : State} (hw : widthLegal w = true) (hv : valueFits v w = true)
include hw hv

theorem execBsAppend_of_no_room (h : s.sizes.bsCap < s.bs.bits.length + w.toNat) :
    execBsAppend w v s = .next (s.refusedWith 0x08 0xE3) := by
  have hfit : s.bs.fits s.sizes.bsCap w.toNat = false := decide_eq_false (Nat.not_le.2 h)
  rw [execBsAppend, hw, hv, hfit]
  exact refuse_eq ..

theorem execBsAppend_of_room (h : s.bs.bits.length + w.toNat ≤ s.sizes.bsCap) :
    execBsAppend w v s = .next { s with
      bs := { s.bs with bits := s.bs.bits ++ bitsOf v.toNat w.toNat }
      resp := answer 0x80 false s.bs.inv 0 (BitVec.ofNat 32 (s.bs.bits.length + w.toNat)) } := by
  have hfit : s.bs.fits s.sizes.bsCap w.toNat = true := decide_eq_true h
  have hlen : s.bs.bits.length + w.toNat = (s.bs.append (bitsOf v.toNat w.toNat)).bits.length := by
    rw [Bitstream.append_bits, List.length_append, length_bitsOf]
  rw [execBsAppend, hw, hv, hfit, hlen]
  exact complete_eq ..

end

/-- The read-back law of R183. -/
theorem windowValue_append_bitsOf (bits : List Bool) {v n : Nat} (h : v < 2 ^ n) :
    windowValue (bits ++ bitsOf v n) bits.length false n = v := by
  rw [windowValue, if_neg Bool.false_ne_true, ← memRead_eq_windowSum, ← Nat.add_zero bits.length, memRead_append_right,
    memRead_bitsOf, Nat.mod_eq_of_lt h]

/-- Settles O47: the operands are tested before the capacity; the bits added are those of the value. -/
theorem bsAppendReadsBack : Obligations.BsAppendReadsBack := by
  refine fun s w v => ⟨encodesAs_bsAppend w v, fun h => execBsAppend_of_illegal h s, fun hlo hhi hv hroom => ?_,
    fun hlo hhi hv hroom => ?_⟩
  · exact execBsAppend_of_no_room ((widthLegal_iff w).2 ⟨hlo, hhi⟩) ((valueFits_iff ..).2 hv) hroom
  · exact ⟨bitsOf v.toNat w.toNat, execBsAppend_of_room ((widthLegal_iff w).2 ⟨hlo, hhi⟩) ((valueFits_iff ..).2 hv) hroom,
      length_bitsOf .., fun _ hk => getElem?_bitsOf hk, windowValue_append_bitsOf s.bs.bits hv⟩

/-! ### The host's loop (R182, R186, R224) -/

/-- The first search of a parse leaves the cursor beyond bit 0 (R180). -/
theorem one_le_findSync_pos (bits : List Bool) : 1 ≤ (findSync bits 0).2.pos := by
  rcases findSync_cases bits 0 with ⟨p, inv, hsync, -⟩ | hsync <;> rw [hsync]
  · exact Nat.le_add_left_of_le (by decide)
  · exact le_max_of_le_right (Nat.le_add_left ..)

theorem one_le_classify_pos (bits : List Bool) : 1 ≤ (classify bits).2.pos := by
  have hsync := one_le_findSync_pos bits
  unfold classify
  dsimp only
  split
  · exact hsync
  · split
    · rw [readBytes_scan]
      exact Nat.le_add_right_of_le hsync
    · split <;>
      · rw [readBytes_scan, readBytes_scan]
        exact Nat.le_add_right_of_le (Nat.le_add_right_of_le hsync)

/-! A parse never moves its scan back: every read advances it, and a search begins beyond it (R174, R176). -/

section
variable {a : Nat} {bits : List Bool}

theorem le_readWord_pos (wo : WordOrder) {sc : Scan} (h : a ≤ sc.pos) : a ≤ (readWord wo bits sc).scan.pos :=
  Nat.le_add_right_of_le (Nat.le_add_right_of_le h)

variable {wo : WordOrder}

theorem le_bodyChecksum_pos {p : ParState} (h : a ≤ p.scan.pos) : a ≤ (bodyChecksum wo bits p).2.scan.pos := by
  have hsync : a ≤ (findSync bits (p.scan.pos + 1)).2.pos := (Nat.le_succ_of_le h).trans (start_le_findSync ..)
  unfold bodyChecksum
  dsimp only
  split
  · exact hsync
  · split <;> exact le_readWord_pos wo hsync

theorem le_payloadLoop_pos {p : ParState} (h : a ≤ p.scan.pos) (n : Nat) : a ≤ (payloadLoop bits n p).2.scan.pos := by
  induction n generalizing p with
  | zero => exact h
  | succ n ih =>
    rw [payloadLoop]
    split
    · exact ih (Nat.le_add_right_of_le h)
    · exact Nat.le_add_right_of_le h

theorem le_bodyPayload_pos {p : ParState} (h : a ≤ p.scan.pos) (len : Nat) : a ≤ (bodyPayload wo bits len p).2.scan.pos := by
  have hloop := le_payloadLoop_pos (bits := bits) h len
  unfold bodyPayload
  dsimp only
  split
  · exact hloop
  · exact le_bodyChecksum_pos hloop

theorem le_bodyEnd_pos {p : ParState} (h : a ≤ p.scan.pos) : a ≤ (bodyEnd wo bits p).2.scan.pos := by
  unfold bodyEnd
  dsimp only
  split
  · exact le_readWord_pos wo h
  · split
    · exact le_readWord_pos wo h
    · exact le_bodyPayload_pos (le_readWord_pos wo h) _

theorem le_body_pos {p : ParState} (h : a ≤ p.scan.pos) : a ≤ (body wo bits p).2.scan.pos := by
  unfold body
  dsimp only
  split
  · exact le_readWord_pos wo h
  · exact le_bodyEnd_pos (le_readWord_pos wo h)

theorem le_nameLoop_pos {p : ParState} (h : a ≤ p.scan.pos) (n : Nat) : a ≤ (nameLoop bits n p).2.scan.pos := by
  induction n generalizing p with
  | zero => exact h
  | succ n ih =>
    rw [nameLoop]
    split
    · exact ih (Nat.le_add_right_of_le h)
    · exact Nat.le_add_right_of_le h

theorem le_orionZeros_pos {p : ParState} (h : a ≤ p.scan.pos) : a ≤ (orionZeros wo bits p).2.scan.pos := by
  have hzeros : a ≤ (readBytes bits Config.zeroBytes p.scan).2.pos := by
    rw [readBytes_scan]
    exact Nat.le_add_right_of_le h
  unfold orionZeros
  dsimp only
  split
  · exact hzeros
  · exact le_body_pos (Nat.le_add_right_of_le hzeros)

end

theorem one_le_radioAttempt_pos (wo : WordOrder) (bits : List Bool) : 1 ≤ (radioAttempt wo bits).2.scan.pos := by
  have hsync := one_le_findSync_pos bits
  unfold radioAttempt
  dsimp only
  split
  · exact hsync
  · exact le_body_pos hsync

theorem one_le_orionAttempt_pos (wo : WordOrder) (bits : List Bool) : 1 ≤ (orionAttempt wo bits).2.scan.pos := by
  have hsync := one_le_findSync_pos bits
  have hname : 1 ≤ (nameLoop bits Config.hdrBytes (ParState.cleared (findSync bits 0).2)).2.scan.pos :=
    le_nameLoop_pos hsync _
  unfold orionAttempt
  dsimp only
  split
  · exact hsync
  · split
    · exact hname
    · exact le_orionZeros_pos hname

theorem one_le_structuredAttempt_pos (wo : WordOrder) (bits : List Bool) :
    1 ≤ (structuredAttempt wo bits (classify bits)).2.scan.pos := by
  unfold structuredAttempt
  split
  · exact one_le_radioAttempt_pos wo bits
  · exact one_le_orionAttempt_pos wo bits
  · exact one_le_classify_pos bits

/-- The raw loop ends only at the end of the Bitstream (R221). -/
theorem length_le_rawLoop_pos (bits : List Bool) (fuel : Nat) (p : ParState) (h : bits.length ≤ p.scan.pos + fuel) :
    bits.length ≤ (rawLoop bits fuel p).scan.pos := by
  induction fuel generalizing p with
  | zero => exact h
  | succ fuel ih =>
    rw [rawLoop]
    split
    · refine ih _ ?_
      show bits.length ≤ p.scan.pos + 8 + fuel
      omega
    · next hend => exact Nat.le_of_not_lt hend

theorem length_le_rawAttempt_pos (bits : List Bool) : bits.length ≤ (rawAttempt bits).scan.pos := by
  unfold rawAttempt
  dsimp only
  split
  · exact length_le_rawLoop_pos bits _ _ (Nat.le_add_left ..)
  · next hfound =>
    rcases findSyncBit_cases bits 0 with ⟨sc, hfind, -⟩ | hfind
    · exact absurd (congrArg Prod.fst hfind) hfound
    · rw [hfind]
      exact le_max_of_le_right (Nat.le_succ _)

/-- The policy ends with a kept attempt, beyond bit 0, or with the raw capture, at the end. -/
theorem autoAttempt_pos (wo : WordOrder) (bits : List Bool) :
    ((autoAttempt wo bits).df.cls ≠ .raw ∧ 1 ≤ (autoAttempt wo bits).scan.pos)
    ∨ bits.length ≤ (autoAttempt wo bits).scan.pos := by
  unfold autoAttempt
  dsimp only
  split
  · next hkept =>
    refine .inl ⟨?_, one_le_structuredAttempt_pos wo bits⟩
    rcases hkept with h | h <;> rw [h] <;> nofun
  · exact .inr (length_le_rawAttempt_pos bits)

/-- The block after `PAR_AUTO` is the block with the result of the policy, but for the response. -/
theorem exec_parAuto (s : State) : ∃ resp, exec .parAuto s
    = .next { storePar (autoAttempt s.wordOrder s.bs.bits) s with resp := resp } := ⟨_, complete_eq ..⟩

theorem trim_setScan_bits (b : Bitstream) (sc : Scan) :
    (b.setScan sc).trim.bits = b.bits.drop (min sc.pos b.bits.length) := rfl

/-- Settles O60: the cursor after `PAR_AUTO` is beyond bit 0, and at the end or beyond after a raw capture. -/
theorem hostLoopShrinksStream : Obligations.HostLoopShrinksStream := by
  intro s
  obtain ⟨resp, hauto⟩ := exec_parAuto s
  have hpos := autoAttempt_pos s.wordOrder s.bs.bits
  refine ⟨_, _, hauto, exec_bsTrim _, fun hne => ?_, fun hraw => ?_⟩
  · have hlen := List.length_pos_iff.2 hne
    have hcur : 1 ≤ (autoAttempt s.wordOrder s.bs.bits).scan.pos := hpos.elim And.right hlen.trans_le
    show (s.bs.setScan (autoAttempt s.wordOrder s.bs.bits).scan).trim.bits.length < s.bs.bits.length
    rw [trim_setScan_bits, List.length_drop]
    omega
  · have hend := hpos.resolve_left fun hkept => hkept.1 hraw
    show (s.bs.setScan (autoAttempt s.wordOrder s.bs.bits).scan).trim.bits = []
    rw [trim_setScan_bits, Nat.min_eq_right hend, List.drop_length]

end Sys2Proof.Machine

/-! PROOFS. Tape frames in either polarity (spec/43_parser.md R202 to R219): the closed form of the checksum, what a frame on the
tape reads as, and the decodes of both families. -/

namespace Sys2Proof.Machine

/-! ### The checksum (R202) -/

/-- The sum of a sequence of bytes. -/
def byteSum (p : List Byte) : Nat := (p.map (fun b => b.toNat)).sum

theorem byteSum_cons (b : Byte) (p : List Byte) : byteSum (b :: p) = b.toNat + byteSum p := List.sum_cons

/-- The loop from any accumulators: `low` collects every byte, `high` every byte but the last with the carries before it. -/
theorem checksumLoop_toNat (p : List Byte) (low high : Byte) :
    (checksumLoop p low high).toNat
      = (high.toNat + byteSum p.dropLast + (low.toNat + byteSum p.dropLast) / 256) % 256 * 256
        + (low.toNat + byteSum p) % 256 := by
  induction p generalizing low high with
  | nil =>
    have := low.isLt
    have := high.isLt
    rw [checksumLoop, toNat_append_eq_add]
    simp only [byteSum, List.dropLast_nil, List.map_nil, List.sum_nil]
    omega
  | cons b rest ih =>
    have hlow := low.isLt
    have hhigh := high.isLt
    have hb := b.isLt
    rw [checksumLoop, ih, byteSum_cons, BitVec.toNat_ofNat]
    cases rest with
    | nil =>
      simp only [List.isEmpty_nil, if_true, byteSum, List.dropLast_nil, List.dropLast_singleton, List.map_nil, List.sum_nil]
      omega
    | cons c rest =>
      rw [List.dropLast_cons_cons, byteSum_cons b]
      simp only [List.isEmpty_cons, Bool.false_eq_true, if_false, BitVec.toNat_add, BitVec.toNat_ofNat]
      omega

theorem checksum_toNat (p : List Byte) :
    (checksum p).toNat = (byteSum p.dropLast + byteSum p.dropLast / 256) % 256 * 256 + byteSum p % 256 := by
  rw [checksum, checksumLoop_toNat, show (0 : Byte).toNat = 0 from rfl, Nat.zero_add, Nat.zero_add]

/-- Settles O51: the loop from zero accumulators; the worked values by evaluation. -/
theorem checksumClosedForm : Obligations.ChecksumClosedForm := by
  refine ⟨checksum_toNat, rfl, fun b => ?_, by decide, by decide, by decide, by decide⟩
  have hb := b.isLt
  rw [checksum_toNat, List.dropLast_singleton, byteSum_cons]
  simp only [byteSum, List.map_nil, List.sum_nil]
  omega

/-! ### What a frame on the tape reads as (R200, R201, R206) -/

/-- The byte at index `k` of a part of the tape that begins behind the bytes `pre`. -/
theorem tapeByte_tape {bytes pre mid post : List Byte} (hbytes : bytes = pre ++ mid ++ post) {k : Nat} {b : Byte}
    (h : mid[k]? = some b) (inv : Bool) :
    tapeByte ((streamOf bytes).map (fun x => x ^^ inv)) inv (8 * pre.length + 8 * k) = b.toNat := by
  have hk : k < mid.length := (List.getElem?_eq_some_iff.1 h).1
  have hb : bytes[pre.length + k]? = some b := by
    rw [hbytes, List.append_assoc, List.getElem?_append_right (Nat.le_add_right ..), Nat.add_sub_cancel_left,
      List.getElem?_append_left hk, h]
  rw [← Nat.mul_add, ← hex_tape hb inv, hex_eq_windowValue, tapeByte]

theorem length_tape (bytes : List Byte) (inv : Bool) : ((streamOf bytes).map (fun x => x ^^ inv)).length = 8 * bytes.length := by
  rw [length_map_xor, length_streamOf]

@[simp] theorem length_wordBytes (wo : WordOrder) (v : Word16) : (wordBytes wo v).length = 2 := by cases wo <;> rfl

/-- The reads of a decode of the body at bit address `a`, each answering the field recorded there, up to the end of the tape. -/
structure FrameAt (wo : WordOrder) (bits : List Bool) (inv : Bool) (a : Nat) (base last ck : Word16) (payload : List Byte) :
    Prop where
  length : bits.length = a + 8 * payload.length + 64
  base : (readWord wo bits { pos := a, inv := inv }).value = base
  last : (readWord wo bits { pos := a + 16, inv := inv }).value = last
  bytes : (readBytes bits payload.length { pos := a + 32, inv := inv }).1 = payload
  marker : findSync bits (a + 32 + 8 * payload.length + 1) = (true, { pos := a + 32 + 8 * payload.length + 16, inv := inv })
  checksum : (readWord wo bits { pos := a + 32 + 8 * payload.length + 16, inv := inv }).value = ck

/-- A recorded frame reads back behind any bytes `pre`. -/
theorem frameAt_tape (wo : WordOrder) (inv : Bool) (pre : List Byte) (base last ck : Word16) (payload : List Byte) :
    FrameAt wo ((streamOf (pre ++ frameBody wo base last ck payload)).map (fun b => b ^^ inv)) inv (8 * pre.length)
      base last ck payload where
  length := by
    rw [length_tape]
    simp only [frameBody, List.length_append, length_wordBytes, List.length_cons, List.length_nil]
    omega
  base := by
    rw [readWord_tape (pre := pre) (v := base) (post := wordBytes wo last ++ payload ++ [0x00, 0xE6] ++ wordBytes wo ck)
      (by simp only [frameBody, List.append_assoc])]
  last := by
    have hpos : 8 * pre.length + 16 = 8 * (pre ++ wordBytes wo base).length := by
      rw [List.length_append, length_wordBytes]; omega
    rw [hpos, readWord_tape (v := last) (post := payload ++ [0x00, 0xE6] ++ wordBytes wo ck)
      (by simp only [frameBody, List.append_assoc])]
  bytes := by
    have hpos : 8 * pre.length + 32 = 8 * (pre ++ wordBytes wo base ++ wordBytes wo last).length := by
      simp only [List.length_append, length_wordBytes]; omega
    rw [hpos]
    exact readBytes_tape (post := [0x00, 0xE6] ++ wordBytes wo ck) (by simp only [frameBody, List.append_assoc]) inv
  marker := by
    have hpos : 8 * pre.length + 32 + 8 * payload.length
        = 8 * (pre ++ wordBytes wo base ++ wordBytes wo last ++ payload).length := by
      simp only [List.length_append, length_wordBytes]; omega
    rw [hpos]
    exact findSync_tape (post := wordBytes wo ck) (by simp only [frameBody, List.append_assoc]) inv (Nat.le_succ _) (by omega)
  checksum := by
    have hpos : 8 * pre.length + 32 + 8 * payload.length + 16
        = 8 * (pre ++ wordBytes wo base ++ wordBytes wo last ++ payload ++ [0x00, 0xE6]).length := by
      simp only [List.length_append, length_wordBytes, List.length_cons, List.length_nil]; omega
    rw [hpos, readWord_tape (v := ck) (post := []) (by simp only [frameBody, List.append_assoc, List.append_nil])]

/-- The parser once the body has read the addresses of a frame and stored its payload (R208 to R213). -/
def ParState.withFrame (p : ParState) (base last : Word16) (payload : List Byte) : ParState :=
  { scan := p.scan.advance (32 + 8 * payload.length)
    df := { p.df with
      base := base
      endAddr := BitVec.ofNat 32 last.toNat
      len := BitVec.ofNat 32 payload.length
      npay := BitVec.ofNat 32 payload.length }
    pay := payloadFrom 0 payload }

/-- The parser once the body has compared the recorded checksum of that frame, at bit address `stop` (R214, R215). -/
def ParState.withJudgedFrame (p : ParState) (base last ck : Word16) (payload : List Byte) (stop : Nat) : ParState :=
  { p.withFrame base last payload with
    scan := { pos := stop, inv := p.scan.inv }
    df := { (p.withFrame base last payload).df with
      ckRead := ck
      ckCalc := checksum payload
      nameKind := if p.df.nameKind = .none then .checksum else p.df.nameKind } }

section

variable {wo : WordOrder} {bits : List Bool} {base last ck : Word16} {payload : List Byte} {p : ParState}

/-- Steps 2 to 4 on a frame. -/
theorem body_of_frameAt (hlen : frameLength base last = payload.length) (hp : p.Holds [])
    (h : FrameAt wo bits p.scan.inv p.scan.pos base last ck payload) :
    body wo bits p = bodyChecksum wo bits (p.withFrame base last payload) := by
  have hend := h.length
  have hlt : payload.length < 2 ^ 32 := by
    have := frameLength_toNat_lt base last
    omega
  have hpos : ¬ frameLength base last < 0 := by omega
  have hlast : (p.withBase base).scan.pos + 16 ≤ bits.length := by
    show p.scan.pos + 16 + 16 ≤ bits.length
    omega
  have hroom : payload.length ≤ (bits.length - ((p.withBase base).withEnd last).scan.pos) / 8 := by
    show payload.length ≤ (bits.length - (p.scan.pos + 16 + 16)) / 8
    omega
  have hclear : ((p.withBase base).withEnd last).Holds [] := hp.of_eq rfl rfl
  have hlenReg : BitVec.ofInt 32 (frameLength base last) = BitVec.ofNat 32 payload.length := by rw [hlen, BitVec.ofInt_natCast]
  have hstored : ((p.withBase base).withEnd last).withPayload bits payload.length payload.length
      = p.withFrame base last payload := by
    simp only [ParState.withPayload, ParState.withEnd, ParState.withBase, Scan.advance_advance, hlenReg, ParState.withFrame]
    exact congrArg _ (congrArg _ h.bytes)
  calc body wo bits p
    _ = bodyEnd wo bits (p.withBase base) := by rw [body_of_le (by omega), h.base]
    _ = bodyPayload wo bits (frameLength base last).toNat ((p.withBase base).withEnd last) := bodyEnd_of_not_neg hlast h.last hpos
    _ = bodyPayload wo bits payload.length ((p.withBase base).withEnd last) := by rw [hlen, Int.toNat_natCast]
    _ = bodyChecksum wo bits (((p.withBase base).withEnd last).withPayload bits payload.length payload.length) := by
      rw [bodyPayload_of_le hclear hlt hroom, Nat.min_eq_left hroom]
    _ = _ := congrArg _ hstored

/-- Steps 5 to 8 on a frame, the payload stored. -/
theorem bodyChecksum_of_frameAt (hlt : payload.length < 2 ^ 32)
    (h : FrameAt wo bits p.scan.inv p.scan.pos base last ck payload) :
    bodyChecksum wo bits (p.withFrame base last payload)
      = (if ck = checksum payload then .ok else .badCrc, p.withJudgedFrame base last ck payload bits.length) := by
  have hend := h.length
  have hmarker : findSync bits ((p.withFrame base last payload).scan.pos + 1)
      = (true, { pos := p.scan.pos + 32 + 8 * payload.length + 16, inv := p.scan.inv }) := by
    rw [ParState.withFrame, Scan.advance_pos, ← Nat.add_assoc]
    exact h.marker
  have hstand : (Scan.mk (p.scan.pos + 32 + 8 * payload.length + 16) p.scan.inv).advance 16
      = { pos := bits.length, inv := p.scan.inv } := by
    rw [hend]
    simp only [Scan.advance]
    congr 1
    omega
  have hfits : (p.scan.pos + 32 + 8 * payload.length + 16) + 16 ≤ bits.length := by omega
  have hnpay : (p.withFrame base last payload).df.npay.toNat = payload.length := Nat.mod_eq_of_lt hlt
  have hpay : (p.withFrame base last payload).pay.bytesBelow payload.length = payload :=
    bytesBelow_payloadFrom 0 payload (Nat.zero_add _).le
  rw [bodyChecksum_of_le (by rw [hmarker]) (by rw [hmarker]; exact hfits), hmarker, h.checksum, hstand]
  rw [bodyVerdict_of_npay (by exact hnpay), hpay]
  rfl

/-- The body on a frame: the verdict of the checksum, and the frame's fields. -/
theorem body_frame (hlen : frameLength base last = payload.length) (hp : p.Holds [])
    (h : FrameAt wo bits p.scan.inv p.scan.pos base last ck payload) :
    body wo bits p
      = (if ck = checksum payload then .ok else .badCrc, p.withJudgedFrame base last ck payload bits.length) := by
  have := frameLength_toNat_lt base last
  rw [body_of_frameAt hlen hp h, bodyChecksum_of_frameAt (by omega) h]

/-- The block after an attempt that the checksum decides. -/
theorem attempted_verdict (v : Prop) [Decidable v] (q : ParState) (s : State) :
    attempted (if v then .ok else .badCrc, q) s = { s with
      bs := { bits := s.bs.bits, cursor := .onBit q.scan.pos, inv := q.scan.inv }
      df := { q.df with
        cls := if v then .ok else .badCrc
        attempt := if v then .ok else .badCrc
        save := decide v }
      pay := q.pay
      resp := answer (if v then 0x01 else 0x02) (decide v) q.scan.inv 0 q.df.npay } := by
  by_cases hv : v
  · rw [if_pos hv, if_pos hv, decide_eq_true hv]
    rfl
  · rw [if_neg hv, if_neg hv, decide_eq_false hv]
    rfl

end

/-! ### The two families (R206, R216) -/

/-- Settles O53: the first marker, then the body on the frame behind it. -/
theorem radioFrameDecodes : Obligations.RadioFrameDecodes := by
  intro s inv base last ck payload hlen hbits
  have hsync : findSync s.bs.bits 0 = (true, { pos := 16, inv := inv }) := by
    rw [hbits]
    exact findSync_tape (pre := []) rfl inv (Nat.zero_le _) (Nat.zero_le _)
  have hframe : FrameAt s.wordOrder s.bs.bits inv 16 base last ck payload := by
    rw [hbits]
    exact frameAt_tape s.wordOrder inv [0x00, 0xE6] base last ck payload
  have hbody := body_frame (p := ParState.cleared { pos := 16, inv := inv }) hlen.symm (ParState.holds_cleared _) hframe
  show execParRadio s = _
  rw [execParRadio, radioAttempt_of_found (by rw [hsync]), hsync, hbody, completeAttempt_eq, attempted_verdict]
  rfl

/-- The name of a header recorded in full is sanitized byte by byte (R217). -/
theorem headerName_of_recorded {bits : List Bool} {sc : Scan} {name : Vector Byte 8} {good : Nat} (hgood : good = 8)
    (h : ∀ k : Fin 8, tapeByte bits sc.inv (sc.pos + 8 * k.val) = name[k].toNat) :
    headerName bits sc good = name.map sanitized := by
  refine Vector.ext fun k hk => ?_
  rw [headerName, Vector.getElem_ofFn, if_pos (by omega), h ⟨k, hk⟩, BitVec.ofNat_toNat, BitVec.setWidth_eq, Vector.getElem_map]
  rfl

/-- Settles O54: the first marker, the header and the zero bytes, then the body on the frame behind the skipped byte. -/
theorem orionFrameDecodes : Obligations.OrionFrameDecodes := by
  intro s inv name skipped base last ck payload hlen hbits
  have hsync : findSync s.bs.bits 0 = (true, { pos := 16, inv := inv }) := by
    rw [hbits]
    exact findSync_tape (pre := []) (post := name.toList ++ List.replicate 8 0x00 ++ [skipped]
      ++ frameBody s.wordOrder base last ck payload) (by simp only [List.append_assoc, List.nil_append]) inv
      (Nat.zero_le _) (Nat.zero_le _)
  have hname : ∀ k : Fin 8, tapeByte s.bs.bits inv (16 + 8 * k.val) = name[k].toNat := by
    intro k
    rw [hbits]
    exact tapeByte_tape (pre := [0x00, 0xE6]) (mid := name.toList) (post := List.replicate 8 0x00 ++ [skipped]
      ++ frameBody s.wordOrder base last ck payload) (by simp only [List.append_assoc]) (by simp) inv
  have hzero : ∀ k, k < 8 → tapeByte s.bs.bits inv (80 + 8 * k) = 0 := by
    intro k hk
    have hpos : 80 = 8 * (([0x00, 0xE6] : List Byte) ++ name.toList).length := by simp
    rw [hbits, hpos]
    exact tapeByte_tape (mid := List.replicate 8 0x00) (post := [skipped] ++ frameBody s.wordOrder base last ck payload)
      (by simp only [List.append_assoc]) (List.getElem?_replicate_of_lt hk) inv
  have hframe : FrameAt s.wordOrder s.bs.bits inv 152 base last ck payload := by
    have hpos : 152 = 8 * ([0x00, 0xE6] ++ name.toList ++ List.replicate 8 0x00 ++ [skipped]).length := by simp
    rw [hbits, hpos]
    exact frameAt_tape s.wordOrder inv _ base last ck payload
  have hroom := hframe.length
  have hheader : headerName s.bs.bits { pos := 16, inv := inv } (min 8 ((s.bs.bits.length - 16) / 8)) = name.map sanitized :=
    headerName_of_recorded (by omega) hname
  have hbody := body_frame (p := { ParState.withHeader s.bs.bits { pos := 16, inv := inv } 8 .header with
    scan := { pos := 152, inv := inv } }) hlen.symm ⟨rfl, rfl⟩ hframe
  have horion : orionAttempt s.wordOrder s.bs.bits = _ :=
    (orionAttempt_of_le (sc := { pos := 16, inv := inv }) (by rw [hsync]) (by rw [hsync]) (by show 16 + 64 ≤ _; omega)).trans
      ((orionZeros_of_zero (by rintro ⟨k, hk, hne⟩; exact hne (hzero k hk))).trans hbody)
  show execParOrion s = _
  rw [execParOrion, horion, completeAttempt_eq, attempted_verdict, ← hheader]
  rfl

end Sys2Proof.Machine

/-! PROOFS. `PAR_CLASSIFY`, the raw capture, the policy of `PAR_AUTO` and the flag `DF.save` (spec/43_parser.md R204, R221 to
R226). -/

namespace Sys2Proof.Machine

/-! ### Classification (R204, R205) -/

section

variable {bits : List Bool} {sc : Scan}

theorem printable_eq_false_iff (v : Byte) : printable v = false ↔ v.toNat < 0x20 ∨ 0x7F < v.toNat := by
  rw [printable, Bool.and_eq_false_iff, decide_eq_false_iff_not, decide_eq_false_iff_not, Nat.not_le, Nat.not_le]
  rfl

/-- One of the bytes read is outside the printable range exactly when one of those windows is. -/
theorem readBytes_any_not_printable_iff (n : Nat) :
    (readBytes bits n sc).1.any (fun v => !printable v) = true ↔
      ∃ k, k < n ∧ (tapeByte bits sc.inv (sc.pos + 8 * k) < 0x20 ∨ 0x7F < tapeByte bits sc.inv (sc.pos + 8 * k)) := by
  simp only [List.any_eq_true, mem_readBytes, hex_eq_tapeByte, Bool.not_eq_true', printable_eq_false_iff]
  constructor
  · rintro ⟨_, ⟨k, hk, rfl⟩, hout⟩
    rw [tapeByte_toNat] at hout
    exact ⟨k, hk, hout⟩
  · rintro ⟨k, hk, hout⟩
    rw [← tapeByte_toNat] at hout
    exact ⟨_, ⟨k, hk, rfl⟩, hout⟩

theorem readBytes_any_not_printable_of_in_range {n : Nat}
    (hin : ∀ k, k < n → 0x20 ≤ tapeByte bits sc.inv (sc.pos + 8 * k) ∧ tapeByte bits sc.inv (sc.pos + 8 * k) ≤ 0x7F) :
    ¬ (readBytes bits n sc).1.any (fun v => !printable v) = true := by
  rw [readBytes_any_not_printable_iff]
  rintro ⟨k, hk, hout⟩
  have := hin k hk
  omega

theorem readBytes_all_zero_iff (n : Nat) :
    (readBytes bits n sc).1.all (fun v => v == 0) = true ↔ ∀ k, k < n → tapeByte bits sc.inv (sc.pos + 8 * k) = 0 := by
  have hany := not_congr (readBytes_any_ne_zero_iff (bits := bits) (sc := sc) n)
  rw [List.all_eq_not_any_not, Bool.not_eq_true', ← Bool.not_eq_true]
  refine hany.trans ⟨fun hno k hk => ?_, fun hzero => ?_⟩
  · exact not_not.1 fun hne => hno ⟨k, hk, hne⟩
  · rintro ⟨k, hk, hne⟩
    exact hne (hzero k hk)

theorem classify_of_not_found (h : (findSync bits 0).1 = false) :
    classify bits = (.noSync, { pos := bits.length + 1, inv := false }) := by
  simp only [classify, h, findSync_zero_of_not_found h]
  rfl

variable (h : (findSync bits 0).1 = true) (hsc : (findSync bits 0).2 = sc)
include h hsc

/-- `Classify` behind the first marker, its two tests in the terms of the statements. -/
theorem classify_of_found : classify bits =
    if (readBytes bits 8 sc).1.any (fun v => !printable v) then (.radio, sc.advance 64)
    else if (readBytes bits 8 (sc.advance 64)).1.all (fun v => v == 0) then (.orion, sc.advance 128)
    else (.noHeader, sc.advance 128) := by
  simp only [classify, h, hsc, readBytes_scan, Config.hdrBytes, Config.zeroBytes, Scan.advance_advance]
  rfl

/-- The flag after the classification is the marker's (R204). -/
theorem classify_inv : (classify bits).2.inv = sc.inv := by
  rw [classify_of_found h hsc]
  split
  · rfl
  · split <;> rfl

theorem classify_of_not_printable
    (hout : ∃ k, k < 8 ∧ (tapeByte bits sc.inv (sc.pos + 8 * k) < 0x20 ∨ 0x7F < tapeByte bits sc.inv (sc.pos + 8 * k))) :
    classify bits = (.radio, sc.advance 64) := by
  rw [classify_of_found h hsc, if_pos ((readBytes_any_not_printable_iff 8).2 hout)]

variable
  (hin : ∀ k, k < 8 → 0x20 ≤ tapeByte bits sc.inv (sc.pos + 8 * k) ∧ tapeByte bits sc.inv (sc.pos + 8 * k) ≤ 0x7F)
include hin

theorem classify_of_zero (hzero : ∀ k, k < 8 → tapeByte bits sc.inv (sc.pos + 64 + 8 * k) = 0) :
    classify bits = (.orion, sc.advance 128) := by
  rw [classify_of_found h hsc, if_neg (readBytes_any_not_printable_of_in_range hin), if_pos ((readBytes_all_zero_iff 8).2 hzero)]

theorem classify_of_ne_zero (hne : ∃ k, k < 8 ∧ tapeByte bits sc.inv (sc.pos + 64 + 8 * k) ≠ 0) :
    classify bits = (.noHeader, sc.advance 128) := by
  obtain ⟨k, hk, hne⟩ := hne
  rw [classify_of_found h hsc, if_neg (readBytes_any_not_printable_of_in_range hin),
    if_neg fun hall => hne ((readBytes_all_zero_iff 8).1 hall k hk)]

end

/-- The block after a classification that ended as `c` (R204). -/
def classified (c : DecodeCode × Scan) (s : State) : State :=
  { s with
    bs := { bits := s.bs.bits, cursor := .onBit c.2.pos, inv := c.2.inv }
    df := { DataFile.cleared with ctype := c.1 }
    pay := []
    resp := answer (outcomeNumber c.1) false c.2.inv 0 0 }

theorem exec_parClassify (s : State) : exec .parClassify s = .next (classified (classify s.bs.bits) s) := by
  rw [classified, outcomeNumber_eq_code]
  exact complete_eq ..

/-- Settles O52: the search for the marker, the header bytes, then the bytes after them. -/
theorem classifyByHeader : Obligations.ClassifyByHeader := by
  refine ⟨rfl, fun s => ⟨_, _, _, _, exec_parClassify s, fun h => ?_, fun h => ?_⟩⟩
  · rw [classify_of_not_found h]
    exact ⟨rfl, rfl, rfl, rfl⟩
  · obtain ⟨sc, hsc⟩ : ∃ sc, (findSync s.bs.bits 0).2 = sc := ⟨_, rfl⟩
    rw [classify_inv h hsc]
    refine ⟨sc.pos, hsc, fun hout => ?_, fun hin => ⟨fun hzero => ?_, fun hne => ?_⟩⟩
    · rw [classify_of_not_printable h hsc hout]
      exact ⟨rfl, rfl, rfl⟩
    · rw [classify_of_zero h hsc hin hzero]
      exact ⟨rfl, rfl, rfl⟩
    · rw [classify_of_ne_zero h hsc hin hne]
      exact ⟨rfl, rfl, rfl⟩

/-! ### The raw capture (R221, R222) -/

/-- `DF` after a raw capture of `n` bytes, before it is concluded. -/
def rawFile (n : Nat) : DataFile :=
  { DataFile.cleared with
    len := BitVec.ofNat 32 n
    endAddr := BitVec.ofInt 32 (n - 1)
    npay := BitVec.ofNat 32 n }

theorem ofNat_sub_one_eq_ofInt (n : Nat) : BitVec.ofNat 32 n - 1 = BitVec.ofInt 32 ((n : Int) - 1) := by
  rw [← BitVec.ofInt_natCast, BitVec.sub_eq_add_neg, Int.sub_eq_add_neg, BitVec.ofInt_add]
  rfl

theorem rawAttempt_of_not_found {bits : List Bool} (h : findSyncBit bits 0 = (false, { pos := bits.length + 1, inv := false })) :
    rawAttempt bits = { scan := { pos := bits.length + 1, inv := false }, df := rawFile 0, pay := [] } := by
  simp only [rawAttempt, h]
  rfl

theorem rawAttempt_of_found {bits : List Bool} {sc : Scan} (h : findSyncBit bits 0 = (true, sc)) (hlt : bits.length < 2 ^ 32) :
    rawAttempt bits =
      { scan := sc.advance (8 * ((bits.length - sc.pos + 7) / 8))
        df := rawFile ((bits.length - sc.pos + 7) / 8)
        pay := payloadFrom 0 (readBytes bits ((bits.length - sc.pos + 7) / 8) sc).1 } := by
  obtain ⟨⟨scan, df, pay⟩, n, rfl, hloop, ⟨hpay, -⟩, hdf, hscan⟩ := rawLoop_eq bits bits.length (ParState.cleared sc) []
    (ParState.holds_cleared sc) (by rwa [List.length_nil, Nat.zero_add]) (by omega)
  simp only [List.length_nil, Nat.zero_add, List.nil_append, ParState.cleared_scan, ParState.cleared_df] at hpay hdf hscan
  simp only [rawAttempt, h, if_true, hloop, hpay, hdf, hscan, ofNat_sub_one_eq_ofInt]
  rfl

/-- The block after a raw capture (R221). -/
theorem exec_parRaw (s : State) : exec .parRaw s = .next (attempted (.raw, rawAttempt s.bs.bits) s) := completeAttempt_eq ..

/-- The block with the cursor before start and the flag 0, as every parse begins (R203). -/
def rewound (s : State) : State := { s with bs := { s.bs with cursor := .beforeStart, inv := false } }

theorem exec_bsFind_syncBit (s : State) :
    exec (.bsFind 16 0x0080 0xFF80) (rewound s) = .next (searched (findSyncBit s.bs.bits 0) (rewound s)) :=
  execBsFind_of_legal (by decide) (by decide) (by decide) (rewound s)

/-- Settles O57: the search for the marker, then the bytes the loop stores. -/
theorem rawCaptureReadsToEnd : Obligations.RawCaptureReadsToEnd := by
  refine ⟨rfl, fun s hlt => ?_⟩
  have hfind := exec_bsFind_syncBit s
  have hraw := exec_parRaw s
  rcases findSyncBit_cases s.bs.bits 0 with ⟨sc, hsync, -, hend, -⟩ | hsync
  · rw [hsync] at hfind
    rw [rawAttempt_of_found hsync hlt] at hraw
    refine ⟨_, sc.pos, _, _, sc.inv, _, hfind, rfl, statusByte_of_resp rfl, hraw, fun hnone => ?_,
      fun _ => ⟨rfl, rfl, rfl, ?_, ?_, fun i => read_payloadFrom_readBytes ..⟩⟩
    · rw [resultBit_of_resp rfl] at hnone
      cases hnone
    · show s.bs.bits.length ≤ sc.pos + 8 * ((s.bs.bits.length - sc.pos + 7) / 8)
      omega
    · show sc.pos + 8 * ((s.bs.bits.length - sc.pos + 7) / 8) ≤ s.bs.bits.length + 7
      omega
  · rw [Nat.max_eq_right (Nat.zero_le _)] at hsync
    rw [hsync] at hfind
    rw [rawAttempt_of_not_found hsync] at hraw
    refine ⟨_, s.bs.bits.length + 1, 0, _, false, _, hfind, rfl, statusByte_of_resp rfl, hraw,
      fun _ => ⟨rfl, rfl, rfl, rfl⟩, fun hfound => ?_⟩
    rw [resultBit_of_resp rfl] at hfound
    cases hfound

/-! ### The policy (R224, R225) -/

/-- The classification is one of four codes (R204). -/
theorem classify_code (bits : List Bool) : (classify bits).1 = .radio ∨ (classify bits).1 = .orion ∨
    (classify bits).1 = .noSync ∨ (classify bits).1 = .noHeader := by
  unfold classify
  dsimp only
  split
  · exact .inr (.inr (.inl rfl))
  · split
    · exact .inl rfl
    · split
      · exact .inr (.inl rfl)
      · exact .inr (.inr (.inr rfl))

theorem exec_parRadio (s : State) :
    exec .parRadio s = .next (attempted (radioAttempt s.wordOrder s.bs.bits) s) := completeAttempt_eq ..

theorem exec_parOrion (s : State) :
    exec .parOrion s = .next (attempted (orionAttempt s.wordOrder s.bs.bits) s) := completeAttempt_eq ..

/-- The numbers of two codes in the halves of `aux` (R96, R224). -/
theorem codes_append (c d : DecodeCode) :
    c.code ++ d.code = BitVec.ofNat 16 (256 * (outcomeNumber c).toNat + (outcomeNumber d).toNat) := by
  apply BitVec.eq_of_toNat_eq
  have := c.code.isLt
  have := d.code.isLt
  rw [toNat_append_eq_add, outcomeNumber_eq_code, outcomeNumber_eq_code, BitVec.toNat_ofNat]
  omega

/-- The block `u` after an attempt with the code of the attempt and the classification put beside (R224). -/
def withVerdict (u : State) (code ctype : DecodeCode) : State :=
  { u with
    df := { u.df with attempt := code, ctype := ctype }
    resp := answer (outcomeNumber u.df.cls) u.df.save u.bs.inv
      (BitVec.ofNat 16 (256 * (outcomeNumber ctype).toNat + (outcomeNumber code).toNat)) u.df.npay }

/-- The attempt of the policy, where its code lets it stand, otherwise the raw capture (R225). -/
def attemptKept (s : State) (a : DecodeCode × ParState) : DecodeCode × ParState :=
  if a.1 = .ok ∨ a.1 = .badCrc then a else (.raw, rawAttempt s.bs.bits)

theorem exec_parAuto_eq (s : State) : exec .parAuto s = .next (withVerdict
    (attempted (attemptKept s (structuredAttempt s.wordOrder s.bs.bits (classify s.bs.bits))) s)
    (structuredAttempt s.wordOrder s.bs.bits (classify s.bs.bits)).1 (classify s.bs.bits).1) := by
  rw [withVerdict, ← codes_append, outcomeNumber_eq_code]
  exact complete_eq ..

/-- The code of the attempt the policy makes (R224). -/
theorem structuredAttempt_code (wo : WordOrder) (bits : List Bool) (c : DecodeCode × Scan) :
    (structuredAttempt wo bits c).1 =
      if c.1 = .radio then (radioAttempt wo bits).1 else if c.1 = .orion then (orionAttempt wo bits).1 else c.1 := by
  unfold structuredAttempt
  split
  · next hc => rw [if_pos hc]
  · next hc => rw [if_neg (by rw [hc]; nofun), if_pos hc]
  · next hradio horion => rw [if_neg hradio, if_neg horion]

/-- An attempt of the policy that stands is that of one of the two families: no classification is a code that stands. -/
theorem structuredAttempt_of_stands {wo : WordOrder} {bits : List Bool}
    (h : (structuredAttempt wo bits (classify bits)).1 = .ok ∨ (structuredAttempt wo bits (classify bits)).1 = .badCrc) :
    structuredAttempt wo bits (classify bits)
      = if (classify bits).1 = .radio then radioAttempt wo bits else orionAttempt wo bits := by
  rw [structuredAttempt_code] at h
  rcases classify_code bits with hc | hc | hc | hc
  · simp [structuredAttempt, hc]
  · simp [structuredAttempt, hc]
  · simp [hc] at h
  · simp [hc] at h

/-- Settles O58: the attempt that the classification names, then the two ends of the policy. -/
theorem autoPolicyFallsBackToRaw : Obligations.AutoPolicyFallsBackToRaw := by
  refine ⟨rfl, fun s => ⟨_, _, _, _, _, exec_parClassify s, exec_parRadio s, exec_parOrion s, exec_parRaw s,
    exec_parAuto_eq s, ?_⟩⟩
  intro code kept u
  have hcode : code = (structuredAttempt s.wordOrder s.bs.bits (classify s.bs.bits)).1 := (structuredAttempt_code ..).symm
  have hu : u = attempted (attemptKept s (structuredAttempt s.wordOrder s.bs.bits (classify s.bs.bits))) s := by
    show (if code = .ok ∨ code = .badCrc then kept else _) = _
    rw [hcode, attemptKept]
    split
    · next h =>
      rw [structuredAttempt_of_stands h]
      exact (apply_ite (attempted · s) ..).symm
    · rfl
  rw [hcode, hu]
  rfl

/-! ### `DF.save` (R226) -/

/-- R226 of a `DF`. -/
def DataFile.SavesWhenOk (f : DataFile) : Prop := f.save = true ↔ f.cls = .ok

theorem attempted_savesWhenOk (r : DecodeCode × ParState) (s : State) : (attempted r s).df.SavesWhenOk := beq_iff_eq

/-- Every parse command writes `DF.save` from `DF.class`; a classification leaves both cleared. -/
theorem exec_par_savesWhenOk {i : Instr} {s t : State} (hi : unitOf i = .par) (ht : exec i s = .next t) : t.df.SavesWhenOk := by
  cases i with
  | parClassify =>
    obtain rfl := Host.Outcome.next.inj ((exec_parClassify s).symm.trans ht)
    exact ⟨nofun, nofun⟩
  | parRadio =>
    obtain rfl := Host.Outcome.next.inj ((exec_parRadio s).symm.trans ht)
    exact attempted_savesWhenOk ..
  | parOrion =>
    obtain rfl := Host.Outcome.next.inj ((exec_parOrion s).symm.trans ht)
    exact attempted_savesWhenOk ..
  | parRaw =>
    obtain rfl := Host.Outcome.next.inj ((exec_parRaw s).symm.trans ht)
    exact attempted_savesWhenOk ..
  | parAuto =>
    obtain rfl := Host.Outcome.next.inj ((exec_parAuto_eq s).symm.trans ht)
    exact attempted_savesWhenOk _ s
  | _ => cases hi

theorem exec_reset_df {s t : State} (ht : exec .reset s = .next t) : t.df = DataFile.cleared := by
  obtain rfl := (complete_eq_next_iff ..).1 ht
  rfl

/-- Settles O59: the parse commands and `RESET` write both fields, no other command writes `DF`. -/
theorem saveExactlyWhenOk : Obligations.SaveExactlyWhenOk := by
  refine ⟨⟨nofun, nofun⟩, fun i s t ht hi => ?_⟩
  by_cases hpar : unitOf i = .par
  · exact exec_par_savesWhenOk hpar ht
  · by_cases hreset : i = .reset
    · subst hreset
      rw [exec_reset_df ht]
      exact ⟨nofun, nofun⟩
    · obtain ⟨-, -, -, hdf, -⟩ := onlyOwnersWrite s t i ht
      rw [(hdf hreset hpar).1]
      exact (hi.resolve_left hpar).resolve_left hreset

end Sys2Proof.Machine

/-! PROOFS. The commands of unit SYS but `RDREG` (spec/44_system.md R241, R245 to R250, spec/70_reset_and_hazards.md R291). -/

namespace Sys2Proof.Machine

/-! ### `RESET` (R241, R291) -/

theorem exec_reset (s : State) : exec .reset s = .next
    { State.reset with
      wordOrder := s.wordOrder, sizes := s.sizes, cmds := s.cmds
      resp := answer 0x80 false false 0 0 } := complete_eq ..

theorem Stats.empty_registers : Stats.empty.count = 0 ∧ Stats.empty.sum = 0 ∧ Stats.empty.sq = 0 ∧ Stats.empty.minVal = none
    ∧ Stats.empty.maxVal = none ∧ ∀ v, Stats.empty.hist.read v = 0 :=
  ⟨rfl, rfl, rfl, rfl, rfl, fun _ => rfl⟩

/-- Settles O18: the registers of the block after `RESET`, group by group in the order of R291's table. -/
theorem resetRestoresEveryRegister : Obligations.ResetRestoresEveryRegister := by
  refine ⟨by decide, fun s => ⟨_, exec_reset s, ?cfg⟩⟩
  refine ⟨rfl, rfl, rfl, ?seg⟩
  refine ⟨rfl, rfl, rfl, rfl, rfl, ?dem⟩
  refine ⟨rfl, rfl, rfl, ?stats, ?bs⟩
  case stats => exact List.forall_mem_cons.2 ⟨Stats.empty_registers, List.forall_mem_singleton.2 Stats.empty_registers⟩
  refine ⟨rfl, rfl, rfl, ?df⟩
  refine ⟨rfl, rfl, rfl, rfl, rfl, rfl, rfl, rfl, rfl, fun k => Vector.getElem_replicate k.isLt, rfl, rfl, ?sys⟩
  exact ⟨fun _ => rfl, rfl, rfl, rfl, rfl, rfl⟩

/-! ### `WRREG` (R245, R246) -/

theorem encodesAs_wrreg (reg : BitVec 8) (value : BitVec 32) : encodesAs (.wrreg reg value) 0x03 reg.toNat value.toNat :=
  commandWord_toNat 0x03 reg value

theorem exec_wrreg_of_some {s : State} {reg : BitVec 8} {value : BitVec 32} {c : Cfg}
    (h : writeCfg s.sizes s.cfg reg value = some c) :
    exec (.wrreg reg value) s = .next { s with cfg := c, resp := answer 0x80 false s.bs.inv 0 value } := by
  show execWrreg reg value s = _
  rw [execWrreg, h]
  exact complete_eq ..

theorem exec_wrreg_of_none {s : State} {reg : BitVec 8} {value : BitVec 32} (h : writeCfg s.sizes s.cfg reg value = none) :
    exec (.wrreg reg value) s = .next (s.refusedWith 0x02 0xE1) := by
  show execWrreg reg value s = _
  rw [execWrreg, h]
  exact refuse_eq ..

/-- R23: the values 0 to 2 name a channel, no other value does. -/
theorem channelOfValue_eq (value : BitVec 32) : channelOfValue value =
    if value.toNat ≤ 2 then some (if value.toNat = 0 then .left else if value.toNat = 1 then .right else .both) else none := by
  unfold channelOfValue
  split
  · next h => rw [h]; rfl
  · next h => rw [h]; rfl
  · next h => rw [h]; rfl
  · next h0 h1 h2 =>
    have hne : value.toNat ≠ 0 ∧ value.toNat ≠ 1 ∧ value.toNat ≠ 2 := ⟨h0, h1, h2⟩
    exact (if_neg (by omega)).symm

section
variable (z : Sizes) (c : Cfg) {reg : BitVec 8} (value : BitVec 32)

theorem writeCfg_channel (h : reg.toNat = 0) : writeCfg z c reg value = if value.toNat ≤ 2 then
    some { c with channel := if value.toNat = 0 then .left else if value.toNat = 1 then .right else .both } else none := by
  simp only [writeCfg, h, channelOfValue_eq]
  split <;> rfl

theorem writeCfg_deltaPct (h : reg.toNat = 1) : writeCfg z c reg value =
    if 1 ≤ value.toNat ∧ value.toNat ≤ 99 then some { c with deltaPct := BitVec.ofNat 7 value.toNat } else none := by
  simp only [writeCfg, h, BitVec.ofNat_toNat]

theorem writeCfg_toneLen (h : reg.toNat = 2) : writeCfg z c reg value =
    if 1 ≤ value.toNat ∧ value.toNat ≤ 2 ^ z.cntW - 1 then some { c with toneLen := value.toNat } else none := by
  simp only [writeCfg, h]

theorem writeCfg_of_two_lt (h : 2 < reg.toNat) : writeCfg z c reg value = none := by
  unfold writeCfg
  split
  · omega
  · omega
  · omega
  · rfl

end

/-- Settles O20: one branch for each writable register, and the refusal of what is in none of them. -/
theorem wrregWritesConfiguration : Obligations.WrregWritesConfiguration := by
  refine fun s reg v => ⟨encodesAs_wrreg reg v, ?_⟩
  split
  · next h => exact exec_wrreg_of_some ((writeCfg_channel _ _ v h.1).trans (if_pos h.2))
  split
  · next h => exact exec_wrreg_of_some ((writeCfg_deltaPct _ _ v h.1).trans (if_pos h.2))
  split
  · next h => exact exec_wrreg_of_some ((writeCfg_toneLen _ _ v h.1).trans (if_pos h.2))
  next hchannel hdelta htone =>
  refine exec_wrreg_of_none ?_
  obtain h | h | h | h : reg.toNat = 0 ∨ reg.toNat = 1 ∨ reg.toNat = 2 ∨ 2 < reg.toNat := by omega
  · exact (writeCfg_channel _ _ v h).trans (if_neg fun hv => hchannel ⟨h, hv⟩)
  · exact (writeCfg_deltaPct _ _ v h).trans (if_neg fun hv => hdelta ⟨h, hv⟩)
  · exact (writeCfg_toneLen _ _ v h).trans (if_neg fun hv => htone ⟨h, hv⟩)
  · exact writeCfg_of_two_lt _ _ v h

/-! ### `RDHIST` (R248) -/

theorem encodesAs_rdhist (cls : BitVec 8) (bin : BitVec 32) : encodesAs (.rdhist cls bin) 0x04 cls.toNat bin.toNat :=
  commandWord_toNat 0x04 cls bin

/-- R248: the classes 0 and 1 name an aggregate, no other class does. -/
theorem statsOfClass_eq (s : State) (cls : BitVec 8) : statsOfClass s cls =
    if cls.toNat ≤ 1 then some (if cls.toNat = 0 then s.stS else s.stL) else none := by
  unfold statsOfClass
  split
  · next h => rw [h]; rfl
  · next h => rw [h]; rfl
  · next h0 h1 =>
    have hne : cls.toNat ≠ 0 ∧ cls.toNat ≠ 1 := ⟨h0, h1⟩
    exact (if_neg (by omega)).symm

theorem part_natCast_zero (n : Nat) : part n 0 = BitVec.ofNat 32 n := by rw [part_zero, BitVec.ofInt_natCast]

/-- Settles O21: the class is refused before the bin. -/
theorem rdhistReadsBin : Obligations.RdhistReadsBin := by
  refine fun s cls bin => ⟨encodesAs_rdhist cls bin, ?_⟩
  show execRdhist cls bin s = _
  rw [execRdhist, statsOfClass_eq]
  by_cases hcls : cls.toNat ≤ 1
  · simp only [hcls, true_and, ↓reduceIte, ← part_natCast_zero]
    split
    · exact complete_eq ..
    · exact refuse_eq ..
  · simp only [hcls, false_and, ↓reduceIte]
    exact refuse_eq ..

/-! ### `RDPAY` (R250) -/

theorem encodesAs_rdpay (index : BitVec 32) : encodesAs (.rdpay index) 0x05 0 index.toNat := commandWord_toNat 0x05 0 index

theorem exec_rdpay_of_le {s : State} {index : BitVec 32} (h : s.df.npay.toNat ≤ index.toNat) :
    exec (.rdpay index) s = .next (s.refusedWith 0x02 0xE1) := (if_pos h).trans (refuse_eq ..)

theorem exec_rdpay_of_read {s : State} {index : BitVec 32} {v : Byte} (hlt : index.toNat < s.df.npay.toNat)
    (h : s.pay.read index.toNat = some v) :
    exec (.rdpay index) s = .next { s with resp := answer 0x80 false s.bs.inv 0 (BitVec.ofNat 32 v.toNat) } := by
  show execRdpay index s = _
  rw [execRdpay, if_neg (Nat.not_le.2 hlt), h, BitVec.ofNat_toNat]
  exact complete_eq ..

/-- Settles O22: a legal state holds the byte (`State.Inv.exists_read_pay`), so the read does not stop. -/
theorem rdpayReadsPayload : Obligations.RdpayReadsPayload := by
  refine ⟨encodesAs_rdpay, fun s index hs => ⟨fun hlt => ?_, exec_rdpay_of_le⟩⟩
  obtain ⟨v, hv⟩ := hs.exists_read_pay hlt
  exact ⟨v, hv, exec_rdpay_of_read hlt hv⟩

end Sys2Proof.Machine

/-! PROOFS. The status bytes of the responses (spec/60_exceptions.md R269, R280): the commands no fault can refuse, and the codes
each command can give. -/

namespace Sys2Proof.Machine

/-! ### The commands no fault can refuse (R269) -/

theorem exec_completedFrom {i : Instr} (h : alwaysCompletes i = true) (s : State) :
    CompletedFrom s (decide (i = .reset)) (exec i s) := by
  obtain ⟨hsegReset, hsegFlush, hdemRearm, hbsReset, hbsOffset, hbsFindSync, hbsTrim, hclassify, hradio, horion, hraw, hauto⟩ :=
    exec_completes s
  cases i with
  | reset => exact ⟨_, _, _, _, _, rfl, fun _ => nofun, rfl⟩
  | segReset => exact hsegReset
  | segFlush => exact hsegFlush
  | demRearm => exact hdemRearm
  | bsReset => exact hbsReset
  | bsOffset n => exact hbsOffset n
  | bsFindSync => exact hbsFindSync
  | bsTrim => exact hbsTrim
  | parClassify => exact hclassify
  | parRadio => exact hradio
  | parOrion => exact horion
  | parRaw => exact hraw
  | parAuto => exact hauto
  | _ => cases h

/-- Settles O10: what a completed command answers, `RESET` being the one that clears `SYS.fault`. -/
theorem unrefusableCommandsComplete : Obligations.UnrefusableCommandsComplete := by
  intro i s hi
  have hcompleted := exec_completedFrom hi s
  obtain ⟨t, ht⟩ := hcompleted.exists_next
  obtain ⟨hstatus, hfault⟩ := hcompleted.statusByte_sysFault ht
  exact ⟨t, ht, hstatus, hfault.trans (if_congr decide_eq_true_iff rfl rfl)⟩

/-! ### The status byte of each end of a command -/

/-- The next state, if there is one, answers a status byte of the list. -/
def StatusIn (codes : List (BitVec 8)) (r : Result) : Prop := ∀ t, r = .next t → t.statusByte ∈ codes

section

variable {codes : List (BitVec 8)} {s : State}

theorem statusIn_complete {st : Status} {b : Bool} {aux : BitVec 16} {val : Reg32} (h : st.code ∈ codes) :
    StatusIn codes (complete st b aux val s) := by
  intro t ht
  rw [statusByte_of_resp (congrArg State.resp ((complete_eq_next_iff ..).1 ht))]
  exact h

theorem statusIn_refuse {f : CmdFault} (h : f.code ∈ codes) : StatusIn codes (refuse f s) := by
  intro t ht
  rw [(refuse_eq_next_iff ..).1 ht, statusByte_refusedWith]
  exact h

theorem statusIn_done {b : Bool} {aux : BitVec 16} {val : Reg32} : StatusIn (0x80 :: codes) (complete .done b aux val s) :=
  statusIn_complete List.mem_cons_self

theorem statusIn_completeEmit (emit : Option Nat) : StatusIn (0x80 :: codes) (completeEmit emit s) := by
  cases emit with
  | none => exact statusIn_done
  | some d => exact statusIn_done

end

/-! ### Units SYS, SEG and BS -/

theorem execRdreg_statusIn (reg : BitVec 8) (s : State) : StatusIn [0x80, 0xE1] (execRdreg reg s) := by
  unfold execRdreg
  split
  · exact statusIn_refuse (by decide)
  · exact statusIn_done

theorem execWrreg_statusIn (reg : BitVec 8) (value : BitVec 32) (s : State) :
    StatusIn [0x80, 0xE1] (execWrreg reg value s) := by
  unfold execWrreg
  split
  · exact statusIn_refuse (by decide)
  · exact statusIn_done

theorem execRdhist_statusIn (cls : BitVec 8) (bin : BitVec 32) (s : State) :
    StatusIn [0x80, 0xE1] (execRdhist cls bin s) := by
  unfold execRdhist
  split
  · exact statusIn_refuse (by decide)
  · split
    · exact statusIn_done
    · exact statusIn_refuse (by decide)

theorem execRdpay_statusIn (index : BitVec 32) (s : State) : StatusIn [0x80, 0xE1] (execRdpay index s) := by
  unfold execRdpay
  split
  · exact statusIn_refuse (by decide)
  · split
    · exact fun _ => nofun
    · exact statusIn_done

theorem execSegAcc_statusIn (l r : Sample) (s : State) : StatusIn [0x80, 0xE2, 0xE4] (execSegAcc l r s) := by
  unfold execSegAcc
  split
  · exact statusIn_refuse (by decide)
  · split
    · exact statusIn_refuse (by decide)
    · exact statusIn_done

theorem execSegSample_statusIn (l r : Sample) (s : State) : StatusIn [0x80, 0xE2, 0xE4] (execSegSample l r s) := by
  unfold execSegSample
  split
  · exact statusIn_refuse (by decide)
  · dsimp only
    split
    · exact statusIn_completeEmit _
    · split
      · exact statusIn_completeEmit _
      · split
        · exact statusIn_refuse (by decide)
        · exact statusIn_completeEmit _

theorem execBsHex_statusIn (w : BitVec 8) (s : State) : StatusIn [0x80, 0xE1, 0xE2] (execBsHex w s) := by
  unfold execBsHex
  split
  · exact statusIn_refuse (by decide)
  · split
    · exact statusIn_refuse (by decide)
    · exact statusIn_done

theorem execBsFind_statusIn (w : BitVec 8) (target mask : BitVec 16) (s : State) :
    StatusIn [0x80, 0xE1] (execBsFind w target mask s) := by
  unfold execBsFind
  split
  · exact statusIn_refuse (by decide)
  · exact statusIn_done

theorem execBsAppend_statusIn (w : BitVec 8) (v : BitVec 16) (s : State) :
    StatusIn [0x80, 0xE1, 0xE3] (execBsAppend w v s) := by
  unfold execBsAppend
  split
  · exact statusIn_refuse (by decide)
  · split
    · exact statusIn_refuse (by decide)
    · exact statusIn_done

/-! ### Unit DEM -/

/-- R280's list for `PUSH_DUR`, the same for every duration. -/
def pushStatuses : List (BitVec 8) := statusValues (.pushDur 0)

theorem DemCode.code_mem_pushStatuses (c : DemCode) : c.code ∈ pushStatuses := by cases c <;> decide

theorem completePush_statusIn (c : DemCode) (before : Nat) (s : State) : StatusIn pushStatuses (completePush c before s) :=
  statusIn_complete c.code_mem_pushStatuses

theorem finishTone_statusIn (s : State) : StatusIn pushStatuses (finishTone s) := by
  unfold finishTone
  split
  · exact completePush_statusIn _ _ _
  · exact completePush_statusIn _ _ _

theorem addTone_statusIn (d : Nat) (s : State) : StatusIn pushStatuses (addTone d s) := by
  unfold addTone
  split
  · split
    · exact statusIn_refuse (by decide)
    · exact finishTone_statusIn _
  · exact finishTone_statusIn _

theorem addDuration_statusIn (d : Nat) (s : State) : StatusIn pushStatuses (addDuration d s) := by
  unfold addDuration
  split
  · exact completePush_statusIn _ _ _
  all_goals
    dsimp only
    split
    · exact statusIn_refuse (by decide)
    · split
      · exact statusIn_refuse (by decide)
      · exact completePush_statusIn _ _ _

theorem execPushDur_statusIn (d : Duration) (s : State) : StatusIn pushStatuses (execPushDur d s) := by
  unfold execPushDur
  split
  · exact statusIn_refuse (by decide)
  · exact addTone_statusIn _ _
  · exact addDuration_statusIn _ _

/-! ### Unit PAR: the codes with which a decode can end -/

/-- The ends of the body common to both families (R208 to R215). -/
def bodyCodes : List DecodeCode :=
  [.ok, .badCrc, .noBase, .noLength, .negativeLength, .wrongLength, .noSyncCrc, .noCrc]

section

variable (wo : WordOrder) (bits : List Bool) (p : ParState)

theorem bodyVerdict_code : (bodyVerdict p).1 ∈ bodyCodes := by
  unfold bodyVerdict
  dsimp only
  split
  · decide
  · decide

theorem bodyChecksum_code : (bodyChecksum wo bits p).1 ∈ bodyCodes := by
  unfold bodyChecksum
  dsimp only
  split
  · exact (by decide : .noSyncCrc ∈ bodyCodes)
  · split
    · exact (by decide : .noCrc ∈ bodyCodes)
    · exact bodyVerdict_code _

theorem bodyPayload_code (len : Nat) : (bodyPayload wo bits len p).1 ∈ bodyCodes := by
  unfold bodyPayload
  dsimp only
  split
  · exact (by decide : .wrongLength ∈ bodyCodes)
  · exact bodyChecksum_code ..

theorem bodyEnd_code : (bodyEnd wo bits p).1 ∈ bodyCodes := by
  unfold bodyEnd
  dsimp only
  split
  · exact (by decide : .noLength ∈ bodyCodes)
  · split
    · exact (by decide : .negativeLength ∈ bodyCodes)
    · exact bodyPayload_code ..

theorem body_code : (body wo bits p).1 ∈ bodyCodes := by
  unfold body
  dsimp only
  split
  · exact (by decide : .noBase ∈ bodyCodes)
  · exact bodyEnd_code ..

theorem radioAttempt_code : (radioAttempt wo bits).1 ∈ .noSync :: bodyCodes := by
  unfold radioAttempt
  dsimp only
  split
  · exact List.mem_cons_self
  · exact List.mem_cons_of_mem _ (body_code ..)

theorem orionZeros_code : (orionZeros wo bits p).1 ∈ .notOrion :: bodyCodes := by
  unfold orionZeros
  dsimp only
  split
  · exact List.mem_cons_self
  · exact List.mem_cons_of_mem _ (body_code ..)

theorem orionAttempt_code : (orionAttempt wo bits).1 ∈ .noSync :: .noHeader :: .notOrion :: bodyCodes := by
  unfold orionAttempt
  dsimp only
  split
  · exact List.mem_cons_self
  · split
    · exact List.mem_cons_of_mem _ List.mem_cons_self
    · exact List.mem_cons_of_mem _ (List.mem_cons_of_mem _ (orionZeros_code ..))

end

/-- What stands after the policy is a structured decode that compared its checksum, or the raw capture (R225). -/
theorem attemptKept_code (s : State) (a : DecodeCode × ParState) : (attemptKept s a).1 ∈ [.ok, .badCrc, .raw] := by
  unfold attemptKept
  split
  · next h =>
    rcases h with h | h
    · rw [h]; decide
    · rw [h]; decide
  · exact (by decide : .raw ∈ [DecodeCode.ok, .badCrc, .raw])

theorem completeAttempt_statusIn {s : State} {r : DecodeCode × ParState} {ends : List DecodeCode} {codes : List (BitVec 8)}
    (hr : r.1 ∈ ends) (hends : ∀ c ∈ ends, c.code ∈ codes) : StatusIn codes (completeAttempt r s) :=
  statusIn_complete (hends _ hr)

theorem execParClassify_statusIn (s : State) : StatusIn [0x10, 0x17, 0x20, 0x21] (execParClassify s) := by
  refine statusIn_complete (?_ : (classify s.bs.bits).1.code ∈ _)
  rcases classify_code s.bs.bits with h | h | h | h
  all_goals
    rw [h]
    decide

theorem exec_parAuto_statusIn (s : State) : StatusIn [0x01, 0x02, 0x03] (exec .parAuto s) := by
  have hcode : ∀ c ∈ [DecodeCode.ok, .badCrc, .raw], outcomeNumber c ∈ [(0x01 : BitVec 8), 0x02, 0x03] := by decide
  intro t ht
  obtain rfl := Host.Outcome.next.inj ((exec_parAuto_eq s).symm.trans ht)
  rw [statusByte_of_resp rfl]
  exact hcode _ (attemptKept_code ..)

/-! ### Every command (R280) -/

theorem exec_statusIn (i : Instr) (s : State) : StatusIn (statusValues i) (exec i s) := by
  cases i with
  | reset => exact statusIn_done
  | rdreg reg => exact execRdreg_statusIn reg s
  | wrreg reg value => exact execWrreg_statusIn reg value s
  | rdhist cls bin => exact execRdhist_statusIn cls bin s
  | rdpay index => exact execRdpay_statusIn index s
  | segReset => exact statusIn_done
  | segAcc l r => exact execSegAcc_statusIn l r s
  | segSample l r => exact execSegSample_statusIn l r s
  | segFlush => exact statusIn_completeEmit _
  | demRearm => exact statusIn_done
  | pushDur d => exact execPushDur_statusIn d s
  | bsReset => exact statusIn_done
  | bsOffset n => exact statusIn_done
  | bsHex w => exact execBsHex_statusIn w s
  | bsFind w target mask => exact execBsFind_statusIn w target mask s
  | bsFindSync => exact statusIn_done
  | bsTrim => exact statusIn_done
  | bsAppend w v => exact execBsAppend_statusIn w v s
  | parClassify => exact execParClassify_statusIn s
  | parRadio => exact completeAttempt_statusIn (radioAttempt_code ..) (by decide)
  | parOrion => exact completeAttempt_statusIn (orionAttempt_code ..) (by decide)
  | parRaw => exact completeAttempt_statusIn (ends := [.raw]) List.mem_cons_self (by decide)
  | parAuto => exact exec_parAuto_statusIn s

/-- Settles O13: a word that decodes answers as its command does; a reserved word is refused with `F_OP`. -/
theorem statusValuesOfCommands : Obligations.StatusValuesOfCommands := by
  intro s t cw rest hc ht
  cases hd : decode cw with
  | ok i =>
    rw [step_of_decode_ok hc hd] at ht
    exact exec_statusIn i _ t ht
  | reserved e =>
    rw [step_of_decode_reserved hc hd, refuse_eq] at ht
    obtain rfl := Host.Outcome.next.inj ht
    exact statusByte_refusedWith ..

end Sys2Proof.Machine

/-! PROOFS. The state after reset is legal (spec/70_reset_and_hazards.md R291), and the units SEG and DEM share no state (R298). A
SEG command or a `PUSH_DUR` has an effect on the registers of its own unit, may raise fault bits and gives a response; each of the
two, run after an effect of the other, answers what it answers without it, with that effect on its next state. -/

namespace Sys2Proof.Machine

/-! ### The state after reset (R291) -/

/-- The default sizes are within the bounds of R13. -/
theorem Sizes.legal_default : Sizes.default.Legal where
  sample := by decide
  duration := by decide
  count := by decide
  sum := by decide
  square := by decide
  segSum := by decide
  bins := by decide
  bits := by decide
  bytes := by decide

/-- Settles O8: the reset state is legal under all legal sizes, and the default sizes are legal. -/
theorem resetStateIsLegal : Obligations.ResetStateIsLegal := State.inv_reset Sizes.legal_default .firstLow []

/-! ### The effects of the two units -/

/-- What a SEG command writes beside the response: the segmenter's registers and the fault bits it raises. -/
structure SegEffect where
  seg : Seg
  raised : BitVec 8

/-- What a `PUSH_DUR` writes beside the response: the demodulator, the statistics, the bits appended and the fault bits it
raises. -/
structure PushEffect where
  dem : Dem
  stS : Stats
  stL : Stats
  new : List Bool
  raised : BitVec 8

def State.withSegEffect (s : State) (e : SegEffect) (resp : Option Word64) : State :=
  { s with seg := e.seg, sysFault := s.sysFault ||| e.raised, resp := resp }

def State.withPushEffect (s : State) (e : PushEffect) (resp : Option Word64) : State :=
  { s with
    dem := e.dem
    stS := e.stS
    stL := e.stL
    bs := s.bs.append e.new
    sysFault := s.sysFault ||| e.raised
    resp := resp }

/-- An answer whose next state, if it has one, takes a segmenter effect and keeps its response. -/
def Result.withSegEffect (e : SegEffect) : Result → Result := mapNext fun t => t.withSegEffect e t.resp

/-- An answer whose next state, if it has one, takes a push effect and keeps its response. -/
def Result.withPushEffect (e : PushEffect) : Result → Result := mapNext fun t => t.withPushEffect e t.resp

/-- Any command but `RESET` only adds fault bits (R47). -/
theorem exec_sysFault_eq_or {s t : State} {i : Instr} (hi : i ≠ .reset) (ht : exec i s = .next t) :
    ∃ raised, t.sysFault = s.sysFault ||| raised := by
  rcases exec_answersItsFault hi ht with ⟨-, hkept⟩ | ⟨p, -, -, hraised⟩
  · exact ⟨0, hkept.trans BitVec.or_zero.symm⟩
  · exact ⟨p.1, hraised⟩

/-- A SEG command has no effect but a segmenter effect. -/
theorem exec_seg_eq_withSegEffect {s t : State} {i : Instr} (hi : unitOf i = .seg) (ht : exec i s = .next t) :
    ∃ e, t = s.withSegEffect e t.resp := by
  have hne : i ≠ .reset := by rintro rfl; cases hi
  obtain ⟨raised, hfault⟩ := exec_sysFault_eq_or hne ht
  cases exec_writes i s t ht with
  | response => exact ⟨⟨s.seg, raised⟩, by rw [State.withSegEffect, ← hfault]⟩
  | seg _ g => exact ⟨⟨g, raised⟩, by rw [State.withSegEffect, ← hfault]⟩
  | scan hbs | parse hbs => rw [hbs] at hi; cases hi
  | _ => cases hi

/-- `PUSH_DUR` has no effect but a push effect. -/
theorem exec_pushDur_eq_withPushEffect {s t : State} {d : Duration} (ht : exec (.pushDur d) s = .next t) :
    ∃ e, t = s.withPushEffect e t.resp := by
  obtain ⟨raised, hfault⟩ := exec_sysFault_eq_or (i := .pushDur d) nofun ht
  cases exec_writes _ s t ht with
  | response =>
    exact ⟨⟨s.dem, s.stS, s.stL, [], raised⟩, by rw [State.withPushEffect, ← hfault, Bitstream.append, List.append_nil]⟩
  | push _ dem stS stL new => exact ⟨⟨dem, stS, stL, new, raised⟩, by rw [State.withPushEffect, ← hfault]⟩
  | seg h | scan h | parse h => cases h

/-- The effects of the two units commute, but for the response held last. -/
theorem withPushEffect_withSegEffect_comm (s : State) (e : SegEffect) (p : PushEffect) (r r' q q' : Option Word64) :
    { (s.withPushEffect p r).withSegEffect e r' with resp := none }
      = { (s.withSegEffect e q).withPushEffect p q' with resp := none } := by
  simp only [State.withSegEffect, State.withPushEffect, BitVec.or_assoc, BitVec.or_comm p.raised]

/-! ### `PUSH_DUR` after a segmenter effect -/

section
variable (e : SegEffect) (resp : Option Word64) (s : State)

theorem refuse_withSegEffect (f : CmdFault) : refuse f (s.withSegEffect e resp) = Result.withSegEffect e (refuse f s) := by
  simp only [refuse, State.withSegEffect, Result.withSegEffect, mapNext, BitVec.or_assoc, BitVec.or_comm e.raised]

theorem finishTone_withSegEffect : finishTone (s.withSegEffect e resp) = Result.withSegEffect e (finishTone s) := by
  simp only [finishTone, apply_ite (Result.withSegEffect e)]
  rfl

theorem addTone_withSegEffect (d : Nat) : addTone d (s.withSegEffect e resp) = Result.withSegEffect e (addTone d s) := by
  simp only [addTone, apply_ite (Result.withSegEffect e), ← finishTone_withSegEffect (resp := resp),
    ← refuse_withSegEffect (resp := resp)]
  rfl

theorem addDuration_withSegEffect (d : Nat) :
    addDuration d (s.withSegEffect e resp) = Result.withSegEffect e (addDuration d s) := by
  have hclass : classifyPulse (s.withSegEffect e resp).stS (s.withSegEffect e resp).cfg.deltaPct d
      = classifyPulse s.stS s.cfg.deltaPct d := rfl
  simp only [addDuration, hclass]
  cases classifyPulse s.stS s.cfg.deltaPct d with
  | neither => rfl
  | short | long =>
    simp only [apply_ite (Result.withSegEffect e), ← refuse_withSegEffect (resp := resp)]
    rfl

theorem exec_pushDur_withSegEffect (d : Duration) :
    exec (.pushDur d) (s.withSegEffect e resp) = Result.withSegEffect e (exec (.pushDur d) s) := by
  cases hp : s.dem.phase with
  | lost =>
    show execPushDur d _ = Result.withSegEffect e (execPushDur d s)
    simp only [execPushDur, State.withSegEffect, hp]
    exact refuse_withSegEffect ..
  | calib =>
    rw [exec_pushDur_of_calib hp, exec_pushDur_of_calib (s := s.withSegEffect e resp) hp]
    exact addTone_withSegEffect ..
  | decode =>
    rw [exec_pushDur_of_decode hp, exec_pushDur_of_decode (s := s.withSegEffect e resp) hp]
    exact addDuration_withSegEffect ..

end

/-! ### A SEG command after a push effect -/

section
variable (e : PushEffect) (resp : Option Word64) (s : State)

theorem refuse_withPushEffect (f : CmdFault) : refuse f (s.withPushEffect e resp) = Result.withPushEffect e (refuse f s) := by
  simp only [refuse, State.withPushEffect, Bitstream.append, Result.withPushEffect, mapNext, BitVec.or_assoc,
    BitVec.or_comm e.raised]

theorem completeEmit_withPushEffect (emit : Option Nat) :
    completeEmit emit (s.withPushEffect e resp) = Result.withPushEffect e (completeEmit emit s) := by
  cases emit with
  | none => rfl
  | some d => rfl

theorem execSegAcc_withPushEffect (l r : Sample) : execSegAcc l r (s.withPushEffect e resp)
    = Result.withPushEffect e (execSegAcc l r s) := by
  simp only [execSegAcc, apply_ite (Result.withPushEffect e), ← refuse_withPushEffect (resp := resp)]
  rfl

theorem execSegSample_withPushEffect (l r : Sample) : execSegSample l r (s.withPushEffect e resp)
    = Result.withPushEffect e (execSegSample l r s) := by
  simp only [execSegSample, apply_ite (Result.withPushEffect e), ← refuse_withPushEffect (resp := resp),
    ← completeEmit_withPushEffect (resp := resp)]
  rfl

theorem exec_seg_withPushEffect {i : Instr} (hi : unitOf i = .seg) :
    exec i (s.withPushEffect e resp) = Result.withPushEffect e (exec i s) := by
  cases i with
  | segReset => rfl
  | segAcc l r => exact execSegAcc_withPushEffect ..
  | segSample l r => exact execSegSample_withPushEffect ..
  | segFlush => exact completeEmit_withPushEffect (s := { s with seg := { s.seg with isOpen := false, run := 0, cur := 0 } }) ..
  | _ => cases hi

end

/-! ### The two orders (R298) -/

/-- A mapped answer that has a next state is that of an answer with one. -/
theorem exists_next_of_mapNext {f : State → State} {r : Result} {t : State} (h : mapNext f r = .next t) :
    ∃ u, r = .next u ∧ t = f u := by
  cases r with
  | next u => exact ⟨u, rfl, (Host.Outcome.next.inj h).symm⟩
  | fault | refused => cases h

/-- Settles O49: each command takes its effect whether or not the other has taken its own, and the effects commute. -/
theorem segAndDemCommute : Obligations.SegAndDemCommute := by
  intro i d s a b hi ha hb
  obtain ⟨e, hseg⟩ := exec_seg_eq_withSegEffect hi ha
  rw [hseg, exec_pushDur_withSegEffect] at hb
  obtain ⟨a', ha', hb⟩ := exists_next_of_mapNext hb
  obtain ⟨p, hpush⟩ := exec_pushDur_eq_withPushEffect ha'
  have hb' : exec i a' = .next (a.withPushEffect p a.resp) := by
    rw [hpush, exec_seg_withPushEffect _ _ _ hi, ha]
    rfl
  refine ⟨a', _, ha', hb', ?_, by rw [hb]; rfl, rfl⟩
  rw [hb, hpush, hseg]
  exact (withPushEffect_withSegEffect_comm ..).symm

end Sys2Proof.Machine
